-- ==== Sys2Proof/Word.lean ====
section
/-!
DEFINITION. The words of the FORTH cores (00_scope.md R7, R21): bytes, 16-bit words, stack cells and
external addresses.
-/

namespace Sys2Proof

/-- A byte of external memory or of the UART (R7: "a byte is 8 bits"). -/
abbrev Byte := BitVec 8

/-- A "word" of the source: 16 bits, the width of a line of code and of the data bus (R7, R70). -/
abbrev Word := BitVec 16

/-- The container of a stack cell or of a `W`-bit register. A cell is `W` bits wide, 16 or 32 by the
core (R21); the container has 32 bits and what is written to it is first truncated to `W` bits. -/
abbrev Cell := BitVec 32

/-- The container of an `AB`-bit external address, `AB` being 21 to 32 (R6, R29). -/
abbrev Addr := BitVec 32

/-- A 5-bit operation code (R105). -/
abbrev OpCode := BitVec 5

/-- The 10-bit signed movement of a relative branch (R102). -/
abbrev Movement := BitVec 10

end Sys2Proof
end

