-- ==== Sys2Proof/Config.lean ====
section
/-!
DEFINITION. The parameters of R6 (00_scope.md), each fixed for a run, and the platform's two inputs that
do not change during a run: the `XMODEM` pin and the content of the boot ROM (R254). They stand in
`State.cfg`, so that a statement about every state covers both cores and every parameter. One value is left
open, the byte a read gives where no memory answers (U16): it is the opaque constant at the end.
-/

namespace Sys2Proof

/-- Parameter `CORE` of R6: the 16 bits core or the 32 bits core. -/
inductive Core where
  | core16
  | core32
  deriving DecidableEq, Repr

/-- Parameter `PC_LEVELS_32` of R130: how many return-stack cells hold a program counter when
`CORE = 32`. -/
inductive PcLevels where
  | one
  | two
  deriving DecidableEq, Repr

/-- Parameter `UART_MASK_POLARITY` of R214 and decision D25: what a mask bit at 1 does to the
interruption of its status bit. -/
inductive MaskPolarity where
  | blocks
  | enables
  deriving DecidableEq, Repr

/-- What a region of the address space holds (R78, U16). -/
inductive RegionKind where
  /-- Random access memory: read and written. -/
  | ram
  /-- Read-only memory: a store there is lost (log 8). -/
  | rom
  /-- No memory: a store is lost and a read gives an open value (log 8, log 38). -/
  | absent
  deriving DecidableEq, Repr

/-- One region of the platform's memory map, in 16-bit words (R71, R78). -/
structure Region where
  /-- The value of `CE.S` it stands for; `none`: both. -/
  mapping : Option Bool
  /-- The value of `rom_inhibit` it stands for; `none`: both. -/
  inhibited : Option Bool
  /-- The first word of the address space it covers, `addr[AB-1:1]`. -/
  first : Nat
  /-- How many words it covers. -/
  words : Nat
  kind : RegionKind
  /-- The word of external memory that answers at `first`: with two regions of one home, the same memory
  shows at two places, as the random access memory does when `CE.S` moves it (R78). -/
  home : Nat
  deriving DecidableEq, Repr

/-- The parameters of one machine (R6, R78, R130, R214, R254). -/
structure Config where
  /-- `CORE` (R6). -/
  core : Core
  /-- `ADDR_BITS` less 21, so that every value is legal: `AB` is 21 to 32 (R6). -/
  extraAddrBits : Fin 12
  /-- `MT`: code 10011 is `mulu` when 1, `addc` when 0 (R34). -/
  mt : Bool
  /-- `EMU`: the core is emulated under UNIX (R35). -/
  emu : Bool
  /-- `PC_LEVELS_32` (R130, decision D8). -/
  pcLevels32 : PcLevels
  /-- `UART_MASK_POLARITY` (R214, decision D25). -/
  uartMaskPolarity : MaskPolarity
  /-- The `XMODEM` pin; `false` (0) shows the boot ROM (R79, R254). -/
  xmodem : Bool
  /-- The memory-map function `region(CE.S, rom_inhibit, addr)` as data: the first region that stands for
  the two bits and covers the address answers, and where none does memory answers at its own address, so
  that the empty list is the flat default (R6, R78, D16, log 8). -/
  memoryMap : List Region
  /-- The platform's boot ROM, as (address, byte) pairs; an unlisted byte is 0 (R254, log 9). -/
  bootRom : List (Nat × Byte)
  deriving DecidableEq, Repr

/-- `W`: 16 or 32 by the core (R6). -/
def Config.width (c : Config) : Nat :=
  match c.core with
  | .core16 => 16
  | .core32 => 32

/-- `AB`, the width of `pc` and of an external address: 21 to 32 (R6). -/
def Config.addrBits (c : Config) : Nat := 21 + c.extraAddrBits.val

/-- `PAGE_BITS = AB - 16`: 5 to 16 (R6). -/
def Config.pageBits (c : Config) : Nat := c.addrBits - 16

/-- The defaults of decisions D1, D2, D3, D8, D16 and D25: the 16 bits core, 21 address bits, `addc`,
hardware, one level, mask bits that block, the flat map, no boot ROM. DESIGN CHOICE (log 1). -/
def Config.standard : Config where
  core := .core16
  extraAddrBits := 0
  mt := false
  emu := false
  pcLevels32 := .one
  uartMaskPolarity := .blocks
  xmodem := true
  memoryMap := []
  bootRom := []

/-- FREE VALUE (log 38): the byte the `count`-th read that finds no memory gives at byte address `addr`. The
spec states none (U16), so nothing constrains it. -/
opaque Config.openByte (count addr : Nat) : Byte

end Sys2Proof
end

