-- ==== Sys2Proof/Machine/Bits.lean ====
section
/-!
DEFINITION. Truncation, extension and byte selection (00_scope.md R7): the helpers every operation shares.
-/

namespace Sys2Proof.Machine

/-- `n mod 2^W`: what a stack cell or a `W`-bit register keeps of a value (R21). -/
def cellOf (c : Config) (n : Nat) : Cell := BitVec.ofNat 32 (n % 2 ^ c.width)

/-- `n mod 2^AB`: an external address (R7, R84). -/
def addrOf (c : Config) (n : Nat) : Addr := BitVec.ofNat 32 (n % 2 ^ c.addrBits)

/-- `n mod 2^AB` with bit 0 forced to 0: what `pc` keeps of a value (R29). -/
def evenAddrOf (c : Config) (n : Nat) : Addr := BitVec.ofNat 32 (n % 2 ^ c.addrBits / 2 * 2)

/-- The low `PAGE_BITS` of `n`: what a page register keeps of a value (R28). -/
def pageOf (c : Config) (n : Nat) : Word := BitVec.ofNat 16 (n % 2 ^ c.pageBits)

/-- `zext_W`: a value of `k` bits as a cell (R7). -/
def zextCell (c : Config) {k : Nat} (v : BitVec k) : Cell := cellOf c v.toNat

/-- `sext_W`: a value of `k` bits, its bit `k - 1` copied upward, as a cell (R7). -/
def sextCell (c : Config) {k : Nat} (v : BitVec k) : Cell := cellOf c (v.signExtend 32).toNat

/-- Bits 15..0 of a cell. -/
def lowWord (v : Cell) : Word := v.extractLsb' 0 16

/-- Bits 31..16 of a cell. -/
def highWord (v : Cell) : Word := v.extractLsb' 16 16

/-- Bits 7..0 of a cell. -/
def lowByte (v : Cell) : Byte := v.extractLsb' 0 8

/-- A word's byte at the even address: bits 15..8 (R72, R73). -/
def evenByte (w : Word) : Byte := w.extractLsb' 8 8

/-- A word's byte at the odd address: bits 7..0 (R73). -/
def oddByte (w : Word) : Byte := w.extractLsb' 0 8

/-- The byte address with bit 0 cleared, of the word that holds byte `a` (R71). -/
def evenAddress (a : Addr) : Nat := a.toNat / 2 * 2

/-- The displacement in bytes of a branch, sign-extended: `sext(line[10:0])` (R102). -/
def displacement (d : Movement) : Addr := (d ++ 0#1 : BitVec 11).signExtend 32

end Sys2Proof.Machine
end

