-- ==== Sys2Proof/Machine/Flags.lean ====
section
/-!
DEFINITION. The carry, the only condition flag (10_state.md R31): how each instruction that calculates it
does (43_alu.md R161, R162, R163, R168).
-/

namespace Sys2Proof.Machine

/-- The carry out of `x + y` at bit `W`: `sum[W]` (R163, R168). -/
def addCarry (c : Config) (x y : Cell) : Bool := (x.toNat + y.toNat).testBit c.width

/-- The carry of `rolc`: the old `T[W-1]` (R161). -/
def rolCarry (c : Config) (t : Cell) : Bool := t.getLsbD (c.width - 1)

/-- The carry of `rorc`: the old `T[0]` (R162). -/
def rorCarry (t : Cell) : Bool := t.getLsbD 0

/-- `(T << 1) | C`, before truncation to `W` bits (R161). -/
def rolResult (t : Cell) (carry : Bool) : Nat := t.toNat <<< 1 ||| carry.toNat

/-- `(T >> 1) | (C << (W-1))` (R162). -/
def rorResult (c : Config) (t : Cell) (carry : Bool) : Nat :=
  t.toNat >>> 1 ||| carry.toNat <<< (c.width - 1)

end Sys2Proof.Machine
end

