-- ==== Sys2Proof/Syntax.lean ====
section
/-!
DEFINITION. The instructions, one constructor per row of spec/opcode_table.json, and the lines of code
they stand in (30_encoding.md R100 to R106). An instruction of a format S line is one slot; a branch or a
`calla` is a whole line (R8). The argument of `lit` is no part of the instruction: it is the word at `pc`
when the slot executes (R104), which an earlier slot of the same line may have written (R82).
-/

namespace Sys2Proof

inductive Instr where
  /-- R131, format B. -/
  | jmp (d : Movement)
  /-- R132, format B. -/
  | jz (d : Movement)
  /-- R133, format B. -/
  | call (d : Movement)
  /-- R134, format B. -/
  | jnc (d : Movement)
  /-- R140, code 00100. -/
  | fcw
  /-- R141, code 00101. -/
  | stcw
  /-- R135, code 00110. -/
  | ret
  /-- R191, code 00111. -/
  | iret
  /-- R151, code 01000. -/
  | ftchrp
  /-- R152, code 01001. -/
  | ftchap
  /-- R153, code 01010. -/
  | lit
  /-- R154, code 01011. -/
  | ftcha
  /-- R155, code 01100. -/
  | strp
  /-- R156, code 01101. -/
  | stap
  /-- R190, code 01110 when `CORE = 16`. -/
  | swi
  /-- R169, code 01110 when `CORE = 32`. -/
  | swab
  /-- R157, code 01111. -/
  | sta
  /-- R160, code 10000. -/
  | com
  /-- R161, code 10001. -/
  | rolc
  /-- R162, code 10010. -/
  | rorc
  /-- R163, code 10011 when `MT = 0`. -/
  | addc
  /-- R164, code 10011 when `MT = 1`. -/
  | mulu
  /-- R165, code 10100. -/
  | xorr
  /-- R166, code 10101. -/
  | andd
  /-- R192, code 10110 when `CORE = 16`: an incorrect operating code. -/
  | reserved10110
  /-- R167, code 10110 when `CORE = 32`. -/
  | sxt
  /-- R168, code 10111. -/
  | addd
  /-- R180, code 11000. -/
  | pop
  /-- R181, code 11001. -/
  | popa
  /-- R182, code 11010. -/
  | dup
  /-- `over`, R183, code 11011 (Mathlib reads `over` as a keyword, so the constructor names its operand). -/
  | overS
  /-- R184, code 11100. -/
  | push
  /-- R185, code 11101. -/
  | pusha
  /-- R186, code 11110. -/
  | nop
  /-- R187, code 11111. -/
  | drop
  /-- R136, format C: target bits 15..1 in the first word, 31..16 in the second (R103). -/
  | calla (lo : BitVec 15) (hi : Word)
  /-- R192, a branch code (its low two bits) in slot 2 or 3: an incorrect operating code. -/
  | incorrectBranchCode (code : BitVec 2)
  deriving DecidableEq, Repr

/-- A line of code: one branch or `calla` (formats B and C), or the three slots of format S (R100). -/
inductive Line where
  | whole (i : Instr)
  | slots (i1 i2 i3 : Instr)
  deriving DecidableEq, Repr

/-- Is the instruction a whole line by itself (format B or C)? (R100) -/
def Instr.isWholeLine : Instr → Bool
  | .jmp _ | .jz _ | .call _ | .jnc _ | .calla _ _ => true
  | .fcw | .stcw | .ret | .iret | .ftchrp | .ftchap | .lit | .ftcha | .strp | .stap | .swi | .swab
  | .sta | .com | .rolc | .rorc | .addc | .mulu | .xorr | .andd | .reserved10110 | .sxt | .addd
  | .pop | .popa | .dup | .overS | .push | .pusha | .nop | .drop | .incorrectBranchCode _ => false

/-- Is the instruction one of the incorrect codes of slot 2 or 3 (R108)? -/
def Instr.isIncorrectBranchCode : Instr → Bool
  | .incorrectBranchCode _ => true
  | .jmp _ | .jz _ | .call _ | .jnc _ | .calla _ _
  | .fcw | .stcw | .ret | .iret | .ftchrp | .ftchap | .lit | .ftcha | .strp | .stap | .swi | .swab
  | .sta | .com | .rolc | .rorc | .addc | .mulu | .xorr | .andd | .reserved10110 | .sxt | .addd
  | .pop | .popa | .dup | .overS | .push | .pusha | .nop | .drop => false

/-- The instruction of a line that executes first: the whole line's, or slot 1's (R107). -/
def Line.first : Line → Instr
  | .whole i => i
  | .slots i1 _ _ => i1

end Sys2Proof
end

