-- ==== Sys2Proof/Machine/State.lean ====
section
/-!
DEFINITION. The state of the machine as plain data (10_state.md R20, R47), its reset value (R48), and the
reasons a step can stop.
-/

namespace Sys2Proof.Machine

/-- The 256 cells of a stack (R22, R24). -/
abbrev Stack := Vector Cell 256

/-- External memory by byte address: the canonical form is `Mem.wf` of Machine/Memory.lean. -/
abbrev Mem := List Host.Cell

/-- The writable bits of the control/state register `CE` (R30). Bits 10..2 read as 0, `EMU` and `MT` are
parameters: none of them is stored. -/
structure Control where
  /-- Bit 15, the carry (R31). -/
  c : Bool
  /-- Bit 14, the interruption state (R32). -/
  i : Bool
  /-- Bit 13, the interruption mask (R33). -/
  m : Bool
  /-- Bit 12, the byte mode (R33). -/
  b : Bool
  /-- Bit 11, `CE.S`, the memory mapping (R33). -/
  s : Bool
  deriving DecidableEq, Repr

/-- The timer (R212). -/
structure Timer where
  enable : Bool
  count : BitVec 4
  irq : Bool
  deriving DecidableEq, Repr

/-- The UART (R213 to R215). -/
structure Uart where
  /-- `UART_BAUD` (R213). -/
  baud : BitVec 4
  /-- rxrdy, txrdy, parityerr, framingerr, overrun from bit 4 down to bit 0 (R44, R214). -/
  status : BitVec 5
  /-- The interruption mask, in the order of the status bits (R214). -/
  mask : BitVec 5
  /-- The last received byte (R215). -/
  rxByte : Byte
  /-- The model's own: the bytes emitted to the host, oldest first (R215). -/
  sent : List Byte
  deriving DecidableEq, Repr

/-- What the environment does between two lines (R212, R215, R216, R250). -/
inductive EnvEvent where
  /-- The RESET signal is applied (R250). -/
  | reset
  /-- One period of 1 ms has elapsed (R212). -/
  | timerTick
  /-- The UART has received a byte, with or without a parity or framing error (R215). -/
  | uartReceive (b : Byte) (parityErr framingErr : Bool)
  /-- The transmitter can take a byte again (R215). -/
  | uartTxDone
  /-- An external peripheral drives its request to this level (R216). -/
  | extIrq (level : Bool)
  deriving DecidableEq, Repr

/-- The whole machine. Fields are in the order of INVENTORY.md. -/
structure State where
  /-- The parameters, which no step changes (R6). -/
  cfg : Config
  /-- The program counter, `AB` bits, even (R29). -/
  pc : Addr
  /-- The address register `A`, `W` bits (R27). -/
  a : Cell
  /-- Page of `A`, `PAGE_BITS` (R28); `CORE = 16` only. -/
  pa : Word
  /-- Page of `R`, `PAGE_BITS` (R28); `CORE = 16` only. -/
  pr : Word
  /-- The data stack's cells `DS[0..255]`, so `T` and `S` (R22). -/
  ds : Stack
  /-- The low 8 bits of `PNTT`; its upper byte is fixed at 0x02 (R23). -/
  dsp : BitVec 8
  /-- The return stack's cells `RS[0..255]`, so `R` (R24). -/
  rs : Stack
  /-- The low 8 bits of `PNTR`; its upper byte is fixed at 0x03 (R24). -/
  rsp : BitVec 8
  /-- The stored bits of `CE` (R30). -/
  ce : Control
  /-- Saved `A` (R37). -/
  sa : Cell
  /-- Saved `PA` (R37); `CORE = 16` only. -/
  spa : Word
  /-- Saved `PR` (R37); `CORE = 16` only. -/
  spr : Word
  /-- Saved `CE`, a plain 16-bit register (R37). -/
  sce : Word
  /-- A data-stack pointer crossing waits to be served (R47). -/
  dsEvent : Bool
  /-- A return-stack pointer crossing waits to be served (R47). -/
  rsEvent : Bool
  /-- The latch that hides the boot ROM (R47, R254). -/
  romInhibit : Bool
  timer : Timer
  uart : Uart
  /-- An external peripheral's request, a level (R216). -/
  extIrq : Bool
  /-- External memory (R70, R71). -/
  mem : Mem
  /-- The model's own: the environment's events to come, one batch before each line (D35, log 25). -/
  inbox : List (List EnvEvent)
  /-- The model's own: how many reads have found no memory, so that each gives a value of its own (U16,
  log 38). -/
  openReads : Nat
  deriving DecidableEq, Repr

/-- Why the machine stops with a fault. The hardware itself never stops (R200): this one is the model's. -/
inductive Fault where
  /-- Raised by the meaning of `swi`, `swab`, `sxt`, `addc`, `mulu` and reserved code 10110 in a state
  whose core does not have the instruction (R106). SAFE: the decoder never yields an instruction the
  core does not have, so no step raises it (log 29). -/
  | absentInstruction
  deriving DecidableEq, Repr

/-- Why the machine refuses to go on. -/
inductive Refusal where
  /-- Raised by `exec` for an instruction with no meaning yet; no arm does. SAFE. -/
  | notModelled (mnemonic : String)
  /-- Raised by `fcw` with a number that has no register: "A model refuses an access to them" (R46, U5).
  SAFE: the hardware would go on with some value. -/
  | freeSpaceRead (number : Word)
  /-- Raised by `stcw` with a number that has no register (R46, U5). SAFE, as for the read. -/
  | freeSpaceWrite (number : Word)
  /-- Raised by `stcw` to register 2 (`PNTT`) or 3 (`PNTR`): "the result is left open and a model refuses
  it" (R141, U7). SAFE: the hardware would go on in some way. -/
  | pointerWrite (number : Word)
  deriving DecidableEq, Repr

/-- `CE` after reset: `M = 1`, all else 0 (R48; `I` by decision D9). -/
def Control.reset : Control where
  c := false
  i := false
  m := true
  b := false
  s := false

/-- The UART mask after reset: every source masked (R48), so all ones where a mask bit blocks and all
zeros where it enables (D25). -/
def resetUartMask (p : MaskPolarity) : BitVec 5 :=
  match p with
  | .blocks => 0b11111
  | .enables => 0b00000

/-- The machine with parameters `cfg` right after a power-up reset (R48). The count of open reads is the
model's own (DESIGN CHOICE, log 38). The cells, `SA`, `SPA`, `SPR`,
`SCE`, the received byte, the UART status and the memory have no stated value: DESIGN CHOICE, log 4, 5
and 7 name the values taken. -/
def State.resetOf (cfg : Config) : State where
  cfg := cfg
  pc := 0
  a := 0
  pa := 0
  pr := 0
  ds := Vector.replicate 256 0
  dsp := 0
  rs := Vector.replicate 256 0
  rsp := 0
  ce := Control.reset
  sa := 0
  spa := 0
  spr := 0
  sce := 0
  dsEvent := false
  rsEvent := false
  romInhibit := false
  timer := { enable := false, count := 0, irq := false }
  uart := { baud := 12, status := 0b01000, mask := resetUartMask cfg.uartMaskPolarity,
            rxByte := 0, sent := [] }
  extIrq := false
  mem := []
  inbox := []
  openReads := 0

/-- The machine right after reset, with the default parameters (R48, log 1). -/
def State.reset : State := State.resetOf Config.standard

end Sys2Proof.Machine
end

