-- ==== Sys2Proof/Machine/Memory.lean ====
section
/-!
DEFINITION. External memory as a list of (address, byte) pairs in one canonical form: addresses strictly
rising, no entry 0, which is what an unlisted byte reads as (DESIGN CHOICE, log 7).
-/

namespace Sys2Proof.Machine

/-- What a byte of memory that nothing has written reads as. DESIGN CHOICE, log 7: the spec gives no
content (R48); every content is a list, so only `State.reset` rests on this. -/
def unwrittenByte : Byte := 0

/-- The byte at an address. -/
def Mem.read : Mem → Nat → Byte
  | [], _ => unwrittenByte
  | (k, v) :: m, a => if k = a then v else Mem.read m a

/-- Put an entry before the first one with a larger address. -/
def Mem.insert : Mem → Nat → Byte → Mem
  | [], a, v => [(a, v)]
  | (k, w) :: m, a, v => if a < k then (a, v) :: (k, w) :: m else (k, w) :: Mem.insert m a v

/-- The memory with every entry of an address taken out. -/
def Mem.erase : Mem → Nat → Mem
  | [], _ => []
  | (k, w) :: m, a => if k = a then Mem.erase m a else (k, w) :: Mem.erase m a

/-- Write a byte; writing what an unlisted byte reads as removes the entry. -/
def Mem.write (m : Mem) (a : Nat) (v : Byte) : Mem :=
  if v = unwrittenByte then Mem.erase m a else Mem.insert (Mem.erase m a) a v

/-- Does every entry lie at or above `lo`, with addresses strictly rising and no entry equal to an
unwritten byte? -/
def Mem.wfFrom (lo : Nat) : Mem → Bool
  | [] => true
  | (k, v) :: m => decide (lo ≤ k) && v != unwrittenByte && Mem.wfFrom (k + 1) m

/-- The canonical form of a memory. -/
def Mem.wf (m : Mem) : Bool := Mem.wfFrom 0 m

/-- Does every entry lie below `n`? -/
def Mem.below (n : Nat) (m : Mem) : Bool := m.all (fun e => decide (e.1 < n))

end Sys2Proof.Machine
end

