-- ==== Sys2Proof/Machine/MemoryMap.lean ====
section
/-!
DEFINITION. The platform's memory map, `region(CE.S, rom_inhibit, addr)` (20_memory.md R78, decision D16): which
word of external memory answers at a word of the address space.
-/

namespace Sys2Proof.Machine

/-- What answers at one word of the address space: a word of external memory that can be written, one that
cannot, or nothing. -/
inductive Place where
  | ram (word : Nat)
  | rom (word : Nat)
  | absent
  deriving DecidableEq, Repr

/-- Does the region stand for these values of `CE.S` and `rom_inhibit`, and cover word `w`? -/
def regionCovers (mapping inhibited : Bool) (w : Nat) (r : Region) : Bool :=
  r.mapping.all (· == mapping) && r.inhibited.all (· == inhibited) &&
    decide (r.first ≤ w) && decide (w < r.first + r.words)

/-- What answers at word `w` of a region; external memory has `2^(AB-1)` words (R71). -/
def placeInRegion (c : Config) (r : Region) (w : Nat) : Place :=
  match r.kind with
  | .ram => .ram ((r.home + (w - r.first)) % 2 ^ (c.addrBits - 1))
  | .rom => .rom ((r.home + (w - r.first)) % 2 ^ (c.addrBits - 1))
  | .absent => .absent

/-- `region(CE.S, rom_inhibit, addr)` at word `w = addr[AB-1:1]`: the first region that covers it, else the
flat default (D16). -/
def region (c : Config) (mapping inhibited : Bool) (w : Nat) : Place :=
  match c.memoryMap.find? (regionCovers mapping inhibited w) with
  | some r => placeInRegion c r w
  | none => .ram w

end Sys2Proof.Machine
end

