-- ==== Sys2Proof/Machine/Ops.lean ====
section
/-!
DEFINITION. The named operations over the registers, the stacks and external memory, and taking an
interruption and returning from one (10_state.md R22 to R30, 20_memory.md R72, R73, R79, 40_branches.md
R130, 60_exceptions.md R201, 45_system.md R191).
-/

namespace Sys2Proof.Machine

/-! ### The stacks as arrays -/

/-- Cell `i` of a stack. -/
def cellAt (st : Stack) (i : BitVec 8) : Cell := st[i.toNat]'(i.isLt)

/-- The stack with cell `i` replaced. -/
def setCellAt (st : Stack) (i : BitVec 8) (v : Cell) : Stack := st.set i.toNat v i.isLt

/-! ### Views -/

/-- `PNTT`, 512 to 767 (R22). -/
def State.pntt (s : State) : Word := 0x02#8 ++ s.dsp

/-- `PNTR`, 768 to 1023 (R24). -/
def State.pntr (s : State) : Word := 0x03#8 ++ s.rsp

/-- `T`, the top cell of the data stack (R22). -/
def State.t (s : State) : Cell := cellAt s.ds s.dsp

/-- `S`, the second cell of the data stack (R22). -/
def State.second (s : State) : Cell := cellAt s.ds (s.dsp + 1#8)

/-- `R`, the top cell of the return stack (R24). -/
def State.r (s : State) : Cell := cellAt s.rs s.rsp

/-- The 16-bit value of `CE` (R30): `C`, `I`, `M`, `B`, `S`, nine zeros, `EMU`, `MT`. -/
def State.ceWord (s : State) : Word :=
  BitVec.ofBool s.ce.c ++ BitVec.ofBool s.ce.i ++ BitVec.ofBool s.ce.m ++ BitVec.ofBool s.ce.b ++
    BitVec.ofBool s.ce.s ++ 0#9 ++ BitVec.ofBool s.cfg.emu ++ BitVec.ofBool s.cfg.mt

/-! ### Registers -/

/-- `pc <- n`: bit 0 dropped, `mod 2^AB` (R29). -/
def State.setPc (s : State) (n : Nat) : State := { s with pc := evenAddrOf s.cfg n }

/-- `pc <- (pc + 2) mod 2^AB` (R29, R107). -/
def State.advancePc (s : State) : State := s.setPc (s.pc.toNat + 2)

/-- `A <- n mod 2^W` (R27). -/
def State.setA (s : State) (n : Nat) : State := { s with a := cellOf s.cfg n }

/-- Put the carry `C` (R31). -/
def State.setC (s : State) (b : Bool) : State := { s with ce := { s.ce with c := b } }

/-- Bits 15..11 of a word as the stored bits of `CE` (R30). -/
def controlOf (w : Word) : Control where
  c := w.getLsbD 15
  i := w.getLsbD 14
  m := w.getLsbD 13
  b := w.getLsbD 12
  s := w.getLsbD 11

/-- Put bits 15..11 of a value in `CE`; its other bits are ignored (R36, R191). -/
def State.setCe (s : State) (w : Word) : State := { s with ce := controlOf w }

/-! ### Data stack (R22, R23) -/

/-- Write `T` in place. -/
def State.setT (s : State) (n : Nat) : State :=
  { s with ds := setCellAt s.ds s.dsp (cellOf s.cfg n) }

/-- `DPush`: the pointer goes down, the value is the new `T`; from 0x01 to 0x00 is a crossing. -/
def State.dPush (s : State) (n : Nat) : State :=
  { s with
    dsp := s.dsp - 1#8
    ds := setCellAt s.ds (s.dsp - 1#8) (cellOf s.cfg n)
    dsEvent := s.dsEvent || s.dsp == 1#8 }

/-- The movement of `DPop`: the pointer goes up, the cell keeps its content; from 0x00 to 0x01 is a
crossing. The value popped is `T` before. -/
def State.dDrop (s : State) : State :=
  { s with dsp := s.dsp + 1#8, dsEvent := s.dsEvent || s.dsp == 0#8 }

/-! ### Return stack (R24, R25) -/

/-- Write `R` in place. -/
def State.setR (s : State) (n : Nat) : State :=
  { s with rs := setCellAt s.rs s.rsp (cellOf s.cfg n) }

/-- `RPush`. -/
def State.rPush (s : State) (n : Nat) : State :=
  { s with
    rsp := s.rsp - 1#8
    rs := setCellAt s.rs (s.rsp - 1#8) (cellOf s.cfg n)
    rsEvent := s.rsEvent || s.rsp == 1#8 }

/-- The movement of `RPop`; the value popped is `R` before. -/
def State.rDrop (s : State) : State :=
  { s with rsp := s.rsp + 1#8, rsEvent := s.rsEvent || s.rsp == 0#8 }

/-! ### External memory (R72, R73, R79) -/

/-- Does a read of byte address `a` show the boot ROM? While `XMODEM = 0` and `rom_inhibit = 0`, at
addresses 0x000 to 0x1FF (R79, R254). -/
def State.romShows (s : State) (a : Nat) : Bool :=
  !s.cfg.xmodem && !s.romInhibit && decide (a < 0x200)

/-- What answers at byte address `a` beneath the boot ROM (R78). -/
def State.placeOf (s : State) (a : Nat) : Place := region s.cfg s.ce.s s.romInhibit (a / 2)

/-- The byte a read of address `a` gives. -/
def State.byteAt (s : State) (a : Nat) : Byte :=
  if s.romShows a then Mem.read s.cfg.bootRom a
  else match s.placeOf a with
    | .ram n => Mem.read s.mem (n * 2 + a % 2)
    | .rom n => Mem.read s.mem (n * 2 + a % 2)
    | .absent => Config.openByte s.openReads a

/-- `MemRead(addr, 2)`: bit 0 of the address is ignored, the even byte is the high one (R72). -/
def State.wordAt (s : State) (a : Addr) : Word :=
  s.byteAt (evenAddress a) ++ s.byteAt (evenAddress a + 1)

/-- Is the address 0xFFFXXXXX: are its bits `AB - 1` to 20 all 1 (R254)? -/
def inTopMegabyte (c : Config) (a : Addr) : Bool := a.toNat >>> 20 == 2 ^ (c.addrBits - 20) - 1

/-- Does a read of address `a` find no memory, neither the boot ROM's nor the map's? -/
def State.findsNothing (s : State) (a : Nat) : Bool := !s.romShows a && s.placeOf a == .absent

/-- What a read of address `a` does to the machine: one at 0xFFFXXXXX sets `rom_inhibit` (R79, R254), and
one that finds no memory is counted, so that the next gives a value of its own (log 38). -/
def State.noteRead (s : State) (a : Addr) : State :=
  { s with
    romInhibit := s.romInhibit || inTopMegabyte s.cfg a
    openReads := if s.findsNothing a.toNat then s.openReads + 1 else s.openReads }

/-- External memory after `MemWrite(addr, 1, v)`: one byte; the other byte of its word is unchanged (R73). A
store that finds no memory it can write is lost (log 8). -/
def State.memWithByte (s : State) (a : Addr) (v : Byte) : Mem :=
  match s.placeOf a.toNat with
  | .ram n => s.mem.write (n * 2 + a.toNat % 2) v
  | .rom _ => s.mem
  | .absent => s.mem

/-- External memory after `MemWrite(addr, 2, v)`: both bytes of the word that holds byte `a` (R72), or
neither, as for a byte. -/
def State.memWithWord (s : State) (a : Addr) (v : Word) : Mem :=
  match s.placeOf a.toNat with
  | .ram n => (s.mem.write (n * 2) (evenByte v)).write (n * 2 + 1) (oddByte v)
  | .rom _ => s.mem
  | .absent => s.mem

/-- `MemWrite(addr, 1, v)` (R73). -/
def State.storeByte (s : State) (a : Addr) (v : Byte) : State := { s with mem := s.memWithByte a v }

/-- `MemWrite(addr, 2, v)` (R72). -/
def State.storeWord (s : State) (a : Addr) (v : Word) : State := { s with mem := s.memWithWord a v }

/-- Read the word at `pc` and move `pc` past it: a line, the second word of a `calla`, the argument of
a `lit` (R104, R107). -/
def State.wordAtPc (s : State) : Word := s.wordAt s.pc

/-- What reading the word at `pc` does to the machine. -/
def State.passWord (s : State) : State := (s.noteRead s.pc).advancePc

/-! ### Saving and restoring the program counter (R130) -/

/-- Does a program counter take two return-stack cells? Always when `CORE = 16`; when `CORE = 32` by
`PC_LEVELS_32`. -/
def twoPcCells (c : Config) : Bool :=
  match c.core, c.pcLevels32 with
  | .core16, _ => true
  | .core32, .one => false
  | .core32, .two => true

/-- `PushPC(v)`: the high part first, so that `R` is the low part. -/
def State.pushPc (s : State) (v : Addr) : State :=
  if twoPcCells s.cfg then (s.rPush (highWord v).toNat).rPush (lowWord v).toNat
  else s.rPush v.toNat

/-- The program counter `PopPC` takes from the return stack: bits above `AB` and bit 0 are ignored. -/
def State.returnPc (s : State) : Nat :=
  if twoPcCells s.cfg then (lowWord s.rDrop.r ++ lowWord s.r : BitVec 32).toNat
  else s.r.toNat

/-- The movement of `PopPC`. -/
def State.dropPc (s : State) : State :=
  if twoPcCells s.cfg then s.rDrop.rDrop else s.rDrop

/-- `pc <- PopPC()`. -/
def State.popPc (s : State) : State := s.dropPc.setPc s.returnPc

/-! ### Interruption entry and return (R201, R191) -/

/-- Copy `A`, `CE` and, when `CORE = 16`, the pages into the save registers (R201, D31). -/
def State.saveRegisters (s : State) : State :=
  match s.cfg.core with
  | .core16 => { s with sa := s.a, spa := s.pa, spr := s.pr, sce := s.ceWord }
  | .core32 => { s with sa := s.a, sce := s.ceWord }

/-- `Enter(vector)`: taking an interruption, the same for every vector but reset (R201). -/
def State.enter (s : State) (vector : Nat) : State :=
  let s1 := (s.pushPc s.pc).saveRegisters
  { s1 with ce := { s1.ce with i := true, m := true, b := false } }.setPc vector

/-- Copy the save registers back (R191). -/
def State.restoreRegisters (s : State) : State :=
  match s.cfg.core with
  | .core16 => { s with a := s.sa, pa := s.spa, pr := s.spr, ce := controlOf s.sce }
  | .core32 => { s with a := s.sa, ce := controlOf s.sce }

/-- The return from an interruption (R191). -/
def State.returnFromInterruption (s : State) : State := s.popPc.restoreRegisters

/-! ### Vectors (R78, R200) -/

def vectorPeripheral : Nat := 0x10
def vectorSwi : Nat := 0x20
def vectorIncorrectCode : Nat := 0x30
def vectorDataStack : Nat := 0x40
def vectorReturnStack : Nat := 0x50

/-! ### RESET (R250) -/

/-- The RESET signal is applied: the listed registers take their values, the cells, the save registers,
the UART status and received byte, and external memory keep theirs (R250, D34). -/
def State.applyReset (s : State) : State :=
  { s with
    pc := 0
    dsp := 0
    rsp := 0
    a := 0
    pa := match s.cfg.core with | .core16 => 0 | .core32 => s.pa
    pr := match s.cfg.core with | .core16 => 0 | .core32 => s.pr
    ce := Control.reset
    dsEvent := false
    rsEvent := false
    timer := { enable := false, count := 0, irq := false }
    uart := { s.uart with baud := 12, mask := resetUartMask s.cfg.uartMaskPolarity }
    romInhibit := false }

end Sys2Proof.Machine
end

