-- ==== Sys2Proof/Machine/Alu.lean ====
section
/-!
DEFINITION. Arithmetic and logic (43_alu.md R160 to R169). A two-operand instruction pops `T`; the result
replaces the old `S`, which is then on top.
-/

namespace Sys2Proof.Machine

/-- Pop `T` and put a result in the cell below it. -/
def State.replaceTwo (s : State) (n : Nat) : State := s.dDrop.setT n

/-- `com` (R160). -/
def execCom (s : State) : Host.Outcome State Fault Refusal := .next (s.setT (~~~s.t).toNat)

/-- `rolc` (R161). -/
def execRolc (s : State) : Host.Outcome State Fault Refusal :=
  .next ((s.setT (rolResult s.t s.ce.c)).setC (rolCarry s.cfg s.t))

/-- `rorc` (R162). -/
def execRorc (s : State) : Host.Outcome State Fault Refusal :=
  .next ((s.setT (rorResult s.cfg s.t s.ce.c)).setC (rorCarry s.t))

/-- `addc` (R163), which a core with `MT = 1` does not have: `S` is added in place if bit 0 of `T` is 1;
otherwise `C` becomes 0. -/
def execAddc (s : State) : Host.Outcome State Fault Refusal :=
  if s.cfg.mt then .fault .absentInstruction
  else if s.t.getLsbD 0 then
    .next ((s.setT (s.t.toNat + s.second.toNat)).setC (addCarry s.cfg s.t s.second))
  else .next (s.setC false)

/-- `mulu` (R164), which a core with `MT = 0` does not have: the exact product, low half in `T`, high half
in `R`, both in place. -/
def execMulu (s : State) : Host.Outcome State Fault Refusal :=
  if s.cfg.mt then
    let p := s.t.toNat * s.r.toNat
    .next ((s.setT p).setR (p >>> s.cfg.width))
  else .fault .absentInstruction

/-- `xorr` (R165). -/
def execXorr (s : State) : Host.Outcome State Fault Refusal :=
  .next (s.replaceTwo (s.second ^^^ s.t).toNat)

/-- `andd` (R166). -/
def execAndd (s : State) : Host.Outcome State Fault Refusal :=
  .next (s.replaceTwo (s.second &&& s.t).toNat)

/-- `sxt` (R167), which only the 32 bits core has. -/
def execSxt (s : State) : Host.Outcome State Fault Refusal :=
  match s.cfg.core with
  | .core16 => .fault .absentInstruction
  | .core32 => .next (s.setT ((lowWord s.t).signExtend 32).toNat)

/-- `addd` (R168): the incoming carry is not added. -/
def execAddd (s : State) : Host.Outcome State Fault Refusal :=
  .next ((s.replaceTwo (s.second.toNat + s.t.toNat)).setC (addCarry s.cfg s.second s.t))

/-- `swab` (R169), which only the 32 bits core has. -/
def execSwab (s : State) : Host.Outcome State Fault Refusal :=
  match s.cfg.core with
  | .core16 => .fault .absentInstruction
  | .core32 => .next (s.setT (lowWord s.t ++ highWord s.t : BitVec 32).toNat)

end Sys2Proof.Machine
end

