-- ==== Sys2Proof/Machine/Operands.lean ====
section
/-!
DEFINITION. The operands of the memory instructions: the address registers, the post-increment, the value
fetched and stored in word and byte mode, and the displacement of a branch (20_memory.md R75, R77,
42_memory_access.md R150, 30_encoding.md R102).
-/

namespace Sys2Proof.Machine

/-- `AddrA()`: `[PA, A]` when `CORE = 16`, `[A]` when `CORE = 32`, `mod 2^AB` (R77). -/
def State.addrA (s : State) : Addr :=
  match s.cfg.core with
  | .core16 => addrOf s.cfg (s.pa ++ lowWord s.a : BitVec 32).toNat
  | .core32 => addrOf s.cfg s.a.toNat

/-- `AddrR()`: `[PR, R]` when `CORE = 16`, `[R]` when `CORE = 32`, `mod 2^AB` (R77). -/
def State.addrR (s : State) : Addr :=
  match s.cfg.core with
  | .core16 => addrOf s.cfg (s.pr ++ lowWord s.r : BitVec 32).toNat
  | .core32 => addrOf s.cfg s.r.toNat

/-- The address `k` further on, `mod 2^AB` (R77, R84). -/
def State.nextAddr (s : State) (a : Addr) (k : Nat) : Addr := addrOf s.cfg (a.toNat + k)

/-- `IncA(k)`: page and register are incremented as one number (R77). -/
def State.incA (s : State) (k : Nat) : State :=
  match s.cfg.core with
  | .core16 =>
    { s.setA (lowWord (s.nextAddr s.addrA k)).toNat with pa := highWord (s.nextAddr s.addrA k) }
  | .core32 => s.setA (s.a.toNat + k)

/-- `IncR(k)`: the same for `[PR, R]`; `R` is changed in place (R77). -/
def State.incR (s : State) (k : Nat) : State :=
  match s.cfg.core with
  | .core16 =>
    { s.setR (lowWord (s.nextAddr s.addrR k)).toNat with pr := highWord (s.nextAddr s.addrR k) }
  | .core32 => s.setR (s.r.toNat + k)

/-- `k` of R150: 2 in word mode, 1 in byte mode. -/
def State.stride (s : State) : Nat := if s.ce.b then 1 else 2

/-- The byte at an address, sign-extended to 16 bits (R75). -/
def State.signedByteAt (s : State) (a : Addr) : Word := (s.byteAt a.toNat).signExtend 16

/-- `Fetched(addr)`: a word, or a byte sign-extended to 16 bits; bits 31..16 are 0 (R150, R75). -/
def State.fetched (s : State) (a : Addr) : Cell :=
  if s.ce.b then zextCell s.cfg (s.signedByteAt a) else zextCell s.cfg (s.wordAt a)

/-- `Store(addr, t)`: `t[15:0]` in word mode, `t[7:0]` in byte mode (R150). -/
def State.store (s : State) (a : Addr) (t : Cell) : State :=
  if s.ce.b then s.storeByte a (lowByte t) else s.storeWord a (lowWord t)

/-- `pc <- (pc + disp) mod 2^AB` (R102, R131). -/
def State.branch (s : State) (d : Movement) : State := s.setPc (s.pc + displacement d).toNat

end Sys2Proof.Machine
end

