-- ==== Sys2Proof/Machine/Branches.lean ====
section
/-!
DEFINITION. Branches, calls and returns (40_branches.md R131 to R136). `pc` already holds the address of
the word after the line (R107); for `calla` the word after both words of it.
-/

namespace Sys2Proof.Machine

/-- `jmp` (R131). -/
def execJmp (d : Movement) (s : State) : Host.Outcome State Fault Refusal := .next (s.branch d)

/-- `jz` (R132): `T` is tested on all its bits and not popped. -/
def execJz (d : Movement) (s : State) : Host.Outcome State Fault Refusal :=
  .next (if s.t = 0 then s.branch d else s)

/-- `call` (R133). -/
def execCall (d : Movement) (s : State) : Host.Outcome State Fault Refusal := .next ((s.pushPc s.pc).branch d)

/-- `jnc` (R134). -/
def execJnc (d : Movement) (s : State) : Host.Outcome State Fault Refusal :=
  .next (if s.ce.c then s else s.branch d)

/-- `ret` (R135). -/
def execRet (s : State) : Host.Outcome State Fault Refusal := .next s.popPc

/-- `calla` (R136): the target is made of both words, `mod 2^AB`. -/
def execCalla (lo : BitVec 15) (hi : Word) (s : State) : Host.Outcome State Fault Refusal :=
  .next ((s.pushPc s.pc).setPc (hi ++ (lo ++ 0#1 : BitVec 16) : BitVec 32).toNat)

end Sys2Proof.Machine
end

