-- ==== Sys2Proof/Machine/Peripherals.lean ====
section
/-!
DEFINITION. The timer, the UART, the interruption input, and what the environment does between lines
(60_exceptions.md R212 to R216, 92_eei_decisions.md D35).
-/

namespace Sys2Proof.Machine

/-- One period of 1 ms: counted, and requested, while the timer is enabled (R212). -/
def Timer.tick (t : Timer) : Timer :=
  if t.enable then { t with count := t.count + 1, irq := true } else t

/-- What reading `TIMER` leaves: count and request are cleared (R212). -/
def Timer.afterRead (t : Timer) : Timer := { t with count := 0, irq := false }

/-- What writing `TIMER` leaves: any non-zero value enables, and the count and request are cleared
(R212, D24). -/
def Timer.afterWrite (v : Word) : Timer := { enable := v != 0, count := 0, irq := false }

def Uart.rxrdy (u : Uart) : Bool := u.status.getLsbD 4
def Uart.txrdy (u : Uart) : Bool := u.status.getLsbD 3
def Uart.parityerr (u : Uart) : Bool := u.status.getLsbD 2
def Uart.framingerr (u : Uart) : Bool := u.status.getLsbD 1
def Uart.overrun (u : Uart) : Bool := u.status.getLsbD 0

/-- The value of `UART_CTRL` as read: the status in bits 15..11, bits 10..0 zero (R214). -/
def Uart.statusWord (u : Uart) : Word := u.status ++ 0#11

/-- What reading `UART_DATA` leaves: rxrdy and the three error bits cleared (R215, D28). -/
def Uart.afterRead (u : Uart) : Uart := { u with status := u.status &&& 0b01000 }

/-- What writing `UART_DATA` leaves: the byte is emitted and txrdy cleared (R215, U8). -/
def Uart.afterWrite (u : Uart) (b : Byte) : Uart :=
  { u with status := u.status &&& 0b10111, sent := u.sent ++ [b] }

/-- A byte arrives: overrun if one was waiting, the error bits it comes with, rxrdy (R215, D28). -/
def Uart.receive (u : Uart) (b : Byte) (parityErr framingErr : Bool) : Uart :=
  { u with
    rxByte := b
    status := u.status ||| (0b10000#5 ||| (BitVec.ofBool parityErr).setWidth 5 <<< 2 |||
      (BitVec.ofBool framingErr).setWidth 5 <<< 1 ||| (BitVec.ofBool u.rxrdy).setWidth 5) }

/-- The transmitter is free again (R215). -/
def Uart.txDone (u : Uart) : Uart := { u with status := u.status ||| 0b01000 }

/-- Is some status bit at 1 with its interruption not masked (R216)? The mask's sense is D25. -/
def Uart.requests (u : Uart) (p : MaskPolarity) : Bool :=
  match p with
  | .blocks => u.status &&& ~~~u.mask != 0
  | .enables => u.status &&& u.mask != 0

/-- `irq`, the interruption input (R216). -/
def State.irq (s : State) : Bool :=
  s.timer.irq || s.uart.requests s.cfg.uartMaskPolarity || s.extIrq

/-- One event of the environment (R212, R215, R216, R250). -/
def State.applyEvent (s : State) : EnvEvent → State
  | .reset => s.applyReset
  | .timerTick => { s with timer := s.timer.tick }
  | .uartReceive b pe fe => { s with uart := s.uart.receive b pe fe }
  | .uartTxDone => { s with uart := s.uart.txDone }
  | .extIrq level => { s with extIrq := level }

/-- A batch of events, in order. -/
def State.applyEvents (s : State) : List EnvEvent → State
  | [] => s
  | e :: es => (s.applyEvent e).applyEvents es

/-- Deliver the batch that stands before the next line (D35). -/
def State.deliver (s : State) : State :=
  match s.inbox with
  | [] => s
  | batch :: later => { s with inbox := later }.applyEvents batch

end Sys2Proof.Machine
end

