-- ==== Sys2Proof/Machine/ExtensionRegisters.lean ====
section
/-!
DEFINITION. The extension-register space (10_state.md R38 to R46): the map of numbers, what a read gives
and does, and what a write does.
-/

namespace Sys2Proof.Machine

/-- What stands behind an extension-register number (R38). -/
inductive ExtReg where
  | pa | pr | pntt | pntr | ce | sa | spa | spr | sce
  | timer | uartBaud | uartCtrl | uartData
  | dataCell (i : BitVec 8)
  | returnCell (i : BitVec 8)
  | freeSpace
  deriving DecidableEq, Repr

/-- A register that only the 16 bits core has: free space when `CORE = 32` (R38, R46). -/
def onlyCore16 (c : Config) (r : ExtReg) : ExtReg :=
  match c.core with
  | .core16 => r
  | .core32 => .freeSpace

/-- The map of extension-register numbers (R38). -/
def extReg (c : Config) (n : Word) : ExtReg :=
  let k := n.toNat
  if k = 0 then onlyCore16 c .pa
  else if k = 1 then onlyCore16 c .pr
  else if k = 2 then .pntt
  else if k = 3 then .pntr
  else if k = 4 then .ce
  else if k = 5 then .sa
  else if k = 6 then onlyCore16 c .spa
  else if k = 7 then onlyCore16 c .spr
  else if k = 8 then .sce
  else if k = 256 then .timer
  else if k = 257 then .uartBaud
  else if k = 258 then .uartCtrl
  else if k = 259 then .uartData
  else if 512 ≤ k ∧ k < 768 then .dataCell (n.setWidth 8)
  else if 768 ≤ k ∧ k < 1024 then .returnCell (n.setWidth 8)
  else .freeSpace

/-- The value `ExtRead` gives, with the sign of a 16-bit register and of the received byte copied upward
(R39), or none where the number has no register (R46). -/
def State.extValue (s : State) : ExtReg → Option Cell
  | .pa => some (zextCell s.cfg s.pa)
  | .pr => some (zextCell s.cfg s.pr)
  | .pntt => some (sextCell s.cfg s.pntt)
  | .pntr => some (sextCell s.cfg s.pntr)
  | .ce => some (sextCell s.cfg s.ceWord)
  | .sa => some s.sa
  | .spa => some (zextCell s.cfg s.spa)
  | .spr => some (zextCell s.cfg s.spr)
  | .sce => some (sextCell s.cfg s.sce)
  | .timer => some (zextCell s.cfg s.timer.count)
  | .uartBaud => some (zextCell s.cfg s.uart.baud)
  | .uartCtrl => some (sextCell s.cfg s.uart.statusWord)
  | .uartData => some (sextCell s.cfg s.uart.rxByte)
  | .dataCell i => some (cellAt s.ds i)
  | .returnCell i => some (cellAt s.rs i)
  | .freeSpace => none

/-- What reading a register does to the machine: only `TIMER` and `UART_DATA` change (R39). -/
def State.noteExtRead (s : State) : ExtReg → State
  | .timer => { s with timer := s.timer.afterRead }
  | .uartData => { s with uart := s.uart.afterRead }
  | .pa | .pr | .pntt | .pntr | .ce | .sa | .spa | .spr | .sce | .uartBaud | .uartCtrl
  | .dataCell _ | .returnCell _ | .freeSpace => s

/-- `ExtWrite`: a register takes its own low bits of the value (R40); none where a model refuses the
write: `PNTT` and `PNTR` (R41), and free space (R46). -/
def State.extWrite (s : State) (v : Cell) : ExtReg → Option State
  | .pa => some { s with pa := pageOf s.cfg v.toNat }
  | .pr => some { s with pr := pageOf s.cfg v.toNat }
  | .pntt => none
  | .pntr => none
  | .ce => some (s.setCe (lowWord v))
  | .sa => some { s with sa := cellOf s.cfg v.toNat }
  | .spa => some { s with spa := pageOf s.cfg v.toNat }
  | .spr => some { s with spr := pageOf s.cfg v.toNat }
  | .sce => some { s with sce := lowWord v }
  | .timer => some { s with timer := Timer.afterWrite (lowWord v) }
  | .uartBaud => some { s with uart := { s.uart with baud := v.setWidth 4 } }
  | .uartCtrl => some { s with uart := { s.uart with mask := v.extractLsb' 11 5 } }
  | .uartData => some { s with uart := s.uart.afterWrite (lowByte v) }
  | .dataCell i => some { s with ds := setCellAt s.ds i (cellOf s.cfg v.toNat) }
  | .returnCell i => some { s with rs := setCellAt s.rs i (cellOf s.cfg v.toNat) }
  | .freeSpace => none

/-- The name of a refused write: a stack pointer or free space. -/
def writeRefusal (n : Word) : ExtReg → Refusal
  | .pntt | .pntr => .pointerWrite n
  | .pa | .pr | .ce | .sa | .spa | .spr | .sce | .timer | .uartBaud | .uartCtrl | .uartData
  | .dataCell _ | .returnCell _ | .freeSpace => .freeSpaceWrite n

end Sys2Proof.Machine
end

