-- ==== Sys2Proof/Machine/ExtensionAccess.lean ====
section
/-!
DEFINITION. Extension-register access (41_extension_access.md R140, R141).
-/

namespace Sys2Proof.Machine

/-- `fcw` (R140): the register is read before any pointer moves, then `R` is popped, then the content is
pushed. A number with no register is refused (R46). -/
def execFcw (s : State) : Host.Outcome State Fault Refusal :=
  let n := lowWord s.r
  match s.extValue (extReg s.cfg n) with
  | some v => .next (((s.noteExtRead (extReg s.cfg n)).rDrop).dPush v.toNat)
  | none => .refused (.freeSpaceRead n)

/-- `stcw` (R141): the register is written, then `R` and `T` are popped. A write to `PNTT` or `PNTR`
(R141) and to a number with no register (R46) is refused. -/
def execStcw (s : State) : Host.Outcome State Fault Refusal :=
  let n := lowWord s.r
  match s.extWrite s.t (extReg s.cfg n) with
  | some s' => .next s'.rDrop.dDrop
  | none => .refused (writeRefusal n (extReg s.cfg n))

end Sys2Proof.Machine
end

