-- ==== Sys2Proof/Machine/MemoryAccess.lean ====
section
/-!
DEFINITION. Memory access (42_memory_access.md R151 to R157).
-/

namespace Sys2Proof.Machine

/-- `ftchrp` (R151). -/
def execFtchrp (s : State) : Host.Outcome State Fault Refusal :=
  .next (((s.noteRead s.addrR).incR s.stride).dPush (s.fetched s.addrR).toNat)

/-- `ftchap` (R152). -/
def execFtchap (s : State) : Host.Outcome State Fault Refusal :=
  .next (((s.noteRead s.addrA).incA s.stride).dPush (s.fetched s.addrA).toNat)

/-- `lit` (R153): the word at `pc`, whatever `B` is; `C` is cleared. -/
def execLit (s : State) : Host.Outcome State Fault Refusal :=
  .next ((s.passWord.dPush s.wordAtPc.toNat).setC false)

/-- `ftcha` (R154). -/
def execFtcha (s : State) : Host.Outcome State Fault Refusal :=
  .next ((s.noteRead s.addrA).dPush (s.fetched s.addrA).toNat)

/-- `strp` (R155). -/
def execStrp (s : State) : Host.Outcome State Fault Refusal :=
  .next (((s.store s.addrR s.t).incR s.stride).dDrop)

/-- `stap` (R156). -/
def execStap (s : State) : Host.Outcome State Fault Refusal :=
  .next (((s.store s.addrA s.t).incA s.stride).dDrop)

/-- `sta` (R157). -/
def execSta (s : State) : Host.Outcome State Fault Refusal :=
  .next ((s.store s.addrA s.t).dDrop)

end Sys2Proof.Machine
end

