-- ==== Sys2Proof/Machine/StackMoves.lean ====
section
/-!
DEFINITION. Stack and register moves (44_stack.md R180 to R187).
-/

namespace Sys2Proof.Machine

/-- `pop` (R180). -/
def execPop (s : State) : Host.Outcome State Fault Refusal := .next (s.rDrop.dPush s.r.toNat)

/-- `popa` (R181). -/
def execPopa (s : State) : Host.Outcome State Fault Refusal := .next (s.dPush s.a.toNat)

/-- `dup` (R182). -/
def execDup (s : State) : Host.Outcome State Fault Refusal := .next (s.dPush s.t.toNat)

/-- `over` (R183): `S` is read before the push. -/
def execOver (s : State) : Host.Outcome State Fault Refusal := .next (s.dPush s.second.toNat)

/-- `push` (R184). -/
def execPush (s : State) : Host.Outcome State Fault Refusal := .next (s.dDrop.rPush s.t.toNat)

/-- `pusha` (R185). -/
def execPusha (s : State) : Host.Outcome State Fault Refusal := .next (s.dDrop.setA s.t.toNat)

/-- `nop` (R186). -/
def execNop (s : State) : Host.Outcome State Fault Refusal := .next s

/-- `drop` (R187). -/
def execDrop (s : State) : Host.Outcome State Fault Refusal := .next s.dDrop

end Sys2Proof.Machine
end

