-- ==== Sys2Proof/Machine/System.lean ====
section
/-!
DEFINITION. System instructions and the incorrect operating codes (45_system.md R190 to R192). `pc` is the
address after the line and after the `lit` arguments already consumed.
-/

namespace Sys2Proof.Machine

/-- `swi` (R190), which only the 16 bits core has; it does not look at `M`. -/
def execSwi (s : State) : Host.Outcome State Fault Refusal :=
  match s.cfg.core with
  | .core16 => .next (s.enter vectorSwi)
  | .core32 => .fault .absentInstruction

/-- `iret` (R191): it does not test `I`. -/
def execIret (s : State) : Host.Outcome State Fault Refusal := .next s.returnFromInterruption

/-- Code 10110 when `CORE = 16`: an incorrect operating code (R192, R108). -/
def execReserved10110 (s : State) : Host.Outcome State Fault Refusal :=
  match s.cfg.core with
  | .core16 => .next (s.enter vectorIncorrectCode)
  | .core32 => .fault .absentInstruction

/-- A branch code in slot 2 or 3: an incorrect operating code (R192, R108). -/
def execIncorrectBranchCode (_code : BitVec 2) (s : State) : Host.Outcome State Fault Refusal :=
  .next (s.enter vectorIncorrectCode)

end Sys2Proof.Machine
end

