-- ==== Sys2Proof/Machine/Dispatch.lean ====
section
/-!
DEFINITION. One instruction's effect on the state, one arm per constructor.
-/

namespace Sys2Proof.Machine

def exec (i : Instr) (s : State) : Host.Outcome State Fault Refusal :=
  match i with
  | .jmp d => Sys2Proof.Machine.execJmp d s
  | .jz d => Sys2Proof.Machine.execJz d s
  | .call d => Sys2Proof.Machine.execCall d s
  | .jnc d => Sys2Proof.Machine.execJnc d s
  | .fcw => Sys2Proof.Machine.execFcw s
  | .stcw => Sys2Proof.Machine.execStcw s
  | .ret => Sys2Proof.Machine.execRet s
  | .iret => Sys2Proof.Machine.execIret s
  | .ftchrp => Sys2Proof.Machine.execFtchrp s
  | .ftchap => Sys2Proof.Machine.execFtchap s
  | .lit => Sys2Proof.Machine.execLit s
  | .ftcha => Sys2Proof.Machine.execFtcha s
  | .strp => Sys2Proof.Machine.execStrp s
  | .stap => Sys2Proof.Machine.execStap s
  | .swi => Sys2Proof.Machine.execSwi s
  | .swab => Sys2Proof.Machine.execSwab s
  | .sta => Sys2Proof.Machine.execSta s
  | .com => Sys2Proof.Machine.execCom s
  | .rolc => Sys2Proof.Machine.execRolc s
  | .rorc => Sys2Proof.Machine.execRorc s
  | .addc => Sys2Proof.Machine.execAddc s
  | .mulu => Sys2Proof.Machine.execMulu s
  | .xorr => Sys2Proof.Machine.execXorr s
  | .andd => Sys2Proof.Machine.execAndd s
  | .reserved10110 => Sys2Proof.Machine.execReserved10110 s
  | .sxt => Sys2Proof.Machine.execSxt s
  | .addd => Sys2Proof.Machine.execAddd s
  | .pop => Sys2Proof.Machine.execPop s
  | .popa => Sys2Proof.Machine.execPopa s
  | .dup => Sys2Proof.Machine.execDup s
  | .overS => Sys2Proof.Machine.execOver s
  | .push => Sys2Proof.Machine.execPush s
  | .pusha => Sys2Proof.Machine.execPusha s
  | .nop => Sys2Proof.Machine.execNop s
  | .drop => Sys2Proof.Machine.execDrop s
  | .calla lo hi => Sys2Proof.Machine.execCalla lo hi s
  | .incorrectBranchCode code => Sys2Proof.Machine.execIncorrectBranchCode code s

end Sys2Proof.Machine
end

