-- ==== Sys2Proof/WellFormed.lean ====
section
/-!
DEFINITION. Well-formed instructions and lines: an instruction exists on the core that holds it (R106,
R108), and stands where a line of its format can hold it (R100 to R103).
-/

namespace Sys2Proof

/-- Does a machine with parameters `c` have the instruction? Codes 01110, 10011 and 10110 depend on
`CORE` and `MT` (R106); every other row of the table holds for both cores. -/
def Instr.existsOn (c : Config) : Instr → Bool
  | .swi => c.core == .core16
  | .swab => c.core == .core32
  | .reserved10110 => c.core == .core16
  | .sxt => c.core == .core32
  | .addc => !c.mt
  | .mulu => c.mt
  | .jmp _ | .jz _ | .call _ | .jnc _ | .fcw | .stcw | .ret | .iret | .ftchrp | .ftchap | .lit | .ftcha
  | .strp | .stap | .sta | .com | .rolc | .rorc | .xorr | .andd | .addd | .pop | .popa | .dup | .overS
  | .push | .pusha | .nop | .drop | .calla _ _ | .incorrectBranchCode _ => true

/-- May the instruction stand in slot 1 of a format S line? Not a branch or a `calla`, and not an
incorrect branch code: a code below 4 in bits 15..11 makes the line format B (R100). -/
def Instr.fitsSlot1 (c : Config) (i : Instr) : Bool :=
  i.existsOn c && !i.isWholeLine && !i.isIncorrectBranchCode

/-- May the instruction stand in slot 2 or 3 of a format S line (R101, R108)? -/
def Instr.fitsLaterSlot (c : Config) (i : Instr) : Bool :=
  i.existsOn c && !i.isWholeLine

/-- A line the encoding tables can write for a machine with parameters `c`. -/
def Line.wellFormed (c : Config) : Line → Bool
  | .whole i => i.existsOn c && i.isWholeLine
  | .slots i1 i2 i3 => i1.fitsSlot1 c && i2.fitsLaterSlot c && i3.fitsLaterSlot c

end Sys2Proof
end

