-- ==== Sys2Proof/Decode.lean ====
section
/-!
DEFINITION. The decoder, total on any bytes, and the encoder, both from the tables of 30_encoding.md (R100
to R106). A word has its high byte at the even address (R72).
-/

namespace Sys2Proof

/-- Why bytes hold no line. Every 16-bit word is a line (R108), so only missing bytes are refused. -/
inductive DecodeError where
  /-- Fewer than the two bytes of a line. -/
  | missingLine
  /-- The first word is a `calla`, and its second word is missing. -/
  | missingSecondWord
  deriving DecidableEq, Repr

/-- The word whose high byte is `hi`: the byte at the even address is bits 15..8 (R72). -/
def wordOfBytes (hi lo : Byte) : Word := hi ++ lo

/-- Bit 0 of the line: 1 makes it format C (R100). -/
def isCallaWord (w : Word) : Bool := w.getLsbD 0

/-- The three operation codes of a line: bits 15..11, 10..6 and 5..1 (R101). -/
def code1 (w : Word) : OpCode := w.extractLsb' 11 5
def code2 (w : Word) : OpCode := w.extractLsb' 6 5
def code3 (w : Word) : OpCode := w.extractLsb' 1 5

/-- The signed movement of a branch line: bits 10..1 (R102). -/
def movementField (w : Word) : Movement := w.extractLsb' 1 10

/-- One slot's instruction by its 5-bit code (R105, R106, R108). Codes 0 to 3 are branch codes, which
have no meaning in a slot. -/
def decodeSlot (c : Config) (code : OpCode) : Instr :=
  match code.toNat with
  | 4 => .fcw
  | 5 => .stcw
  | 6 => .ret
  | 7 => .iret
  | 8 => .ftchrp
  | 9 => .ftchap
  | 10 => .lit
  | 11 => .ftcha
  | 12 => .strp
  | 13 => .stap
  | 14 => match c.core with
    | .core16 => .swi
    | .core32 => .swab
  | 15 => .sta
  | 16 => .com
  | 17 => .rolc
  | 18 => .rorc
  | 19 => if c.mt then .mulu else .addc
  | 20 => .xorr
  | 21 => .andd
  | 22 => match c.core with
    | .core16 => .reserved10110
    | .core32 => .sxt
  | 23 => .addd
  | 24 => .pop
  | 25 => .popa
  | 26 => .dup
  | 27 => .overS
  | 28 => .push
  | 29 => .pusha
  | 30 => .nop
  | 31 => .drop
  | _ => .incorrectBranchCode (code.setWidth 2)

/-- A whole branch line by its code, 0 to 3 (R102, R105). -/
def decodeBranch (code : OpCode) (d : Movement) : Instr :=
  match code.toNat with
  | 0 => .jmp d
  | 1 => .jz d
  | 2 => .call d
  | _ => .jnc d

/-- The line whose first word is `w1`; `w2` is the word after it, which only a `calla` reads (R100). -/
def decodeLine (c : Config) (w1 w2 : Word) : Line :=
  if isCallaWord w1 then .whole (.calla (w1.extractLsb' 1 15) w2)
  else if (code1 w1).toNat < 4 then .whole (decodeBranch (code1 w1) (movementField w1))
  else .slots (decodeSlot c (code1 w1)) (decodeSlot c (code2 w1)) (decodeSlot c (code3 w1))

/-- Decode a line from bytes in address order; the rest of the bytes is returned. -/
def decode (c : Config) : List Byte → Except DecodeError (Line × List Byte)
  | b0 :: b1 :: rest =>
    let w1 := wordOfBytes b0 b1
    if isCallaWord w1 then
      match rest with
      | b2 :: b3 :: rest' => .ok (decodeLine c w1 (wordOfBytes b2 b3), rest')
      | _ => .error .missingSecondWord
    else .ok (decodeLine c w1 0, rest)
  | _ => .error .missingLine

/-- The 5-bit code of a slot's instruction (R105). A branch has its code here too; a `calla` has none
and takes no slot. -/
def slotCode : Instr → OpCode
  | .jmp _ => 0
  | .jz _ => 1
  | .call _ => 2
  | .jnc _ => 3
  | .fcw => 4
  | .stcw => 5
  | .ret => 6
  | .iret => 7
  | .ftchrp => 8
  | .ftchap => 9
  | .lit => 10
  | .ftcha => 11
  | .strp => 12
  | .stap => 13
  | .swi => 14
  | .swab => 14
  | .sta => 15
  | .com => 16
  | .rolc => 17
  | .rorc => 18
  | .addc => 19
  | .mulu => 19
  | .xorr => 20
  | .andd => 21
  | .reserved10110 => 22
  | .sxt => 22
  | .addd => 23
  | .pop => 24
  | .popa => 25
  | .dup => 26
  | .overS => 27
  | .push => 28
  | .pusha => 29
  | .nop => 30
  | .drop => 31
  | .calla _ _ => 0
  | .incorrectBranchCode code => code.setWidth 5

/-- A format S word: three codes and a 0 (R101). -/
def slotsWord (k1 k2 k3 : OpCode) : Word := ((k1 ++ k2 : BitVec 10) ++ k3 : BitVec 15) ++ 0#1

/-- A format B word: the code, the movement and a 0 (R102). -/
def branchWord (code : OpCode) (d : Movement) : Word := (code ++ d : BitVec 15) ++ 0#1

/-- The words of a line (R101, R102, R103). -/
def encodeLine : Line → List Word
  | .whole (.jmp d) => [branchWord 0 d]
  | .whole (.jz d) => [branchWord 1 d]
  | .whole (.call d) => [branchWord 2 d]
  | .whole (.jnc d) => [branchWord 3 d]
  | .whole (.calla lo hi) => [lo ++ 1#1, hi]
  | .whole i => [slotsWord (slotCode i) (slotCode .nop) (slotCode .nop)]
  | .slots i1 i2 i3 => [slotsWord (slotCode i1) (slotCode i2) (slotCode i3)]

/-- The line an instruction stands in when it stands alone: itself, or slot 1 with the `nop` filler of
R109; an incorrect branch code can only stand in a later slot (R108). -/
def Line.ofInstr (i : Instr) : Line :=
  if i.isWholeLine then .whole i
  else if i.isIncorrectBranchCode then .slots .nop i .nop
  else .slots i .nop .nop

/-- The words of an instruction standing alone in its line. -/
def encode (i : Instr) : List Word := encodeLine (Line.ofInstr i)

/-- The bytes of words in address order: each word's high byte first (R72). -/
def bytesOfWords : List Word → List Byte
  | [] => []
  | w :: ws => w.extractLsb' 8 8 :: w.extractLsb' 0 8 :: bytesOfWords ws

/-- The words of the host's numbering: word `k` is bits `16k + 15 .. 16k` of the `nbits` bits of `w`,
the bits above `nbits` being 0. Four words hold the longest line, three `lit`s and their arguments. -/
def tableWords (nbits w : Nat) : List Word :=
  let v := w % 2 ^ nbits
  [BitVec.ofNat 16 v, BitVec.ofNat 16 (v >>> 16), BitVec.ofNat 16 (v >>> 32), BitVec.ofNat 16 (v >>> 48)]

/-- The instruction the decoder reads, with the default parameters, from a row's bits laid out in
memory order. A format S word holds three instructions; this is the one that executes first. -/
def decodeTableWord (nbits w : Nat) : Option Instr :=
  match decode Config.standard (bytesOfWords (tableWords nbits w)) with
  | .ok (l, _) => some l.first
  | .error _ => none

end Sys2Proof
end

