-- ==== Sys2Proof/Machine/Sequence.lean ====
section
/-!
DEFINITION. How a line executes (30_encoding.md R107) and which interruption follows it (60_exceptions.md
R206): fetching a line, running its slots, and the end of the line. What runs one instruction is an
argument, so that Step.lean has only to name it.
-/

namespace Sys2Proof.Machine

/-- What an instruction does to a state. -/
abbrev Meaning := Instr → State → Host.Outcome State Fault Refusal

/-! ### Fetching a line -/

/-- The bytes from which the line at `pc` is decoded: its first word and the word after it, which is
read only if the first is a `calla` (R100, R82). -/
def State.lineBytes (s : State) : List Byte := bytesOfWords [s.wordAtPc, s.passWord.wordAtPc]

/-- The line at `pc`. -/
def State.line (s : State) : Line := decodeLine s.cfg s.wordAtPc s.passWord.wordAtPc

/-- The state after the fetch: `pc` is past the line, past both words of a `calla` (R107, R136). -/
def State.afterFetch (s : State) : State :=
  if isCallaWord s.wordAtPc then s.passWord.passWord else s.passWord

/-! ### Running a line -/

/-- Does the instruction end its line: `ret`, `iret`, `swi` and an incorrect operating code do (R107)? -/
def endsLine : Instr → Bool
  | .ret | .iret | .swi | .reserved10110 | .incorrectBranchCode _ => true
  | .jmp _ | .jz _ | .call _ | .jnc _ | .calla _ _ | .fcw | .stcw | .ftchrp | .ftchap | .lit | .ftcha
  | .strp | .stap | .swab | .sta | .com | .rolc | .rorc | .addc | .mulu | .xorr | .andd | .sxt | .addd
  | .pop | .popa | .dup | .overS | .push | .pusha | .nop | .drop => false

/-- Go on with a next state; a fault or a refusal stands. -/
def andThen (o : Host.Outcome State Fault Refusal) (f : State → Host.Outcome State Fault Refusal) :
    Host.Outcome State Fault Refusal :=
  match o with
  | .next s => f s
  | .fault r => .fault r
  | .refused r => .refused r

/-- Run slots in order, leaving the rest of the line when one ends it (R107). -/
def runSlots (run : Meaning) : List Instr → State → Host.Outcome State Fault Refusal
  | [], s => .next s
  | i :: is, s => andThen (run i s) (fun s' => if endsLine i then .next s' else runSlots run is s')

/-- The instructions of a line in the order they execute. -/
def lineInstrs : Line → List Instr
  | .whole i => [i]
  | .slots i1 i2 i3 => [i1, i2, i3]

/-! ### The end of a line -/

/-- At most one interruption is entered: the data stack's, the return stack's, the peripheral one
(R206, R202). -/
def State.endOfLine (s : State) : State :=
  if s.dsEvent then { s with dsEvent := false }.enter vectorDataStack
  else if s.rsEvent then { s with rsEvent := false }.enter vectorReturnStack
  else if s.irq && !s.ce.m then s.enter vectorPeripheral
  else s

/-! ### One step -/

/-- One step: what the environment did since the last line (D35), then one line, then at most one
interruption (R107). -/
def stepWith (run : Meaning) (s : State) : Host.Outcome State Fault Refusal :=
  let s1 := s.deliver
  andThen (runSlots run (lineInstrs s1.line) s1.afterFetch) (fun s2 => .next s2.endOfLine)

/-! ### Placing an instruction where the next step fetches it -/

/-- Put a word where a read of it in state `d` finds it: in the boot ROM where that shows, else in the word of
external memory that answers. Where none does, a region of one word is put in front of the map (log 30). -/
def State.placeWord (s d : State) (a : Addr) (w : Word) : State :=
  let put (n : Nat) (m : Mem) : Mem := (m.write (n * 2) (evenByte w)).write (n * 2 + 1) (oddByte w)
  let k := a.toNat / 2
  if d.romShows (evenAddress a) then { s with cfg := { s.cfg with bootRom := put k s.cfg.bootRom } }
  else match d.placeOf a.toNat with
    | .ram n => { s with mem := put n s.mem }
    | .rom n => { s with mem := put n s.mem }
    | .absent =>
      let r : Region := { mapping := none, inhibited := none, first := k, words := 1, kind := .rom, home := k }
      { s with mem := put k s.mem, cfg := { s.cfg with memoryMap := r :: s.cfg.memoryMap } }

/-- Put words where state `d` reads the word at its `pc`, the next one after that, and so on. -/
def State.placeWords (s d : State) : List Word → State
  | [] => s
  | w :: ws => (s.placeWord d d.pc w).placeWords d.passWord ws

/-- The words of the host's numbering stored where the next step fetches them: at `pc` and on, as `pc` and the
map are once the environment's events are delivered. -/
def State.placeInstruction (s : State) (nbits w : Nat) : State :=
  s.placeWords s.deliver (tableWords nbits w)

end Sys2Proof.Machine
end

