-- ==== Sys2Proof/Machine/Step.lean ====
section
/-!
DEFINITION. One step of the machine: one line of code and at most one interruption (30_encoding.md R107),
after the environment's events (log 25).
-/

namespace Sys2Proof.Machine

/-- One step (R107). -/
def step (s : State) : Host.Outcome State Fault Refusal := stepWith exec s

/-- The instruction whose bits are `w` stored where `step` fetches next (log 30). -/
def State.withFetchWord (s : State) (nbits w : Nat) : State := s.placeInstruction nbits w

end Sys2Proof.Machine
end

