-- ==== Sys2Proof/Safety.lean ====
section
/-!
DEFINITION. The terms statements are made in: a legal state, the stops the spec asks for, and what a push, a
pop and a replacement leave of the two stacks.
-/

namespace Sys2Proof.Machine

/-! ### Legal states -/

/-- The widths and the alignment the rules give the registers, and the canonical form of memory. Every
state a run reaches is legal. -/
structure State.Legal (s : State) : Prop where
  /-- "`pc` is always even" (R29). -/
  pc_even : s.pc.toNat % 2 = 0
  /-- `pc` is `AB` bits wide (R29). -/
  pc_lt : s.pc.toNat < 2 ^ s.cfg.addrBits
  /-- `A` is `W` bits wide (R27). -/
  a_lt : s.a.toNat < 2 ^ s.cfg.width
  /-- `SA` is `W` bits wide (R37). -/
  sa_lt : s.sa.toNat < 2 ^ s.cfg.width
  /-- Every cell of the data stack is `W` bits wide (R21). -/
  ds_lt : ∀ i : BitVec 8, (cellAt s.ds i).toNat < 2 ^ s.cfg.width
  /-- Every cell of the return stack is `W` bits wide (R21). -/
  rs_lt : ∀ i : BitVec 8, (cellAt s.rs i).toNat < 2 ^ s.cfg.width
  /-- The page registers are `PAGE_BITS` wide (R28, R37). -/
  pa_lt : s.pa.toNat < 2 ^ s.cfg.pageBits
  pr_lt : s.pr.toNat < 2 ^ s.cfg.pageBits
  spa_lt : s.spa.toNat < 2 ^ s.cfg.pageBits
  spr_lt : s.spr.toNat < 2 ^ s.cfg.pageBits
  /-- Memory is in its canonical form (log 7). -/
  mem_wf : s.mem.wf = true
  /-- Memory holds `AB`-bit byte addresses only (R70). -/
  mem_below : Mem.below (2 ^ s.cfg.addrBits) s.mem = true

/-! ### The stops the spec asks for -/

/-- The refusals the rules name, each with a number they name it for: free space (R46), and a write to a
stack pointer (R41, R141). -/
def Refusal.askedFor (c : Config) (r : Refusal) : Prop :=
  ∃ n : Word,
    (r = .freeSpaceRead n ∧ extReg c n = .freeSpace) ∨
    (r = .freeSpaceWrite n ∧ extReg c n = .freeSpace) ∨
    (r = .pointerWrite n ∧ (extReg c n = .pntt ∨ extReg c n = .pntr))

/-! ### What happened to the data stack (R22, R23)

`s` is the state before, `t` the state after. Each says what the pointer, every cell and the event flag
are. -/

/-- `n` was pushed. -/
structure DataPushed (s t : State) (n : Nat) : Prop where
  pointer : t.dsp = s.dsp - 1#8
  top : t.t.toNat = n % 2 ^ s.cfg.width
  others : ∀ i, i ≠ t.dsp → cellAt t.ds i = cellAt s.ds i
  event : t.dsEvent = (s.dsEvent || s.dsp == 1#8)

/-- The top cell was popped; no cell changed. -/
structure DataPopped (s t : State) : Prop where
  pointer : t.dsp = s.dsp + 1#8
  cells : ∀ i, cellAt t.ds i = cellAt s.ds i
  event : t.dsEvent = (s.dsEvent || s.dsp == 0#8)

/-- `T` was written in place with `n`. -/
structure DataTopWritten (s t : State) (n : Nat) : Prop where
  pointer : t.dsp = s.dsp
  top : t.t.toNat = n % 2 ^ s.cfg.width
  others : ∀ i, i ≠ t.dsp → cellAt t.ds i = cellAt s.ds i
  event : t.dsEvent = s.dsEvent

/-- `T` was popped and `n` put in the old `S`, which is now on top. -/
structure DataTwoReplaced (s t : State) (n : Nat) : Prop where
  pointer : t.dsp = s.dsp + 1#8
  top : t.t.toNat = n % 2 ^ s.cfg.width
  others : ∀ i, i ≠ t.dsp → cellAt t.ds i = cellAt s.ds i
  event : t.dsEvent = (s.dsEvent || s.dsp == 0#8)

/-! ### What happened to the return stack (R24, R25) -/

/-- `n` was pushed. -/
structure ReturnPushed (s t : State) (n : Nat) : Prop where
  pointer : t.rsp = s.rsp - 1#8
  top : t.r.toNat = n % 2 ^ s.cfg.width
  others : ∀ i, i ≠ t.rsp → cellAt t.rs i = cellAt s.rs i
  event : t.rsEvent = (s.rsEvent || s.rsp == 1#8)

/-- The top cell was popped; no cell changed. -/
structure ReturnPopped (s t : State) : Prop where
  pointer : t.rsp = s.rsp + 1#8
  cells : ∀ i, cellAt t.rs i = cellAt s.rs i
  event : t.rsEvent = (s.rsEvent || s.rsp == 0#8)

/-- The program counter `v` was pushed as `PushPC` does (R130): two cells, the high part below the low
one, or one cell holding it whole. -/
structure PcPushed (s t : State) (v : Addr) : Prop where
  two : twoPcCells s.cfg = true →
    t.rsp = s.rsp - 2#8 ∧ t.r.toNat = v.toNat % 2 ^ 16 ∧
    (cellAt t.rs (t.rsp + 1#8)).toNat = v.toNat / 2 ^ 16 ∧
    (∀ i, i ≠ t.rsp → i ≠ t.rsp + 1#8 → cellAt t.rs i = cellAt s.rs i) ∧
    t.rsEvent = (s.rsEvent || s.rsp == 1#8 || s.rsp == 2#8)
  one : twoPcCells s.cfg = false →
    t.rsp = s.rsp - 1#8 ∧ t.r.toNat = v.toNat ∧
    (∀ i, i ≠ t.rsp → cellAt t.rs i = cellAt s.rs i) ∧
    t.rsEvent = (s.rsEvent || s.rsp == 1#8)

/-- A program counter was popped as `PopPC` does (R130): no cell changed. -/
structure PcPopped (s t : State) : Prop where
  two : twoPcCells s.cfg = true →
    t.rsp = s.rsp + 2#8 ∧ t.rsEvent = (s.rsEvent || s.rsp == 0#8 || s.rsp == 255#8)
  one : twoPcCells s.cfg = false →
    t.rsp = s.rsp + 1#8 ∧ t.rsEvent = (s.rsEvent || s.rsp == 0#8)
  cells : ∀ i, cellAt t.rs i = cellAt s.rs i

/-! ### What happened to memory (R72, R73) -/

/-- Every byte of external memory reads as it did. -/
def MemoryKept (s t : State) : Prop := ∀ k : Nat, Mem.read t.mem k = Mem.read s.mem k

/-- The store of a memory instruction at address `a` (R150). Where the map has a writable word `n` at `a`
(`State.placeOf`, which on the flat map is the word of `a`): in byte mode its byte for `a` takes `v[7:0]`, in
word mode its two bytes take `v[15:8]` and `v[7:0]`, and every other byte reads as it did (the other byte of
the word by decision D14, log 10). Where it has none the store is lost (log 8). A boot ROM that shows at `a` does
not take the store (log 9). -/
structure Stored (s t : State) (a : Addr) (v : Cell) : Prop where
  byteMode : s.ce.b = true → ∀ n, s.placeOf a.toNat = .ram n →
    Mem.read t.mem (n * 2 + a.toNat % 2) = v.extractLsb' 0 8 ∧
    ∀ k : Nat, k ≠ n * 2 + a.toNat % 2 → Mem.read t.mem k = Mem.read s.mem k
  wordMode : s.ce.b = false → ∀ n, s.placeOf a.toNat = .ram n →
    Mem.read t.mem (n * 2) = v.extractLsb' 8 8 ∧
    Mem.read t.mem (n * 2 + 1) = v.extractLsb' 0 8 ∧
    ∀ k : Nat, k / 2 ≠ n → Mem.read t.mem k = Mem.read s.mem k
  lost : (∀ n, s.placeOf a.toNat ≠ .ram n) → MemoryKept s t

/-! ### What an interruption entry does (R201) -/

/-- The interruption of `vector` was entered: `pc` was pushed, `A`, `CE` and, when `CORE = 16`, the pages were
saved, `I` and `M` set, `B` cleared and `pc` put at the vector; nothing else changed (`I` by decision D9, the
saved registers of the 32 bits core by D31). -/
structure Entered (s t : State) (vector : Nat) : Prop where
  pushed : PcPushed s t s.pc
  pc : t.pc.toNat = vector
  sa : t.sa = s.a
  sce : t.sce = s.ceWord
  pages16 : s.cfg.core = .core16 → t.spa = s.pa ∧ t.spr = s.pr
  pages32 : s.cfg.core = .core32 → t.spa = s.spa ∧ t.spr = s.spr
  ce : t.ce = { s.ce with i := true, m := true, b := false }
  memory : MemoryKept s t
  frame : t = { s with pc := t.pc, rs := t.rs, rsp := t.rsp, rsEvent := t.rsEvent, ce := t.ce,
                       sa := t.sa, spa := t.spa, spr := t.spr, sce := t.sce }

end Sys2Proof.Machine
end

