-- ==== Sys2Proof/Certificates/Slice0/Obligations.lean ====
section
/-!
DEFINITION. The statements for the provers, from the numbered rules of spec/. `s` is the state before, `t` the
state after. A frame is written `t = { s with f := t.f, … }`: every field but the listed ones is as it was;
`MemoryKept` and `Stored` (Safety.lean) say the same of every byte of memory, and `DataPushed`,
`ReturnPopped` and the like of every stack cell. The parameters stand in `s.cfg`, so a statement about
every state is about both cores and every address width. The event a push records is decision D6 of the
spec (log 12), wherever `DataPushed`, `ReturnPushed` or `PcPushed` stands; the order and number of the cells
of a saved `pc` are decisions D7 and D8 (log 13), wherever `PcPushed` or `PcPopped` stands.
-/

open Sys2Proof Sys2Proof.Machine

/-! ### Encoding (30_encoding.md) -/

/-- Every line the tables can write decodes to itself, whatever bytes follow (R101, R102, R103, R105). -/
def Obligations.DecodeOfEncodeIsTheLine : Prop :=
  ∀ (c : Config) (l : Line) (rest : List Byte), l.wellFormed c = true →
    decode c (bytesOfWords (encodeLine l) ++ rest) = .ok (l, rest)

/-- Every word decodes to a well-formed line, and encoding that line gives the word back (R100, R108). -/
def Obligations.EncodeOfDecodeIsTheWord : Prop :=
  ∀ (c : Config) (w1 w2 : Word),
    (decodeLine c w1 w2).wellFormed c = true ∧
    encodeLine (decodeLine c w1 w2) = if w1.getLsbD 0 then [w1, w2] else [w1]

/-- The incorrect codes are code 10110 when `CORE = 16` and a branch code in slot 2 or 3, and no others
(R108, decision D11 of the spec). -/
def Obligations.IncorrectCodesAreTheListedOnes : Prop :=
  ∀ (c : Config) (w1 w2 : Word),
    let incorrect : Instr → Prop := fun i => i = .reserved10110 ∨ ∃ k, i = .incorrectBranchCode k
    (w1.getLsbD 0 = true → decodeLine c w1 w2 = .whole (.calla (w1.extractLsb' 1 15) w2)) ∧
    (w1.getLsbD 0 = false → (code1 w1).toNat < 4 →
      ∃ d, decodeLine c w1 w2 = .whole (.jmp d) ∨ decodeLine c w1 w2 = .whole (.jz d) ∨
        decodeLine c w1 w2 = .whole (.call d) ∨ decodeLine c w1 w2 = .whole (.jnc d)) ∧
    (w1.getLsbD 0 = false → 4 ≤ (code1 w1).toNat →
      ∃ i1 i2 i3, decodeLine c w1 w2 = .slots i1 i2 i3 ∧
        (incorrect i1 ↔ c.core = .core16 ∧ code1 w1 = 22#5) ∧
        (incorrect i2 ↔ (c.core = .core16 ∧ code2 w1 = 22#5) ∨ (code2 w1).toNat < 4) ∧
        (incorrect i3 ↔ (c.core = .core16 ∧ code3 w1 = 22#5) ∨ (code3 w1).toNat < 4))

/-- Words written out in the spec's listing and vectors decode to the instructions they stand for
(95_test_vectors.md 1.3, 2.1, 2.6). -/
def Obligations.SpecWordsDecode : Prop :=
  let c16 := Config.standard
  let c32 := { Config.standard with core := .core32, mt := true }
  decodeLine c16 0x01FE#16 0 = .whole (.jmp 0xFF#10) ∧
  decodeLine c16 0x0802#16 0 = .whole (.jz 1#10) ∧
  decodeLine c16 0x167A#16 0 = .whole (.call 0x33D#10) ∧
  decodeLine c16 0x1804#16 0 = .whole (.jnc 2#10) ∧
  decodeLine c16 0x0105#16 0xFFF0#16 = .whole (.calla 0x82#15 0xFFF0#16) ∧
  decodeLine c16 0xE770#16 0 = .slots .push .pusha .pop ∧
  decodeLine c16 0x5708#16 0 = .slots .lit .push .fcw ∧
  decodeLine c16 0x2E78#16 0 = .slots .stcw .popa .push ∧
  decodeLine c16 0x4B14#16 0 = .slots .ftchap .strp .lit ∧
  decodeLine c16 0x9CA6#16 0 = .slots .addc .rorc .addc ∧
  decodeLine c16 0x77BC#16 0 = .slots .swi .nop .nop ∧
  decodeLine c16 0xD5BC#16 0 = .slots .dup .reserved10110 .nop ∧
  decodeLine c16 0xD682#16 0 = .slots .dup .dup (.incorrectBranchCode 1#2) ∧
  decodeLine c32 0xBA9C#16 0 = .slots .addd .lit .swab ∧
  decodeLine c32 0xE4F0#16 0 = .slots .push .mulu .pop ∧
  decodeLine c32 0xB7BC#16 0 = .slots .sxt .nop .nop

/-! ### A step (R107) -/

/-- When the bytes at `pc` decode to a branch or a `calla`, a step is its `exec` on the state past the line, which
always answers a next state, then the end of the line (R107). The first batch of the environment's events is
taken out of `inbox` and applied in order before; with none left nothing happens (decision D35 of the spec; the
batches are the model's choice, log 25). -/
def Obligations.StepRunsTheWholeLine : Prop :=
  (∀ s : State, s.inbox = [] → s.deliver = s) ∧
  (∀ (s : State) (batch : List EnvEvent) (later : List (List EnvEvent)), s.inbox = batch :: later →
    s.deliver = batch.foldl State.applyEvent { s with inbox := later }) ∧
  ∀ (s : State) (i : Instr) (rest : List Byte),
    decode s.deliver.cfg s.deliver.lineBytes = .ok (.whole i, rest) →
    ∃ t, exec i s.deliver.afterFetch = .next t ∧ step s = .next t.endOfLine

/-- When the bytes at `pc` decode to three slots, a step is their `exec` in the order 1, 2, 3, leaving the
line after `ret`, `iret`, `swi` or an incorrect code, then the end of the line; a slot that refuses stops
the step (R107). The environment's events come before, as `StepRunsTheWholeLine` says of `State.deliver`
(decision D35 of the spec, log 25). -/
def Obligations.StepRunsTheSlots : Prop :=
  ∀ (s : State) (i1 i2 i3 : Instr) (rest : List Byte),
    decode s.deliver.cfg s.deliver.lineBytes = .ok (.slots i1 i2 i3, rest) →
    let ends : Instr → Prop := fun i =>
      i = .ret ∨ i = .iret ∨ i = .swi ∨ i = .reserved10110 ∨ ∃ k, i = .incorrectBranchCode k
    let stops : Instr → State → Prop := fun i u => ∀ r, exec i u = .refused r → step s = .refused r
    stops i1 s.deliver.afterFetch ∧
    ∀ t1, exec i1 s.deliver.afterFetch = .next t1 →
      (ends i1 → step s = .next t1.endOfLine) ∧
      (¬ ends i1 → stops i2 t1 ∧ ∀ t2, exec i2 t1 = .next t2 →
        (ends i2 → step s = .next t2.endOfLine) ∧
        (¬ ends i2 → stops i3 t2 ∧ ∀ t3, exec i3 t2 = .next t3 → step s = .next t3.endOfLine))

/-- The fetch moves `pc` past the line, past both words of a `calla`, `mod 2^AB`, and sets `rom_inhibit` exactly
when a word it reads stands at 0xFFFXXXXX; beside these only the model's count of open reads may change (R107,
R136, R254; log 38). -/
def Obligations.FetchMovesPastTheLine : Prop :=
  ∀ s : State, s.Legal →
    let high : Nat → Prop := fun a => a / 2 ^ 20 = 2 ^ (s.cfg.addrBits - 20) - 1
    let next := (s.pc.toNat + 2) % 2 ^ s.cfg.addrBits
    let t := s.afterFetch
    t = { s with pc := t.pc, romInhibit := t.romInhibit, openReads := t.openReads } ∧
    (s.wordAtPc.getLsbD 0 = false → t.pc.toNat = next ∧
      (t.romInhibit = true ↔ s.romInhibit = true ∨ high s.pc.toNat)) ∧
    (s.wordAtPc.getLsbD 0 = true → t.pc.toNat = (s.pc.toNat + 4) % 2 ^ s.cfg.addrBits ∧
      (t.romInhibit = true ↔ s.romInhibit = true ∨ high s.pc.toNat ∨ high next))

/-! ### Invariants and whole-machine rules -/

/-- Every step from a legal state ends in a legal state: `pc` even and `AB` bits wide, every cell and `W`-bit
register `W` bits wide, the pages `PAGE_BITS` wide, memory canonical (R21, R28, R29). -/
def Obligations.StepKeepsLegal : Prop :=
  ∀ s t : State, s.Legal → step s = .next t → t.Legal

/-- The state after reset is legal, for every machine (R48). -/
def Obligations.ResetIsLegal : Prop := ∀ c : Config, (State.resetOf c).Legal

/-- No step changes a parameter, so `MT` and `EMU` read in `CE` as they always did (R6, R34, R35). -/
def Obligations.StepKeepsTheParameters : Prop :=
  ∀ s t : State, step s = .next t →
    t.cfg = s.cfg ∧ t.ceWord.getLsbD 0 = s.ceWord.getLsbD 0 ∧ t.ceWord.getLsbD 1 = s.ceWord.getLsbD 1

/-- A step never faults, and refuses only what the rules ask a model to refuse: free space and a write to a
stack pointer (R46, R141; the hardware itself has no stop, R200). -/
def Obligations.StepStopsOnlyWhereTheRulesRefuse : Prop :=
  ∀ s : State, (∃ t, step s = .next t) ∨ ∃ r, step s = .refused r ∧ Refusal.askedFor s.cfg r

/-- `exec` faults exactly on an instruction the machine does not have (R106; the fault is the model's own,
log 29). -/
def Obligations.ExecFaultsExactlyOnAbsentInstructions : Prop :=
  ∀ (i : Instr) (s : State),
    (i.existsOn s.cfg = false ↔ exec i s = .fault .absentInstruction)

/-- The carry is written by `lit`, `rolc`, `rorc`, `addc`, `addd`, `iret` and a `stcw` to register 4, and by no
other instruction; `lit` clears it (R31). -/
def Obligations.CarryWriters : Prop :=
  ∀ (i : Instr) (s t : State), exec i s = .next t →
    (i = .lit → t.ce.c = false) ∧
    (i ≠ .lit → i ≠ .rolc → i ≠ .rorc → i ≠ .addc → i ≠ .addd → i ≠ .iret →
      ¬ (i = .stcw ∧ s.r.toNat % 65536 = 4) → t.ce.c = s.ce.c)

/-- `I`, `M`, `B` and `CE.S` are written by `iret`, a `stcw` to register 4 and interruption entry only; entry
sets `I` and `M`, clears `B` and leaves `CE.S` (R33; for `I` R32, decision D9). -/
def Obligations.ControlBitWriters : Prop :=
  ∀ (i : Instr) (s t : State), exec i s = .next t →
    ((i = .swi ∨ i = .reserved10110 ∨ ∃ k, i = .incorrectBranchCode k) →
      t.ce = { s.ce with i := true, m := true, b := false }) ∧
    (i ≠ .iret → ¬ (i = .stcw ∧ s.r.toNat % 65536 = 4) →
      (i ≠ .swi ∧ i ≠ .reserved10110 ∧ ∀ k, i ≠ .incorrectBranchCode k) →
      t.ce = { s.ce with c := t.ce.c })

/-- Only `strp`, `stap` and `sta` change external memory; only `pusha`, `ftchap`, `stap` and `iret` change `A`
(R27, R70). -/
def Obligations.MemoryAndAddressRegisterWriters : Prop :=
  ∀ (i : Instr) (s t : State), exec i s = .next t →
    (i ≠ .strp → i ≠ .stap → i ≠ .sta → MemoryKept s t) ∧
    (i ≠ .pusha → i ≠ .ftchap → i ≠ .stap → i ≠ .iret → t.a = s.a)

/-! ### Memory and addresses (20_memory.md) -/

/-- Where the memory map has a writable word, a word store puts bits 15..8 in its even byte and bits 7..0 in its odd
one, whatever bit 0 of the address is, and a byte store replaces one of its bytes and leaves the other; no other
byte changes, and where the boot ROM does not show the word stored is the one read back (R72, R73; the other byte
by decision D14 of the spec, log 10). Under a boot ROM that shows, the store goes to what the map has beneath it
(the model's choice, log 9). The flat map has a writable word at every address (decision D16); where the map has
none the store is lost (the model's choice, log 8). -/
def Obligations.StoresAndTheByteOrder : Prop :=
  ∀ (s : State) (a : Addr) (w : Word) (b : Byte),
    (let t := s.storeWord a w
     t = { s with mem := t.mem } ∧
     (∀ n, s.placeOf a.toNat = .ram n →
       Mem.read t.mem (n * 2) = w.extractLsb' 8 8 ∧ Mem.read t.mem (n * 2 + 1) = w.extractLsb' 0 8 ∧
       (∀ k : Nat, k / 2 ≠ n → Mem.read t.mem k = Mem.read s.mem k) ∧
       (s.romShows a.toNat = false → t.wordAt a = w)) ∧
     ((∀ n, s.placeOf a.toNat ≠ .ram n) → t = s)) ∧
    (let t := s.storeByte a b
     t = { s with mem := t.mem } ∧
     (∀ n, s.placeOf a.toNat = .ram n →
       Mem.read t.mem (n * 2 + a.toNat % 2) = b ∧
       (∀ k : Nat, k ≠ n * 2 + a.toNat % 2 → Mem.read t.mem k = Mem.read s.mem k) ∧
       (s.romShows a.toNat = false → t.wordAt a =
         if a.toNat % 2 = 0 then b ++ (s.wordAt a).extractLsb' 0 8
         else (s.wordAt a).extractLsb' 8 8 ++ b)) ∧
     ((∀ n, s.placeOf a.toNat ≠ .ram n) → t = s)) ∧
    (s.cfg.memoryMap = [] → ∀ k : Nat, s.placeOf k = .ram (k / 2))

/-- The addresses of the memory instructions, and their post-increment: page and register are one number when
`CORE = 16`, so a carry goes into the page; when `CORE = 32` the register is incremented over its 32 bits
and its low `AB` bits address memory (R77, R84; the wrap is decision D22 of the spec). -/
def Obligations.AddressesAndPostIncrement : Prop :=
  ∀ (s : State) (k : Nat), s.Legal →
    (s.cfg.core = .core16 →
      s.addrA.toNat = s.pa.toNat * 65536 + s.a.toNat ∧
      s.addrR.toNat = s.pr.toNat * 65536 + s.r.toNat ∧
      (s.incA k).pa.toNat * 65536 + (s.incA k).a.toNat =
        (s.pa.toNat * 65536 + s.a.toNat + k) % 2 ^ s.cfg.addrBits ∧
      (s.incA k).a.toNat < 65536 ∧
      (s.incR k).pr.toNat * 65536 + (s.incR k).r.toNat =
        (s.pr.toNat * 65536 + s.r.toNat + k) % 2 ^ s.cfg.addrBits ∧
      (s.incR k).r.toNat < 65536) ∧
    (s.cfg.core = .core32 →
      s.addrA.toNat = s.a.toNat % 2 ^ s.cfg.addrBits ∧
      s.addrR.toNat = s.r.toNat % 2 ^ s.cfg.addrBits ∧
      (s.incA k).a.toNat = (s.a.toNat + k) % 2 ^ 32 ∧
      (s.incR k).r.toNat = (s.r.toNat + k) % 2 ^ 32) ∧
    s.incA k = { s with a := (s.incA k).a, pa := (s.incA k).pa } ∧
    s.incR k = { s with rs := (s.incR k).rs, pr := (s.incR k).pr } ∧
    (∀ i, i ≠ s.rsp → cellAt (s.incR k).rs i = cellAt s.rs i)

/-- The pointers stay in 512 to 767 and 768 to 1023, and an event is recorded by the push that takes the low
byte from 0x01 to 0x00 and the pop that takes it from 0x00 to 0x01, and by no other (R22 to R25, R205; the
push half is decision D6 of the spec). -/
def Obligations.StackCrossings : Prop :=
  ∀ (s : State) (n : Nat),
    (512 ≤ s.pntt.toNat ∧ s.pntt.toNat ≤ 767 ∧ 768 ≤ s.pntr.toNat ∧ s.pntr.toNat ≤ 1023) ∧
    (s.dsEvent = false →
      ((s.dPush n).dsEvent = true ↔ s.pntt.toNat = 513) ∧
      (s.dDrop.dsEvent = true ↔ s.pntt.toNat = 512)) ∧
    (s.rsEvent = false →
      ((s.rPush n).rsEvent = true ↔ s.pntr.toNat = 769) ∧
      (s.rDrop.rsEvent = true ↔ s.pntr.toNat = 768)) ∧
    ((s.dPush n).pntt.toNat = if s.pntt.toNat = 512 then 767 else s.pntt.toNat - 1) ∧
    (s.dDrop.pntt.toNat = if s.pntt.toNat = 767 then 512 else s.pntt.toNat + 1) ∧
    ((s.rPush n).pntr.toNat = if s.pntr.toNat = 768 then 1023 else s.pntr.toNat - 1) ∧
    (s.rDrop.pntr.toNat = if s.pntr.toNat = 1023 then 768 else s.pntr.toNat + 1)

/-! ### Branches, calls and returns (40_branches.md)

`pc` is the address after the line. A movement `d` counts words. -/

/-- `jmp` branches; nothing else changes (R131, R102). -/
def Obligations.JmpBranches : Prop :=
  (∀ (c : Config) (d : Movement), decodeLine c (0#5 ++ d ++ 0#1) 0 = .whole (.jmp d)) ∧
  ∀ (s : State) (d : Movement), s.pc.toNat % 2 = 0 →
    ∃ t, exec (.jmp d) s = .next t ∧ t = { s with pc := t.pc } ∧ MemoryKept s t ∧
      (t.pc.toNat : Int) = ((s.pc.toNat : Int) + 2 * d.toInt) % 2 ^ s.cfg.addrBits

/-- `jz` branches exactly when `T`, all its bits, is 0; `T` is not popped and nothing else changes (R132). -/
def Obligations.JzBranchesOnZero : Prop :=
  (∀ (c : Config) (d : Movement), decodeLine c (1#5 ++ d ++ 0#1) 0 = .whole (.jz d)) ∧
  ∀ (s : State) (d : Movement), s.pc.toNat % 2 = 0 →
    ∃ t, exec (.jz d) s = .next t ∧ t = { s with pc := t.pc } ∧ MemoryKept s t ∧
      (s.t.toNat ≠ 0 → t.pc = s.pc) ∧
      (s.t.toNat = 0 →
        (t.pc.toNat : Int) = ((s.pc.toNat : Int) + 2 * d.toInt) % 2 ^ s.cfg.addrBits)

/-- `jnc` branches exactly when `C` is 0; nothing else changes (R134). -/
def Obligations.JncBranchesOnNoCarry : Prop :=
  (∀ (c : Config) (d : Movement), decodeLine c (3#5 ++ d ++ 0#1) 0 = .whole (.jnc d)) ∧
  ∀ (s : State) (d : Movement), s.pc.toNat % 2 = 0 →
    ∃ t, exec (.jnc d) s = .next t ∧ t = { s with pc := t.pc } ∧ MemoryKept s t ∧
      (s.ce.c = true → t.pc = s.pc) ∧
      (s.ce.c = false →
        (t.pc.toNat : Int) = ((s.pc.toNat : Int) + 2 * d.toInt) % 2 ^ s.cfg.addrBits)

/-- `call` pushes the address after the line and branches; only the return stack and `pc` change (R133; the
pushed cells by R130, decisions D7 and D8). -/
def Obligations.CallPushesAndBranches : Prop :=
  (∀ (c : Config) (d : Movement), decodeLine c (2#5 ++ d ++ 0#1) 0 = .whole (.call d)) ∧
  ∀ (s : State) (d : Movement), s.pc.toNat % 2 = 0 →
    ∃ t, exec (.call d) s = .next t ∧ PcPushed s t s.pc ∧
      t = { s with pc := t.pc, rs := t.rs, rsp := t.rsp, rsEvent := t.rsEvent } ∧ MemoryKept s t ∧
      (t.pc.toNat : Int) = ((s.pc.toNat : Int) + 2 * d.toInt) % 2 ^ s.cfg.addrBits

/-- `calla` pushes the address after its second word and jumps to the address its two words hold, `mod 2^AB`
(R136, R103; the pushed cells by R130, decisions D7 and D8 of the spec). -/
def Obligations.CallaPushesAndJumps : Prop :=
  ∀ (s : State) (lo : BitVec 15) (hi : Word),
    ∃ t, exec (.calla lo hi) s = .next t ∧ PcPushed s t s.pc ∧
      t = { s with pc := t.pc, rs := t.rs, rsp := t.rsp, rsEvent := t.rsEvent } ∧ MemoryKept s t ∧
      t.pc.toNat = (hi.toNat * 65536 + lo.toNat * 2) % 2 ^ s.cfg.addrBits

/-- `ret` pops the program counter: the low part on top and the high part below when it takes two cells; bit 0
and the bits above `AB` are dropped; no cell changes (R135, R130, decisions D7 and D8 of the spec). -/
def Obligations.RetPopsThePc : Prop :=
  (∀ c : Config, decodeSlot c 6#5 = .ret) ∧
  ∀ s : State,
    ∃ t, exec .ret s = .next t ∧ PcPopped s t ∧
      t = { s with pc := t.pc, rs := t.rs, rsp := t.rsp, rsEvent := t.rsEvent } ∧ MemoryKept s t ∧
      (twoPcCells s.cfg = true → t.pc.toNat =
        ((cellAt s.rs (s.rsp + 1#8)).toNat % 65536 * 65536 + s.r.toNat % 65536) %
          2 ^ s.cfg.addrBits / 2 * 2) ∧
      (twoPcCells s.cfg = false → t.pc.toNat = s.r.toNat % 2 ^ s.cfg.addrBits / 2 * 2)

/-- A `ret` right after a `call` or a `calla` comes back to the line after the call, with both pointers and
every register as before; of the return stack only the cells the call wrote may differ (R130, R133, R135,
R136, decisions D7 and D8 of the spec). -/
def Obligations.RetUndoesCall : Prop :=
  ∀ (s : State) (i : Instr), s.Legal → ((∃ d, i = .call d) ∨ ∃ lo hi, i = .calla lo hi) →
    ∃ t u, exec i s = .next t ∧ exec .ret t = .next u ∧
      u = { s with rs := u.rs, rsEvent := u.rsEvent } ∧ MemoryKept s u ∧
      (∀ j, j ≠ s.rsp - 1#8 → j ≠ s.rsp - 2#8 → cellAt u.rs j = cellAt s.rs j) ∧
      (twoPcCells s.cfg = false → ∀ j, j ≠ s.rsp - 1#8 → cellAt u.rs j = cellAt s.rs j)

/-! ### Extension registers (10_state.md R38 to R46, 41_extension_access.md) -/

/-- `fcw` with a number that has a register: the content is sampled first, the number popped, the content
pushed; only `TIMER` and `UART_DATA` are changed by being read (R140, R39; the order for `PNTR` is decision D20 of
the spec, the error bits decision D28). -/
def Obligations.FcwReadsPopsAndPushes : Prop :=
  (∀ c : Config, decodeSlot c 4#5 = .fcw) ∧
  ∀ (s : State) (n : Word) (v : Cell), n.toNat = s.r.toNat % 65536 →
    s.extValue (extReg s.cfg n) = some v →
    ∃ t, exec .fcw s = .next t ∧ DataPushed s t v.toNat ∧ ReturnPopped s t ∧
      t = { s with ds := t.ds, dsp := t.dsp, dsEvent := t.dsEvent, rs := t.rs, rsp := t.rsp,
                   rsEvent := t.rsEvent, timer := t.timer, uart := t.uart } ∧
      MemoryKept s t ∧
      (n.toNat ≠ 256 → t.timer = s.timer) ∧
      (n.toNat = 256 → t.timer = { s.timer with count := 0, irq := false }) ∧
      (n.toNat ≠ 259 → t.uart = s.uart) ∧
      (n.toNat = 259 → t.uart = { s.uart with status := t.uart.status } ∧
        t.uart.rxrdy = false ∧ t.uart.txrdy = s.uart.txrdy ∧ t.uart.parityerr = false ∧
        t.uart.framingerr = false ∧ t.uart.overrun = false)

/-- What each register number reads as: 16-bit registers sign-extended on the 32 bits core, the received byte
sign-extended, pages, count and baud value zero-extended, cells whole; `CE` as its five bits `C`, `I`, `M`, `B`,
`S`, nine zeros, `EMU` and `MT` (R30, R34, R35, R38, R39, R41 to R45; the zero extension is decision D21 of the
spec, the zeros of `CE` decision D10). -/
def Obligations.ExtensionRegisterValues : Prop :=
  ∀ s : State,
    let read : Word → Option Nat := fun n => (s.extValue (extReg s.cfg n)).map BitVec.toNat
    let sign16 : Nat → Nat := fun x =>
      if s.cfg.core = .core32 ∧ 0x8000 ≤ x then x + 0xFFFF0000 else x
    let control : Nat := s.ce.c.toNat * 2 ^ 15 + s.ce.i.toNat * 2 ^ 14 + s.ce.m.toNat * 2 ^ 13 +
      s.ce.b.toNat * 2 ^ 12 + s.ce.s.toNat * 2 ^ 11 + s.cfg.emu.toNat * 2 + s.cfg.mt.toNat
    (s.cfg.core = .core16 →
      read 0 = some s.pa.toNat ∧ read 1 = some s.pr.toNat ∧
      read 6 = some s.spa.toNat ∧ read 7 = some s.spr.toNat) ∧
    read 2 = some (512 + s.dsp.toNat) ∧
    read 3 = some (768 + s.rsp.toNat) ∧
    s.ceWord.toNat = control ∧ read 4 = some (sign16 control) ∧
    read 5 = some s.sa.toNat ∧
    read 8 = some (sign16 s.sce.toNat) ∧
    read 256 = some s.timer.count.toNat ∧
    read 257 = some s.uart.baud.toNat ∧
    read 258 = some (sign16 (s.uart.status.toNat * 2048)) ∧
    read 259 = some (if s.uart.rxByte.toNat < 128 then s.uart.rxByte.toNat
      else s.uart.rxByte.toNat + (2 ^ s.cfg.width - 256)) ∧
    (∀ i : BitVec 8, read (512#16 + i.setWidth 16) = some (cellAt s.ds i).toNat) ∧
    (∀ i : BitVec 8, read (768#16 + i.setWidth 16) = some (cellAt s.rs i).toNat)

/-- `stcw` with a number that can be written: the register takes `T`, then the number and `T` are popped (R141).
-/
def Obligations.StcwWritesAndPops : Prop :=
  (∀ c : Config, decodeSlot c 5#5 = .stcw) ∧
  ∀ (s : State) (n : Word) (w : State), n.toNat = s.r.toNat % 65536 →
    s.extWrite s.t (extReg s.cfg n) = some w →
    ∃ t, exec .stcw s = .next t ∧ MemoryKept s t ∧
      t = { w with dsp := s.dsp + 1#8, rsp := s.rsp + 1#8,
                   dsEvent := s.dsEvent || s.dsp == 0#8, rsEvent := s.rsEvent || s.rsp == 0#8 }

/-- What a write leaves in each register: it takes its own low bits; stack cells and `SA` take `W` bits; `CE`
takes bits 15..11; the mask of `UART_CTRL` takes bits 15..11 (R36, R37, R40, R212, R214, R215). Every other
field is as it was (low bits by decision D21 of the spec, `T[15:0]` on the 32 bits core D30, log 20; `CE` D10, the
timer D24). The byte written to register 259 is emitted even while txrdy is 0, which the source does not describe
(U8): the model's choice, log 26. -/
def Obligations.ExtensionRegisterWrites : Prop :=
  ∀ (s : State) (v : Cell),
    let write : Word → Option State := fun n => s.extWrite v (extReg s.cfg n)
    let page : Word := BitVec.ofNat 16 (v.toNat % 2 ^ s.cfg.pageBits)
    let cell : Cell := BitVec.ofNat 32 (v.toNat % 2 ^ s.cfg.width)
    (s.cfg.core = .core16 →
      write 0 = some { s with pa := page } ∧ write 1 = some { s with pr := page } ∧
      write 6 = some { s with spa := page } ∧ write 7 = some { s with spr := page }) ∧
    write 4 = some { s with ce :=
      { c := v.getLsbD 15, i := v.getLsbD 14, m := v.getLsbD 13, b := v.getLsbD 12, s := v.getLsbD 11 } } ∧
    write 5 = some { s with sa := cell } ∧
    write 8 = some { s with sce := v.extractLsb' 0 16 } ∧
    write 256 = some { s with timer :=
      { enable := v.toNat % 65536 ≠ 0, count := 0, irq := false } } ∧
    write 257 = some { s with uart := { s.uart with baud := v.extractLsb' 0 4 } } ∧
    write 258 = some { s with uart := { s.uart with mask := v.extractLsb' 11 5 } } ∧
    (∃ st, write 259 = some { s with uart :=
        { s.uart with status := st, sent := s.uart.sent ++ [v.extractLsb' 0 8] } } ∧
      st.getLsbD 3 = false ∧ ∀ j, j ≠ 3 → st.getLsbD j = s.uart.status.getLsbD j) ∧
    (∀ i : BitVec 8, ∃ st : Stack, write (512#16 + i.setWidth 16) = some { s with ds := st } ∧
      cellAt st i = cell ∧ ∀ j, j ≠ i → cellAt st j = cellAt s.ds j) ∧
    (∀ i : BitVec 8, ∃ st : Stack, write (768#16 + i.setWidth 16) = some { s with rs := st } ∧
      cellAt st i = cell ∧ ∀ j, j ≠ i → cellAt st j = cellAt s.rs j)

/-- A write through one number leaves what every other number reads as alone, but for the status that a write of
`UART_DATA` changes (R38, R40, R215). -/
def Obligations.WritesReachOneRegister : Prop :=
  ∀ (s w : State) (v : Cell) (n k : Word), n ≠ k →
    s.extWrite v (extReg s.cfg n) = some w → ¬ (n.toNat = 259 ∧ k.toNat = 258) →
    w.extValue (extReg w.cfg k) = s.extValue (extReg s.cfg k)

/-- Free space is what the map leaves: `fcw` and `stcw` with such a number are refused, and `stcw` to `PNTT` or
`PNTR` is refused; with every other number both run (R38, R46, R141; decisions D19 and D20 of the spec). -/
def Obligations.RefusedExtensionAccesses : Prop :=
  ∀ (s : State) (n : Word), n.toNat = s.r.toNat % 65536 →
    let free : Prop := (9 ≤ n.toNat ∧ n.toNat ≤ 255) ∨ (260 ≤ n.toNat ∧ n.toNat ≤ 511) ∨
      1024 ≤ n.toNat ∨
      (s.cfg.core = .core32 ∧ (n.toNat = 0 ∨ n.toNat = 1 ∨ n.toNat = 6 ∨ n.toNat = 7))
    (free → exec .fcw s = .refused (.freeSpaceRead n) ∧ exec .stcw s = .refused (.freeSpaceWrite n)) ∧
    (¬ free → ∃ t, exec .fcw s = .next t) ∧
    (n.toNat = 2 ∨ n.toNat = 3 → exec .stcw s = .refused (.pointerWrite n)) ∧
    (¬ free → n.toNat ≠ 2 → n.toNat ≠ 3 → ∃ t, exec .stcw s = .next t)

/-! ### Memory access (42_memory_access.md)

`byteAt` is what a read finds (BootRomUntilTheFirstHighRead); `openReads` is the model's count of the reads that
find no memory (log 38). -/

/-- `ftcha` pushes what the address `[PA, A]` or `[A]` holds: the word, or the byte sign-extended to 16 bits, the
bits above zero. `A`, the pages and the carry stay; a read at 0xFFFXXXXX sets `rom_inhibit` (R154, R150, R75,
R254). -/
def Obligations.FtchaPushesTheFetchedValue : Prop :=
  (∀ c : Config, decodeSlot c 11#5 = .ftcha) ∧
  ∀ s : State,
    let a := s.addrA.toNat
    let value := if s.ce.b then
        (if (s.byteAt a).toNat < 128 then (s.byteAt a).toNat else (s.byteAt a).toNat + 0xFF00)
      else (s.byteAt (a / 2 * 2)).toNat * 256 + (s.byteAt (a / 2 * 2 + 1)).toNat
    ∃ t, exec .ftcha s = .next t ∧ DataPushed s t value ∧ MemoryKept s t ∧
      t = { s with ds := t.ds, dsp := t.dsp, dsEvent := t.dsEvent, romInhibit := t.romInhibit,
                   openReads := t.openReads } ∧
      (t.romInhibit = true ↔ s.romInhibit = true ∨ a / 2 ^ 20 = 2 ^ (s.cfg.addrBits - 20) - 1)

/-- `ftchap` pushes the same value and adds 1 (byte mode) or 2 (word mode) to `[PA, A]` or `[A]`, formed before
the increment (R152, R150, R77). -/
def Obligations.FtchapPushesAndIncrementsA : Prop :=
  (∀ c : Config, decodeSlot c 9#5 = .ftchap) ∧
  ∀ s : State,
    let a := s.addrA.toNat
    let value := if s.ce.b then
        (if (s.byteAt a).toNat < 128 then (s.byteAt a).toNat else (s.byteAt a).toNat + 0xFF00)
      else (s.byteAt (a / 2 * 2)).toNat * 256 + (s.byteAt (a / 2 * 2 + 1)).toNat
    let moved := s.incA (if s.ce.b then 1 else 2)
    ∃ t, exec .ftchap s = .next t ∧ DataPushed s t value ∧ MemoryKept s t ∧
      t = { s with ds := t.ds, dsp := t.dsp, dsEvent := t.dsEvent, romInhibit := t.romInhibit,
                   openReads := t.openReads, a := moved.a, pa := moved.pa } ∧
      (t.romInhibit = true ↔ s.romInhibit = true ∨ a / 2 ^ 20 = 2 ^ (s.cfg.addrBits - 20) - 1)

/-- `ftchrp` does the same through `[PR, R]` or `[R]`; `R` is changed in place and `PNTR` does not move (R151,
R150, R77). -/
def Obligations.FtchrpPushesAndIncrementsR : Prop :=
  (∀ c : Config, decodeSlot c 8#5 = .ftchrp) ∧
  ∀ s : State,
    let a := s.addrR.toNat
    let value := if s.ce.b then
        (if (s.byteAt a).toNat < 128 then (s.byteAt a).toNat else (s.byteAt a).toNat + 0xFF00)
      else (s.byteAt (a / 2 * 2)).toNat * 256 + (s.byteAt (a / 2 * 2 + 1)).toNat
    let moved := s.incR (if s.ce.b then 1 else 2)
    ∃ t, exec .ftchrp s = .next t ∧ DataPushed s t value ∧ MemoryKept s t ∧
      t = { s with ds := t.ds, dsp := t.dsp, dsEvent := t.dsEvent, romInhibit := t.romInhibit,
                   openReads := t.openReads, rs := moved.rs, pr := moved.pr } ∧
      (∀ i, i ≠ s.rsp → cellAt t.rs i = cellAt s.rs i) ∧
      (t.romInhibit = true ↔ s.romInhibit = true ∨ a / 2 ^ 20 = 2 ^ (s.cfg.addrBits - 20) - 1)

/-- `lit` pushes the word at `pc`, whatever `B` is, moves `pc` past it and clears `C` (R153, R104). -/
def Obligations.LitPushesTheNextWord : Prop :=
  (∀ c : Config, decodeSlot c 10#5 = .lit) ∧
  ∀ s : State, s.Legal →
    ∃ t, exec .lit s = .next t ∧ MemoryKept s t ∧
      DataPushed s t ((s.byteAt s.pc.toNat).toNat * 256 + (s.byteAt (s.pc.toNat + 1)).toNat) ∧
      t.pc.toNat = (s.pc.toNat + 2) % 2 ^ s.cfg.addrBits ∧
      t = { s with ds := t.ds, dsp := t.dsp, dsEvent := t.dsEvent, pc := t.pc,
                   romInhibit := t.romInhibit, openReads := t.openReads,
                   ce := { s.ce with c := false } } ∧
      (t.romInhibit = true ↔ s.romInhibit = true ∨
        s.pc.toNat / 2 ^ 20 = 2 ^ (s.cfg.addrBits - 20) - 1)

/-- `sta` stores `T[15:0]` or `T[7:0]` at `[PA, A]` or `[A]` and pops `T`; no other byte of memory, no cell and no
register changes (R157, R150; `State.addrA` is R77; the other byte of the word by decision D14 of the spec,
log 10; a store where no memory can be written is lost, log 8; one under a boot ROM that shows goes to the memory
beneath, log 9). -/
def Obligations.StaStores : Prop :=
  (∀ c : Config, decodeSlot c 15#5 = .sta) ∧
  ∀ s : State,
    ∃ t, exec .sta s = .next t ∧ Stored s t s.addrA s.t ∧ DataPopped s t ∧
      t = { s with mem := t.mem, dsp := t.dsp, dsEvent := t.dsEvent }

/-- `stap` stores at the address before the increment, increments `[PA, A]` or `[A]` and pops `T` (R156, R150,
R77; the other byte of the word by decision D14 of the spec, log 10; a store where no memory can be written is
lost, log 8; one under a boot ROM that shows goes to the memory beneath, log 9). -/
def Obligations.StapStoresAndIncrementsA : Prop :=
  (∀ c : Config, decodeSlot c 13#5 = .stap) ∧
  ∀ s : State,
    let moved := s.incA (if s.ce.b then 1 else 2)
    ∃ t, exec .stap s = .next t ∧ Stored s t s.addrA s.t ∧ DataPopped s t ∧
      t = { s with mem := t.mem, dsp := t.dsp, dsEvent := t.dsEvent, a := moved.a, pa := moved.pa }

/-- `strp` stores at `[PR, R]` or `[R]` before the increment, increments it in place and pops `T` (R155, R150,
R77; the other byte of the word by decision D14 of the spec, log 10; a store where no memory can be written is
lost, log 8; one under a boot ROM that shows goes to the memory beneath, log 9). -/
def Obligations.StrpStoresAndIncrementsR : Prop :=
  (∀ c : Config, decodeSlot c 12#5 = .strp) ∧
  ∀ s : State,
    let moved := s.incR (if s.ce.b then 1 else 2)
    ∃ t, exec .strp s = .next t ∧ Stored s t s.addrR s.t ∧ DataPopped s t ∧
      t = { s with mem := t.mem, dsp := t.dsp, dsEvent := t.dsEvent, rs := moved.rs, pr := moved.pr } ∧
      (∀ i, i ≠ s.rsp → cellAt t.rs i = cellAt s.rs i)

/-! ### Arithmetic and logic (43_alu.md)

`2 ^ s.cfg.width` is `2^W`. -/

/-- `com` complements all `W` bits of `T`; so `com`, then adding 1, negates. Carry and pointers stay (R160). -/
def Obligations.ComComplements : Prop :=
  (∀ c : Config, decodeSlot c 16#5 = .com) ∧
  ∀ s : State, s.Legal →
    ∃ t, exec .com s = .next t ∧ DataTopWritten s t (2 ^ s.cfg.width - 1 - s.t.toNat) ∧
      t = { s with ds := t.ds } ∧ MemoryKept s t ∧
      ∀ u, exec .addd (t.dPush 1) = .next u →
        u.t.toNat = (2 ^ s.cfg.width - s.t.toNat) % 2 ^ s.cfg.width

/-- `rolc` rotates `C` and `T`, `W + 1` bits, to the left: the old `T[W-1]` goes to `C`, the old `C` to bit 0 (R161).
-/
def Obligations.RolcRotatesLeft : Prop :=
  (∀ c : Config, decodeSlot c 17#5 = .rolc) ∧
  ∀ s : State, s.Legal →
    ∃ t, exec .rolc s = .next t ∧ MemoryKept s t ∧
      t = { s with ds := t.ds, ce := { s.ce with c := t.ce.c } } ∧
      (∀ i, i ≠ s.dsp → cellAt t.ds i = cellAt s.ds i) ∧
      t.t.toNat < 2 ^ s.cfg.width ∧
      t.ce.c.toNat * 2 ^ s.cfg.width + t.t.toNat = 2 * s.t.toNat + s.ce.c.toNat

/-- `rorc` rotates `T` and `C` to the right: the old `T[0]` goes to `C`, the old `C` to bit `W - 1`; and a `rolc`
after it brings both back (R162, R161). -/
def Obligations.RorcRotatesRight : Prop :=
  (∀ c : Config, decodeSlot c 18#5 = .rorc) ∧
  ∀ s : State, s.Legal →
    ∃ t, exec .rorc s = .next t ∧ MemoryKept s t ∧
      t = { s with ds := t.ds, ce := { s.ce with c := t.ce.c } } ∧
      (∀ i, i ≠ s.dsp → cellAt t.ds i = cellAt s.ds i) ∧
      t.t.toNat < 2 ^ s.cfg.width ∧
      2 * t.t.toNat + t.ce.c.toNat = s.t.toNat + s.ce.c.toNat * 2 ^ s.cfg.width ∧
      exec .rolc t = .next s

/-- `addc` (`MT = 0`): when bit 0 of `T` is 1, `S` is added in place with the carry out in `C`; when it is 0, `T`
stays and `C` becomes 0 (R163). -/
def Obligations.AddcAddsWhenOdd : Prop :=
  (∀ c : Config, c.mt = false → decodeSlot c 19#5 = .addc) ∧
  ∀ s : State, s.Legal → s.cfg.mt = false →
    ∃ t, exec .addc s = .next t ∧ MemoryKept s t ∧
      t = { s with ds := t.ds, ce := { s.ce with c := t.ce.c } } ∧
      (∀ i, i ≠ s.dsp → cellAt t.ds i = cellAt s.ds i) ∧
      t.t.toNat < 2 ^ s.cfg.width ∧
      (s.t.toNat % 2 = 1 →
        t.ce.c.toNat * 2 ^ s.cfg.width + t.t.toNat = s.t.toNat + s.second.toNat) ∧
      (s.t.toNat % 2 = 0 → t.t = s.t ∧ t.ce.c = false)

/-- `mulu` (`MT = 1`): the exact unsigned product of `T` and `R`, low half in `T`, high half in `R`, both in place;
the carry stays (R164). -/
def Obligations.MuluMultipliesExactly : Prop :=
  (∀ c : Config, c.mt = true → decodeSlot c 19#5 = .mulu) ∧
  ∀ s : State, s.Legal → s.cfg.mt = true →
    ∃ t, exec .mulu s = .next t ∧ MemoryKept s t ∧
      t = { s with ds := t.ds, rs := t.rs } ∧
      (∀ i, i ≠ s.dsp → cellAt t.ds i = cellAt s.ds i) ∧
      (∀ i, i ≠ s.rsp → cellAt t.rs i = cellAt s.rs i) ∧
      t.t.toNat < 2 ^ s.cfg.width ∧ t.r.toNat < 2 ^ s.cfg.width ∧
      t.r.toNat * 2 ^ s.cfg.width + t.t.toNat = s.t.toNat * s.r.toNat

/-- `xorr` and `andd` pop `T` and put the bitwise result in the old `S`; the carry stays; `dup dup xorr` pushes a
zero (R165, R166). -/
def Obligations.XorrAndAnddCombineBits : Prop :=
  (∀ c : Config, decodeSlot c 20#5 = .xorr ∧ decodeSlot c 21#5 = .andd) ∧
  ∀ s : State, s.Legal →
    (∃ t, exec .xorr s = .next t ∧ DataTwoReplaced s t t.t.toNat ∧ MemoryKept s t ∧
      t = { s with ds := t.ds, dsp := t.dsp, dsEvent := t.dsEvent } ∧
      ∀ j, t.t.getLsbD j = (s.t.getLsbD j != s.second.getLsbD j)) ∧
    (∃ t, exec .andd s = .next t ∧ DataTwoReplaced s t t.t.toNat ∧ MemoryKept s t ∧
      t = { s with ds := t.ds, dsp := t.dsp, dsEvent := t.dsEvent } ∧
      ∀ j, t.t.getLsbD j = (s.t.getLsbD j && s.second.getLsbD j)) ∧
    (∃ t, runSlots exec [.dup, .dup, .xorr] s = .next t ∧
      t.dsp = s.dsp - 1#8 ∧ t.t.toNat = 0 ∧ t.second = s.t)

/-- `sxt` copies bit 15 of `T` into bits 31 to 16 and `swab` exchanges the halves of `T`, on the 32 bits core; the
carry and the pointers stay; the 16 bits core has `swi` and a reserved code in their place (R167, R169). -/
def Obligations.SxtAndSwabRewriteT : Prop :=
  (∀ c : Config, c.core = .core32 → decodeSlot c 22#5 = .sxt ∧ decodeSlot c 14#5 = .swab) ∧
  (∀ c : Config, c.core = .core16 → decodeSlot c 22#5 = .reserved10110 ∧ decodeSlot c 14#5 = .swi) ∧
  ∀ s : State, s.cfg.core = .core32 →
    (∃ t, exec .sxt s = .next t ∧ t = { s with ds := t.ds } ∧ MemoryKept s t ∧
      DataTopWritten s t (if s.t.toNat % 65536 < 32768 then s.t.toNat % 65536
        else s.t.toNat % 65536 + 0xFFFF0000)) ∧
    (∃ t, exec .swab s = .next t ∧ t = { s with ds := t.ds } ∧ MemoryKept s t ∧
      DataTopWritten s t (s.t.toNat % 65536 * 65536 + s.t.toNat / 65536))

/-- `addd` pops `T` and adds it to the old `S`: `C` and the new `T` are the exact sum; the incoming carry is not
added (R168). -/
def Obligations.AdddAddsExactly : Prop :=
  (∀ c : Config, decodeSlot c 23#5 = .addd) ∧
  ∀ s : State, s.Legal →
    ∃ t, exec .addd s = .next t ∧ DataTwoReplaced s t (s.t.toNat + s.second.toNat) ∧ MemoryKept s t ∧
      t = { s with ds := t.ds, dsp := t.dsp, dsEvent := t.dsEvent, ce := { s.ce with c := t.ce.c } } ∧
      t.ce.c.toNat * 2 ^ s.cfg.width + t.t.toNat = s.t.toNat + s.second.toNat

/-- Subtraction by `com / lit #1 / addd / addd`: with `S = a` and `T = b` it leaves `a - b`, and for `b` not 0 the
carry is 1 exactly when `a >= b` unsigned (R168, R160). -/
def Obligations.SubtractionIdiom : Prop :=
  ∀ s : State, s.Legal → s.wordAtPc = 1#16 →
    ∃ t, runSlots exec [.com, .lit, .addd, .addd] s = .next t ∧
      t.dsp = s.dsp + 1#8 ∧
      (t.t.toNat : Int) = ((s.second.toNat : Int) - s.t.toNat) % 2 ^ s.cfg.width ∧
      (s.t.toNat ≠ 0 → (t.ce.c = true ↔ s.t.toNat ≤ s.second.toNat))

/-- The pseudo-instruction `shr`, `dup rolc drop rorc`, shifts `T` right by one with its sign bit kept, and leaves
the pointer where it was (R112). -/
def Obligations.ShiftRightIdiom : Prop :=
  ∀ s : State, s.Legal →
    ∃ t, runSlots exec [.dup, .rolc, .drop, .rorc] s = .next t ∧
      t.dsp = s.dsp ∧
      t.t.toNat = s.t.toNat / 2 +
        (if 2 ^ (s.cfg.width - 1) ≤ s.t.toNat then 2 ^ (s.cfg.width - 1) else 0) ∧
      (t.ce.c = true ↔ s.t.toNat % 2 = 1)

/-! ### Stack and register moves (44_stack.md) -/

/-- `dup` pushes `T`, `over` pushes `S` as it was before the push, `popa` pushes `A`; nothing else changes
(R181, R182, R183). -/
def Obligations.DupOverPopaPush : Prop :=
  (∀ c : Config, decodeSlot c 26#5 = .dup ∧ decodeSlot c 27#5 = .overS ∧ decodeSlot c 25#5 = .popa) ∧
  ∀ s : State,
    (∃ t, exec .dup s = .next t ∧ DataPushed s t s.t.toNat ∧ MemoryKept s t ∧
      t = { s with ds := t.ds, dsp := t.dsp, dsEvent := t.dsEvent }) ∧
    (∃ t, exec .overS s = .next t ∧ DataPushed s t s.second.toNat ∧ MemoryKept s t ∧
      t = { s with ds := t.ds, dsp := t.dsp, dsEvent := t.dsEvent }) ∧
    (∃ t, exec .popa s = .next t ∧ DataPushed s t s.a.toNat ∧ MemoryKept s t ∧
      t = { s with ds := t.ds, dsp := t.dsp, dsEvent := t.dsEvent })

/-- `pop` moves the top return-stack cell to the data stack, `push` the other way, and `pusha` pops `T` into `A`;
no other cell and no other register changes (R180, R184, R185). -/
def Obligations.PopPushAndPushaMoveACell : Prop :=
  (∀ c : Config, decodeSlot c 24#5 = .pop ∧ decodeSlot c 28#5 = .push ∧ decodeSlot c 29#5 = .pusha) ∧
  ∀ s : State,
    (∃ t, exec .pop s = .next t ∧ ReturnPopped s t ∧ DataPushed s t s.r.toNat ∧ MemoryKept s t ∧
      t = { s with ds := t.ds, dsp := t.dsp, dsEvent := t.dsEvent, rs := t.rs, rsp := t.rsp,
                   rsEvent := t.rsEvent }) ∧
    (∃ t, exec .push s = .next t ∧ DataPopped s t ∧ ReturnPushed s t s.t.toNat ∧ MemoryKept s t ∧
      t = { s with ds := t.ds, dsp := t.dsp, dsEvent := t.dsEvent, rs := t.rs, rsp := t.rsp,
                   rsEvent := t.rsEvent }) ∧
    (∃ t, exec .pusha s = .next t ∧ DataPopped s t ∧ MemoryKept s t ∧
      t.a.toNat = s.t.toNat % 2 ^ s.cfg.width ∧
      t = { s with a := t.a, dsp := t.dsp, dsEvent := t.dsEvent })

/-- `drop` pops `T`, no cell changes, and on the empty stack the pointer goes from 512 to 513 and the line ends at
vector 0x40; `nop` changes nothing (R186, R187). -/
def Obligations.DropAndNop : Prop :=
  (∀ c : Config, decodeSlot c 31#5 = .drop ∧ decodeSlot c 30#5 = .nop) ∧
  ∀ s : State,
    (∃ t, exec .drop s = .next t ∧ DataPopped s t ∧ MemoryKept s t ∧
      t = { s with dsp := t.dsp, dsEvent := t.dsEvent } ∧
      (s.pntt.toNat = 512 → t.pntt.toNat = 513 ∧ t.endOfLine.pc.toNat = 0x40)) ∧
    exec .nop s = .next s

/-! ### System instructions and interruptions (45_system.md, 60_exceptions.md) -/

/-- Taking an interruption: `pc` is pushed, `A`, `CE` and, when `CORE = 16`, the pages are saved, `I` and `M` are
set, `B` is cleared and `pc` goes to the vector; nothing else changes. `swi` does so with vector 0x20, an
incorrect code with vector 0x30 (R201, R190, R192; decisions D9, D13 and D31 of the spec). -/
def Obligations.SwiAndIncorrectCodesEnter : Prop :=
  ∀ s : State,
    (s.cfg.core = .core16 → ∃ t, exec .swi s = .next t ∧ Entered s t 0x20) ∧
    (s.cfg.core = .core16 → ∃ t, exec .reserved10110 s = .next t ∧ Entered s t 0x30) ∧
    (∀ k, ∃ t, exec (.incorrectBranchCode k) s = .next t ∧ Entered s t 0x30)

/-- `iret` pops the program counter and brings back `A`, bits 15..11 of `CE` and, when `CORE = 16`, the pages; the
save registers keep their values (R191). -/
def Obligations.IretRestores : Prop :=
  (∀ c : Config, decodeSlot c 7#5 = .iret) ∧
  ∀ s : State,
    ∃ t, exec .iret s = .next t ∧ PcPopped s t ∧ MemoryKept s t ∧
      t.a = s.sa ∧
      (s.cfg.core = .core16 → t.pa = s.spa ∧ t.pr = s.spr) ∧
      (s.cfg.core = .core32 → t.pa = s.pa ∧ t.pr = s.pr) ∧
      t.ce.c = s.sce.getLsbD 15 ∧ t.ce.i = s.sce.getLsbD 14 ∧ t.ce.m = s.sce.getLsbD 13 ∧
      t.ce.b = s.sce.getLsbD 12 ∧ t.ce.s = s.sce.getLsbD 11 ∧
      (∃ u, exec .ret s = .next u ∧ t.pc = u.pc) ∧
      t = { s with pc := t.pc, a := t.a, pa := t.pa, pr := t.pr, ce := t.ce,
                   rs := t.rs, rsp := t.rsp, rsEvent := t.rsEvent }

/-- An `iret` right after any interruption entry restores the interrupted program: `pc`, `A`, the pages, `CE`, both
pointers, the data stack and memory are as before the entry; of the return stack only the cells the entry wrote
may differ (R201, R191, R209; decisions D9 and D31 of the spec). -/
def Obligations.IretUndoesEntry : Prop :=
  ∀ (s : State) (vector : Nat), s.Legal →
    ∃ u, exec .iret (s.enter vector) = .next u ∧
      u = { s with rs := u.rs, rsEvent := u.rsEvent, sa := u.sa, spa := u.spa, spr := u.spr,
                   sce := u.sce } ∧
      MemoryKept s u ∧
      (∀ j, j ≠ s.rsp - 1#8 → j ≠ s.rsp - 2#8 → cellAt u.rs j = cellAt s.rs j) ∧
      (twoPcCells s.cfg = false → ∀ j, j ≠ s.rsp - 1#8 → cellAt u.rs j = cellAt s.rs j)

/-- At the end of a line at most one interruption is entered: the data stack's, else the return stack's, else the
peripheral one if requested and not masked; a served event is cleared first, and each entry saves and sets what
`Entered` says, the `pc` saved being the one the line left (R206, R202, R201; the order is decision D12 of the
spec, the entry for these vectors decision D13). -/
def Obligations.EndOfLinePriority : Prop :=
  ∀ s : State,
    (s.dsEvent = true → Entered { s with dsEvent := false } s.endOfLine 0x40 ∧
      s.endOfLine.dsEvent = false ∧ (s.rsEvent = true → s.endOfLine.rsEvent = true)) ∧
    (s.dsEvent = false → s.rsEvent = true → Entered { s with rsEvent := false } s.endOfLine 0x50) ∧
    (s.dsEvent = false → s.rsEvent = false → s.irq = true → s.ce.m = false → Entered s s.endOfLine 0x10) ∧
    (s.dsEvent = false → s.rsEvent = false → (s.irq = false ∨ s.ce.m = true) → s.endOfLine = s)

/-! ### Timer, UART, the interruption input and RESET -/

/-- The timer: a tick counts and requests only while it is enabled, the count going from 15 to 0; reading register
256 gives the count and clears count and request (R212; the wrap is decision D24 of the spec). -/
def Obligations.TimerCountsTicks : Prop :=
  ∀ s : State,
    (let t := s.applyEvent .timerTick
     t = { s with timer := t.timer } ∧
     (s.timer.enable = false → t = s) ∧
     (s.timer.enable = true → t.timer.enable = true ∧ t.timer.irq = true ∧ t.irq = true ∧
       t.timer.count.toNat = (s.timer.count.toNat + 1) % 16)) ∧
    (s.r.toNat % 65536 = 256 → ∃ t, exec .fcw s = .next t ∧
      t.t.toNat = s.timer.count.toNat ∧
      t.timer.count.toNat = 0 ∧ t.timer.irq = false ∧ t.timer.enable = s.timer.enable)

/-- The UART: a received byte sets rxrdy, and overrun if one was waiting; the transmitter's event sets txrdy;
reading register 259 gives the byte and clears rxrdy and the error bits; writing it emits the byte and clears
txrdy (R215; the error bits are decision D28 of the spec). That a byte received without an error leaves an error
bit that is 1 as it is, is the model's inference, log 24. That a byte written while txrdy is 0 is emitted is not
described by the source (U8): the model's choice, log 26. -/
def Obligations.UartReceivesAndSends : Prop :=
  ∀ (s : State) (b : Byte) (pe fe : Bool),
    (let u := (s.applyEvent (.uartReceive b pe fe)).uart
     s.applyEvent (.uartReceive b pe fe) = { s with uart := u } ∧
     u.rxByte = b ∧ u.rxrdy = true ∧ u.txrdy = s.uart.txrdy ∧
     u.overrun = (s.uart.overrun || s.uart.rxrdy) ∧
     u.parityerr = (s.uart.parityerr || pe) ∧ u.framingerr = (s.uart.framingerr || fe) ∧
     u.baud = s.uart.baud ∧ u.mask = s.uart.mask ∧ u.sent = s.uart.sent) ∧
    (let u := (s.applyEvent .uartTxDone).uart
     s.applyEvent .uartTxDone = { s with uart := u } ∧
     u = { s.uart with status := u.status } ∧ u.txrdy = true ∧ u.rxrdy = s.uart.rxrdy ∧
     u.parityerr = s.uart.parityerr ∧ u.framingerr = s.uart.framingerr ∧ u.overrun = s.uart.overrun) ∧
    (s.r.toNat % 65536 = 259 →
      (∃ t, exec .fcw s = .next t ∧ t.uart.rxrdy = false ∧ t.uart.parityerr = false ∧
        t.uart.framingerr = false ∧ t.uart.overrun = false ∧ t.uart.txrdy = s.uart.txrdy ∧
        t.t.toNat = if s.uart.rxByte.toNat < 128 then s.uart.rxByte.toNat
          else s.uart.rxByte.toNat + (2 ^ s.cfg.width - 256)) ∧
      (∃ t, exec .stcw s = .next t ∧ t.uart.txrdy = false ∧
        t.uart.sent = s.uart.sent ++ [s.t.extractLsb' 0 8]))

/-- The interruption input: the timer's request, or a status bit at 1 whose mask bit does not block it, or the
external request, whose level the environment's event sets (R216; the mask's sense is the parameter of decision D25
of the spec, the level decision D26). -/
def Obligations.IrqIsTheOrOfItsSources : Prop :=
  ∀ s : State,
    (s.irq = true ↔
      s.timer.irq = true ∨
      (∃ i, i < 5 ∧ s.uart.status.getLsbD i = true ∧
        s.uart.mask.getLsbD i = (s.cfg.uartMaskPolarity == .enables)) ∨
      s.extIrq = true) ∧
    ∀ level, s.applyEvent (.extIrq level) = { s with extIrq := level }

/-- The boot ROM shows at 0x000 to 0x1FF while `XMODEM` and `rom_inhibit` are 0, and elsewhere what the memory map
has; a read at 0xFFFXXXXX sets `rom_inhibit`, no instruction clears it, and RESET does (R79, R254; the reset of
the latch is decision D34 of the spec). The map is the function `region` of R78 (the flat one, `CE.S` without
effect, is decision D16, log 8), the boot ROM's content and what lies beneath are log 9, and a byte that no
memory gives is a free value, a new one for each such read (log 38). -/
def Obligations.BootRomUntilTheFirstHighRead : Prop :=
  ∀ s : State,
    (∀ k : Nat,
      let rom : Prop := s.cfg.xmodem = false ∧ s.romInhibit = false ∧ k < 512
      (rom → s.byteAt k = Mem.read s.cfg.bootRom k) ∧
      (¬ rom → ∀ n, region s.cfg s.ce.s s.romInhibit (k / 2) = .ram n ∨
          region s.cfg s.ce.s s.romInhibit (k / 2) = .rom n →
        s.byteAt k = Mem.read s.mem (n * 2 + k % 2)) ∧
      (s.cfg.memoryMap = [] → ¬ rom → s.byteAt k = Mem.read s.mem k)) ∧
    (∀ a : Addr, ((s.noteRead a).romInhibit = true ↔
        s.romInhibit = true ∨ a.toNat / 2 ^ 20 = 2 ^ (s.cfg.addrBits - 20) - 1) ∧
      (region s.cfg s.ce.s s.romInhibit (a.toNat / 2) = .absent → s.romShows a.toNat = false →
        (s.noteRead a).openReads = s.openReads + 1)) ∧
    (∀ i t, exec i s = .next t → s.romInhibit = true → t.romInhibit = true) ∧
    (s.applyEvent .reset).romInhibit = false

/-- RESET: the listed registers take their values whatever the machine was doing, and the cells, the save
registers, the UART status and byte, and memory keep theirs; the state after reset has the same values (R250,
R48; `I`, the events and `rom_inhibit` are decisions D9, D12 and D34 of the spec). -/
def Obligations.ResetValues : Prop :=
  let afterReset : State → Prop := fun t =>
    t.pc.toNat = 0 ∧ t.pntt.toNat = 512 ∧ t.pntr.toNat = 768 ∧ t.a.toNat = 0 ∧
    (t.cfg.core = .core16 → t.pa.toNat = 0 ∧ t.pr.toNat = 0) ∧
    t.ce = { c := false, i := false, m := true, b := false, s := false } ∧
    t.dsEvent = false ∧ t.rsEvent = false ∧ t.romInhibit = false ∧
    t.timer = { enable := false, count := 0, irq := false } ∧
    t.uart.baud.toNat = 12 ∧
    (t.cfg.uartMaskPolarity = .blocks → t.uart.mask.toNat = 31)
  (∀ c : Config, afterReset (State.resetOf c) ∧ (State.resetOf c).cfg = c) ∧
  ∀ s : State, let t := s.applyEvent .reset
    afterReset t ∧ t.irq = s.extIrq ∧
    t.cfg = s.cfg ∧ t.ds = s.ds ∧ t.rs = s.rs ∧ t.sa = s.sa ∧ t.spa = s.spa ∧ t.spr = s.spr ∧
    t.sce = s.sce ∧ t.uart.status = s.uart.status ∧ t.uart.rxByte = s.uart.rxByte ∧
    t.uart.sent = s.uart.sent ∧ t.extIrq = s.extIrq ∧ t.inbox = s.inbox ∧
    t.openReads = s.openReads ∧ t.mem = s.mem ∧ MemoryKept s t
end

