-- ==== Sys2Proof/Laws/Bits.lean ====
section
/-!
SUPPORT. What the truncations and extensions of Machine/Bits.lean give, as numbers.
-/

namespace Sys2Proof

/-! ### Widths -/

theorem Config.width_cases (c : Config) :
    (c.core = .core16 ∧ c.width = 16) ∨ (c.core = .core32 ∧ c.width = 32) := by
  unfold Config.width
  cases c.core <;> simp

theorem Config.addrBits_ge (c : Config) : 21 ≤ c.addrBits := by unfold Config.addrBits; omega

theorem Config.addrBits_le (c : Config) : c.addrBits ≤ 32 := by unfold Config.addrBits; omega

theorem Config.pageBits_add (c : Config) : c.pageBits + 16 = c.addrBits := by
  have := c.addrBits_ge
  unfold Config.pageBits; omega

theorem Config.pow_width_le (c : Config) : 2 ^ c.width ≤ 2 ^ 32 :=
  Nat.pow_le_pow_right (by decide) (by rcases c.width_cases with h | h <;> omega)

theorem Config.pow_addrBits_le (c : Config) : 2 ^ c.addrBits ≤ 2 ^ 32 :=
  Nat.pow_le_pow_right (by decide) c.addrBits_le

theorem Config.pow_pageBits_le (c : Config) : 2 ^ c.pageBits ≤ 2 ^ 16 :=
  Nat.pow_le_pow_right (by decide) (by have := c.pageBits_add; have := c.addrBits_le; omega)

/-- An address space is a number of 64 KB pages. -/
theorem Config.pow_addrBits_eq (c : Config) : 2 ^ c.addrBits = 2 ^ c.pageBits * 65536 := by
  rw [← c.pageBits_add, Nat.pow_add]

/-- External memory has two bytes a word (R71). -/
theorem Config.words_mul_two (c : Config) : 2 ^ (c.addrBits - 1) * 2 = 2 ^ c.addrBits := by
  rw [← pow_succ]; unfold Config.addrBits; congr 1; omega

theorem Config.two_dvd_pow_addrBits (c : Config) : 2 ∣ 2 ^ c.addrBits :=
  dvd_pow_self 2 (by have := c.addrBits_ge; omega)

namespace Machine

/-! ### Truncations -/

@[simp] theorem cellOf_toNat (c : Config) (n : Nat) : (cellOf c n).toNat = n % 2 ^ c.width := by
  have h : n % 2 ^ c.width < 2 ^ 32 :=
    Nat.lt_of_lt_of_le (Nat.mod_lt _ (by positivity)) c.pow_width_le
  rw [cellOf, BitVec.toNat_ofNat, Nat.mod_eq_of_lt h]

@[simp] theorem addrOf_toNat (c : Config) (n : Nat) : (addrOf c n).toNat = n % 2 ^ c.addrBits := by
  have h : n % 2 ^ c.addrBits < 2 ^ 32 :=
    Nat.lt_of_lt_of_le (Nat.mod_lt _ (by positivity)) c.pow_addrBits_le
  rw [addrOf, BitVec.toNat_ofNat, Nat.mod_eq_of_lt h]

@[simp] theorem evenAddrOf_toNat (c : Config) (n : Nat) :
    (evenAddrOf c n).toNat = n % 2 ^ c.addrBits / 2 * 2 := by
  have h : n % 2 ^ c.addrBits < 2 ^ 32 :=
    Nat.lt_of_lt_of_le (Nat.mod_lt _ (by positivity)) c.pow_addrBits_le
  have h' : n % 2 ^ c.addrBits / 2 * 2 < 2 ^ 32 := by omega
  rw [evenAddrOf, BitVec.toNat_ofNat, Nat.mod_eq_of_lt h']

@[simp] theorem pageOf_toNat (c : Config) (n : Nat) : (pageOf c n).toNat = n % 2 ^ c.pageBits := by
  have h : n % 2 ^ c.pageBits < 2 ^ 16 :=
    Nat.lt_of_lt_of_le (Nat.mod_lt _ (by positivity)) c.pow_pageBits_le
  rw [pageOf, BitVec.toNat_ofNat, Nat.mod_eq_of_lt h]

theorem cellOf_lt (c : Config) (n : Nat) : (cellOf c n).toNat < 2 ^ c.width := by
  rw [cellOf_toNat]; exact Nat.mod_lt _ (by positivity)

theorem addrOf_lt (c : Config) (n : Nat) : (addrOf c n).toNat < 2 ^ c.addrBits := by
  rw [addrOf_toNat]; exact Nat.mod_lt _ (by positivity)

theorem pageOf_lt (c : Config) (n : Nat) : (pageOf c n).toNat < 2 ^ c.pageBits := by
  rw [pageOf_toNat]; exact Nat.mod_lt _ (by positivity)

theorem evenAddrOf_lt (c : Config) (n : Nat) : (evenAddrOf c n).toNat < 2 ^ c.addrBits := by
  have h : n % 2 ^ c.addrBits < 2 ^ c.addrBits := Nat.mod_lt _ (by positivity)
  rw [evenAddrOf_toNat]; omega

theorem evenAddrOf_even (c : Config) (n : Nat) : (evenAddrOf c n).toNat % 2 = 0 := by
  rw [evenAddrOf_toNat]; omega

/-- Truncating a value that has its bits 15..0 only, or `W` bits only, changes nothing. -/
theorem cellOf_of_lt {c : Config} {v : Cell} (h : v.toNat < 2 ^ c.width) : cellOf c v.toNat = v := by
  apply BitVec.eq_of_toNat_eq
  rw [cellOf_toNat, Nat.mod_eq_of_lt h]

theorem cellOf_cellOf (c : Config) (n : Nat) : cellOf c (cellOf c n).toNat = cellOf c n :=
  cellOf_of_lt (cellOf_lt c n)

/-- A program counter that is already even and `AB` bits wide is kept whole. -/
theorem evenAddrOf_of_legal {c : Config} {v : Addr} (h0 : v.toNat % 2 = 0)
    (h : v.toNat < 2 ^ c.addrBits) : evenAddrOf c v.toNat = v := by
  apply BitVec.eq_of_toNat_eq
  rw [evenAddrOf_toNat, Nat.mod_eq_of_lt h]; omega

/-- Bit 0 is dropped only from an odd value: an even value is taken `mod 2^AB`. -/
theorem evenAddrOf_toNat_of_even (c : Config) {n : Nat} (h : n % 2 = 0) :
    (evenAddrOf c n).toNat = n % 2 ^ c.addrBits := by
  obtain ⟨k, hk⟩ := c.two_dvd_pow_addrBits
  have : n % 2 ^ c.addrBits % 2 = 0 := by
    rw [hk, Nat.mod_mul_right_mod]; exact h
  rw [evenAddrOf_toNat]; omega

/-! ### Halves of a cell -/

@[simp] theorem lowWord_toNat (v : Cell) : (lowWord v).toNat = v.toNat % 65536 := by
  simp [lowWord]

@[simp] theorem highWord_toNat (v : Cell) : (highWord v).toNat = v.toNat / 65536 := by
  have h := v.isLt
  simp only [highWord, BitVec.extractLsb'_toNat, Nat.shiftRight_eq_div_pow]
  rw [Nat.mod_eq_of_lt (by omega)]

theorem append16_toNat (h l : Word) : (h ++ l : BitVec 32).toNat = h.toNat * 65536 + l.toNat := by
  have hl := l.isLt
  rw [BitVec.toNat_append, Nat.shiftLeft_eq, Nat.mul_comm, ← Nat.two_pow_add_eq_or_of_lt hl]

/-- A cell is its two halves. -/
theorem append_high_low (v : Cell) : (highWord v ++ lowWord v : BitVec 32) = v := by
  apply BitVec.eq_of_toNat_eq
  rw [append16_toNat, highWord_toNat, lowWord_toNat]; omega

@[simp] theorem lowWord_append (h l : Word) : lowWord (h ++ l : BitVec 32) = l := by
  apply BitVec.eq_of_toNat_eq
  have hl := l.isLt
  rw [lowWord_toNat, append16_toNat]; omega

@[simp] theorem highWord_append (h l : Word) : highWord (h ++ l : BitVec 32) = h := by
  apply BitVec.eq_of_toNat_eq
  have hl := l.isLt
  rw [highWord_toNat, append16_toNat]; omega

/-! ### Displacements -/

/-- A movement counts words: the displacement is twice it, in bytes (R102). -/
theorem displacement_toInt (d : Movement) : (displacement d).toInt = 2 * d.toInt := by
  revert d; decide +kernel

theorem displacement_even (d : Movement) : (displacement d).toNat % 2 = 0 := by
  revert d; decide +kernel

end Machine

end Sys2Proof
end

