-- ==== Sys2Proof/Laws/Decode.lean ====
section
/-!
SUPPORT. The fields of the three line formats, and words and bytes.
-/

namespace Sys2Proof

/-! ### Fields of a word -/

theorem slotsWord_fields (k1 k2 k3 : OpCode) :
    isCallaWord (slotsWord k1 k2 k3) = false ∧ code1 (slotsWord k1 k2 k3) = k1 ∧
    code2 (slotsWord k1 k2 k3) = k2 ∧ code3 (slotsWord k1 k2 k3) = k3 := by
  unfold isCallaWord slotsWord code1 code2 code3
  refine ⟨by simp only [BitVec.getLsbD_append]; simp, ?_, ?_, ?_⟩ <;>
  · apply BitVec.eq_of_getLsbD_eq
    intro i hi
    simp only [BitVec.getLsbD_extractLsb', BitVec.getLsbD_append, hi, decide_true, Bool.true_and]
    interval_cases i <;> simp

theorem branchWord_fields (k : OpCode) (d : Movement) :
    isCallaWord (branchWord k d) = false ∧ code1 (branchWord k d) = k ∧
    movementField (branchWord k d) = d := by
  unfold isCallaWord branchWord code1 movementField
  refine ⟨by simp only [BitVec.getLsbD_append]; simp, ?_, ?_⟩ <;>
  · apply BitVec.eq_of_getLsbD_eq
    intro i hi
    simp only [BitVec.getLsbD_extractLsb', BitVec.getLsbD_append, hi, decide_true, Bool.true_and]
    interval_cases i <;> simp

theorem callaWord_fields (lo : BitVec 15) :
    isCallaWord (lo ++ 1#1 : BitVec 16) = true ∧ (lo ++ 1#1 : BitVec 16).extractLsb' 1 15 = lo := by
  refine ⟨by simp only [isCallaWord, BitVec.getLsbD_append]; simp, ?_⟩
  apply BitVec.eq_of_getLsbD_eq
  intro i hi
  simp only [BitVec.getLsbD_extractLsb', BitVec.getLsbD_append, hi]
  simp

/-! ### Words and bytes -/

@[simp] theorem wordOfBytes_bytes (w : Word) : wordOfBytes (w.extractLsb' 8 8) (w.extractLsb' 0 8) = w := by
  unfold wordOfBytes
  apply BitVec.eq_of_getLsbD_eq
  intro i hi
  simp only [BitVec.getLsbD_append, BitVec.getLsbD_extractLsb']
  split
  · simp [*]
  · have : i - 8 < 8 := by omega
    simp only [this, decide_true, Bool.true_and]
    congr 1; omega

/-- The decoder on the two bytes of a word that is no `calla`. -/
theorem decode_bytesOfWord (c : Config) {w : Word} (rest : List Byte) (h : isCallaWord w = false) :
    decode c (bytesOfWords [w] ++ rest) = .ok (decodeLine c w 0, rest) := by
  simp only [bytesOfWords, List.cons_append, List.nil_append, decode, wordOfBytes_bytes, h]; rfl

/-! ### Slot codes -/

/-- Decoding a code looks at `CORE` and `MT` only (R106). -/
theorem decodeSlot_congr {c c' : Config} (hc : c.core = c'.core) (hm : c.mt = c'.mt) (k : OpCode) :
    decodeSlot c k = decodeSlot c' k := by
  unfold decodeSlot; rw [hc, hm]

/-- The incorrect branch codes are the codes 0 to 3, on every core (R108). -/
theorem decodeSlot_of_lt (c : Config) {k : OpCode} (h : k.toNat < 4) :
    decodeSlot c k = .incorrectBranchCode (k.setWidth 2) := by
  unfold decodeSlot
  split <;> first | omega | rfl

end Sys2Proof
end

