-- ==== Sys2Proof/Laws/Memory.lean ====
section
/-!
SUPPORT. Reading memory after a write, and the canonical form under every memory operation.
-/

namespace Sys2Proof.Machine

/-! ### Read after write -/

theorem Mem.read_erase (m : Mem) (a b : Nat) :
    Mem.read (Mem.erase m a) b = if b = a then unwrittenByte else Mem.read m b := by
  induction m with
  | nil => simp [Mem.erase, Mem.read]
  | cons e m ih =>
    obtain ⟨k, w⟩ := e
    by_cases hka : k = a
    · subst hka
      simp only [Mem.erase, if_pos, ih, Mem.read]
      by_cases hb : b = k
      · simp [hb]
      · simp [hb, Ne.symm hb]
    · by_cases hkb : k = b
      · subst hkb; simp [Mem.erase, Mem.read, hka]
      · simp [Mem.erase, Mem.read, hka, hkb, ih]

theorem Mem.read_insert (m : Mem) (a b : Nat) (v : Byte)
    (hm : ∀ e ∈ m, e.1 ≠ a) :
    Mem.read (Mem.insert m a v) b = if b = a then v else Mem.read m b := by
  induction m with
  | nil =>
    by_cases hb : b = a
    · simp [Mem.insert, Mem.read, hb]
    · simp [Mem.insert, Mem.read, hb, Ne.symm hb]
  | cons e m ih =>
    obtain ⟨k, w⟩ := e
    have hka : k ≠ a := hm (k, w) (by simp)
    have hm' : ∀ e ∈ m, e.1 ≠ a := fun e he => hm e (by simp [he])
    by_cases hlt : a < k
    · by_cases hb : b = a
      · simp [Mem.insert, Mem.read, hlt, hb]
      · simp [Mem.insert, Mem.read, hlt, hb, Ne.symm hb]
    · by_cases hkb : k = b
      · subst hkb; simp [Mem.insert, Mem.read, hlt, hka]
      · simp [Mem.insert, Mem.read, hlt, hkb, ih hm']

theorem Mem.erase_ne (m : Mem) (a : Nat) : ∀ e ∈ Mem.erase m a, e.1 ≠ a := by
  induction m with
  | nil => simp [Mem.erase]
  | cons e m ih =>
    obtain ⟨k, w⟩ := e
    by_cases hka : k = a
    · simpa [Mem.erase, hka] using ih
    · simpa [Mem.erase, hka] using ih

/-- Everything a write of one byte does to what memory reads as. -/
theorem Mem.read_write (m : Mem) (a b : Nat) (v : Byte) :
    Mem.read (Mem.write m a v) b = if b = a then v else Mem.read m b := by
  unfold Mem.write
  split
  · next h => rw [Mem.read_erase, h]
  · rw [Mem.read_insert _ _ _ _ (Mem.erase_ne m a), Mem.read_erase]
    by_cases hb : b = a <;> simp [hb]

@[simp] theorem Mem.read_write_same (m : Mem) (a : Nat) (v : Byte) :
    Mem.read (Mem.write m a v) a = v := by simp [Mem.read_write]

theorem Mem.read_write_other (m : Mem) {a b : Nat} (v : Byte) (h : b ≠ a) :
    Mem.read (Mem.write m a v) b = Mem.read m b := by simp [Mem.read_write, h]

/-! ### The canonical form -/

theorem Mem.wfFrom_mono {m : Mem} {lo lo' : Nat} (h : lo' ≤ lo) (hm : Mem.wfFrom lo m = true) :
    Mem.wfFrom lo' m = true := by
  cases m with
  | nil => rfl
  | cons e m =>
    obtain ⟨k, w⟩ := e
    simp only [Mem.wfFrom, Bool.and_eq_true, decide_eq_true_eq] at hm ⊢
    exact ⟨⟨by omega, hm.1.2⟩, hm.2⟩

theorem Mem.wfFrom_erase {m : Mem} {lo : Nat} (a : Nat) (hm : Mem.wfFrom lo m = true) :
    Mem.wfFrom lo (Mem.erase m a) = true := by
  induction m generalizing lo with
  | nil => rfl
  | cons e m ih =>
    obtain ⟨k, w⟩ := e
    simp only [Mem.wfFrom, Bool.and_eq_true, decide_eq_true_eq] at hm
    by_cases hka : k = a
    · simp only [Mem.erase, hka, if_pos]
      exact Mem.wfFrom_mono (by omega) (ih hm.2)
    · simp [Mem.erase, hka, Mem.wfFrom, hm.1, ih hm.2]

theorem Mem.wfFrom_insert {m : Mem} {lo a : Nat} {v : Byte} (hv : v ≠ unwrittenByte) (ha : lo ≤ a)
    (hne : ∀ e ∈ m, e.1 ≠ a) (hm : Mem.wfFrom lo m = true) :
    Mem.wfFrom lo (Mem.insert m a v) = true := by
  induction m generalizing lo with
  | nil => simp [Mem.insert, Mem.wfFrom, ha, hv]
  | cons e m ih =>
    obtain ⟨k, w⟩ := e
    simp only [Mem.wfFrom, Bool.and_eq_true, decide_eq_true_eq] at hm
    have hka : k ≠ a := hne (k, w) (by simp)
    by_cases hlt : a < k
    · simp [Mem.insert, hlt, Mem.wfFrom, ha, hv, hm.1.2, hm.2, Nat.succ_le_of_lt hlt]
    · have := ih (lo := k + 1) (by omega) (fun e he => hne e (by simp [he])) hm.2
      simp [Mem.insert, hlt, Mem.wfFrom, hm.1, this]

/-- A write keeps the canonical form. -/
theorem Mem.wf_write {m : Mem} (a : Nat) (v : Byte) (hm : m.wf = true) :
    (Mem.write m a v).wf = true := by
  unfold Mem.wf at *
  unfold Mem.write
  split
  · exact Mem.wfFrom_erase a hm
  · next h => exact Mem.wfFrom_insert h (Nat.zero_le _) (Mem.erase_ne m a) (Mem.wfFrom_erase a hm)

theorem Mem.wf_nil : Mem.wf [] = true := rfl

theorem Mem.below_erase {m : Mem} {n : Nat} (a : Nat) (hm : Mem.below n m = true) :
    Mem.below n (Mem.erase m a) = true := by
  induction m with
  | nil => rfl
  | cons e m ih =>
    obtain ⟨k, w⟩ := e
    simp only [Mem.below, List.all_cons, Bool.and_eq_true] at hm ih
    by_cases hka : k = a
    · simpa [Mem.erase, hka, Mem.below] using ih hm.2
    · simpa [Mem.erase, hka, Mem.below] using ⟨by simpa using hm.1, by simpa using ih hm.2⟩

theorem Mem.below_insert {m : Mem} {n a : Nat} (v : Byte) (ha : a < n) (hm : Mem.below n m = true) :
    Mem.below n (Mem.insert m a v) = true := by
  induction m with
  | nil => simp [Mem.insert, Mem.below, ha]
  | cons e m ih =>
    obtain ⟨k, w⟩ := e
    simp only [Mem.below, List.all_cons, Bool.and_eq_true] at hm ih
    by_cases hlt : a < k
    · simp only [Mem.insert, hlt, if_pos, Mem.below, List.all_cons, Bool.and_eq_true]
      exact ⟨by simpa using ha, hm⟩
    · simp only [Mem.insert, hlt, if_false, Mem.below, List.all_cons, Bool.and_eq_true]
      exact ⟨hm.1, ih hm.2⟩

/-- A write inside a memory's bounds keeps them. -/
theorem Mem.below_write {m : Mem} {n a : Nat} (v : Byte) (ha : a < n) (hm : Mem.below n m = true) :
    Mem.below n (Mem.write m a v) = true := by
  unfold Mem.write
  split
  · exact Mem.below_erase a hm
  · exact Mem.below_insert v ha (Mem.below_erase a hm)

/-! ### Canonical memories are equal when they read the same -/

theorem Mem.read_of_wfFrom {m : Mem} {lo a : Nat} (hm : Mem.wfFrom lo m = true) (h : a < lo) :
    Mem.read m a = unwrittenByte := by
  induction m generalizing lo with
  | nil => rfl
  | cons e m ih =>
    obtain ⟨k, w⟩ := e
    simp only [Mem.wfFrom, Bool.and_eq_true, decide_eq_true_eq] at hm
    have : k ≠ a := by omega
    simp [Mem.read, this, ih hm.2 (by omega)]

theorem Mem.eq_of_read_wfFrom {m n : Mem} {lo : Nat} (hm : Mem.wfFrom lo m = true)
    (hn : Mem.wfFrom lo n = true) (h : ∀ a, Mem.read m a = Mem.read n a) : m = n := by
  induction m generalizing n lo with
  | nil =>
    cases n with
    | nil => rfl
    | cons e n =>
      obtain ⟨k, w⟩ := e
      simp only [Mem.wfFrom, Bool.and_eq_true, decide_eq_true_eq, bne_iff_ne] at hn
      have := h k
      simp [Mem.read] at this
      exact absurd this.symm hn.1.2
  | cons e m ih =>
    obtain ⟨k, w⟩ := e
    have hm' := hm
    simp only [Mem.wfFrom, Bool.and_eq_true, decide_eq_true_eq, bne_iff_ne] at hm
    cases n with
    | nil =>
      have := h k
      simp [Mem.read] at this
      exact absurd this hm.1.2
    | cons f n =>
      obtain ⟨j, u⟩ := f
      have hn' := hn
      simp only [Mem.wfFrom, Bool.and_eq_true, decide_eq_true_eq, bne_iff_ne] at hn
      have hkj : k = j := by
        rcases Nat.lt_trichotomy k j with hlt | heq | hgt
        · have hk := h k
          have hj : j ≠ k := by omega
          simp only [Mem.read, if_pos, hj, if_false] at hk
          rw [Mem.read_of_wfFrom hn.2 (by omega)] at hk
          exact absurd hk hm.1.2
        · exact heq
        · have hj := h j
          have hk : k ≠ j := by omega
          simp only [Mem.read, if_pos, hk, if_false] at hj
          rw [Mem.read_of_wfFrom hm.2 (by omega)] at hj
          exact absurd hj.symm hn.1.2
      subst hkj
      have hwu : w = u := by simpa [Mem.read] using h k
      subst hwu
      have hrest : ∀ a, Mem.read m a = Mem.read n a := by
        intro a
        by_cases hka : k = a
        · rw [Mem.read_of_wfFrom hm.2 (by omega), Mem.read_of_wfFrom hn.2 (by omega)]
        · simpa [Mem.read, hka] using h a
      rw [ih hm.2 hn.2 hrest]

/-- Equal memories are equal data: two canonical memories that read the same are the same list. -/
theorem Mem.eq_of_read {m n : Mem} (hm : m.wf = true) (hn : n.wf = true)
    (h : ∀ a, Mem.read m a = Mem.read n a) : m = n := Mem.eq_of_read_wfFrom hm hn h

end Sys2Proof.Machine
end

