-- ==== Sys2Proof/Laws/State.lean ====
section
/-!
SUPPORT. One lemma per field per update, so that no proof unfolds a record update: what each named
operation leaves as it was, and what it writes.
-/

namespace Sys2Proof.Machine

/-! ### Extensionality -/

/-- Two states with the same fields are the same state. -/
theorem State.ext_fields {s t : State}
    (cfg : s.cfg = t.cfg) (pc : s.pc = t.pc) (a : s.a = t.a) (pa : s.pa = t.pa) (pr : s.pr = t.pr)
    (ds : s.ds = t.ds) (dsp : s.dsp = t.dsp) (rs : s.rs = t.rs) (rsp : s.rsp = t.rsp) (ce : s.ce = t.ce)
    (sa : s.sa = t.sa) (spa : s.spa = t.spa) (spr : s.spr = t.spr) (sce : s.sce = t.sce) (dsEvent : s.dsEvent = t.dsEvent)
    (rsEvent : s.rsEvent = t.rsEvent) (romInhibit : s.romInhibit = t.romInhibit) (timer : s.timer = t.timer) (uart : s.uart = t.uart) (extIrq : s.extIrq = t.extIrq)
    (mem : s.mem = t.mem) (inbox : s.inbox = t.inbox) (openReads : s.openReads = t.openReads) : s = t := by
  cases s; cases t; simp_all

/-! ### setPc -/

@[simp] theorem State.setPc_cfg (s : State) (n : Nat) : (s.setPc n).cfg = s.cfg := rfl
@[simp] theorem State.setPc_a (s : State) (n : Nat) : (s.setPc n).a = s.a := rfl
@[simp] theorem State.setPc_pa (s : State) (n : Nat) : (s.setPc n).pa = s.pa := rfl
@[simp] theorem State.setPc_pr (s : State) (n : Nat) : (s.setPc n).pr = s.pr := rfl
@[simp] theorem State.setPc_ds (s : State) (n : Nat) : (s.setPc n).ds = s.ds := rfl
@[simp] theorem State.setPc_dsp (s : State) (n : Nat) : (s.setPc n).dsp = s.dsp := rfl
@[simp] theorem State.setPc_rs (s : State) (n : Nat) : (s.setPc n).rs = s.rs := rfl
@[simp] theorem State.setPc_rsp (s : State) (n : Nat) : (s.setPc n).rsp = s.rsp := rfl
@[simp] theorem State.setPc_ce (s : State) (n : Nat) : (s.setPc n).ce = s.ce := rfl
@[simp] theorem State.setPc_sa (s : State) (n : Nat) : (s.setPc n).sa = s.sa := rfl
@[simp] theorem State.setPc_spa (s : State) (n : Nat) : (s.setPc n).spa = s.spa := rfl
@[simp] theorem State.setPc_spr (s : State) (n : Nat) : (s.setPc n).spr = s.spr := rfl
@[simp] theorem State.setPc_sce (s : State) (n : Nat) : (s.setPc n).sce = s.sce := rfl
@[simp] theorem State.setPc_dsEvent (s : State) (n : Nat) : (s.setPc n).dsEvent = s.dsEvent := rfl
@[simp] theorem State.setPc_rsEvent (s : State) (n : Nat) : (s.setPc n).rsEvent = s.rsEvent := rfl
@[simp] theorem State.setPc_romInhibit (s : State) (n : Nat) : (s.setPc n).romInhibit = s.romInhibit := rfl
@[simp] theorem State.setPc_timer (s : State) (n : Nat) : (s.setPc n).timer = s.timer := rfl
@[simp] theorem State.setPc_uart (s : State) (n : Nat) : (s.setPc n).uart = s.uart := rfl
@[simp] theorem State.setPc_extIrq (s : State) (n : Nat) : (s.setPc n).extIrq = s.extIrq := rfl
@[simp] theorem State.setPc_mem (s : State) (n : Nat) : (s.setPc n).mem = s.mem := rfl
@[simp] theorem State.setPc_inbox (s : State) (n : Nat) : (s.setPc n).inbox = s.inbox := rfl
@[simp] theorem State.setPc_openReads (s : State) (n : Nat) : (s.setPc n).openReads = s.openReads := rfl
@[simp] theorem State.setPc_t (s : State) (n : Nat) : (s.setPc n).t = s.t := rfl
@[simp] theorem State.setPc_second (s : State) (n : Nat) : (s.setPc n).second = s.second := rfl
@[simp] theorem State.setPc_r (s : State) (n : Nat) : (s.setPc n).r = s.r := rfl
@[simp] theorem State.setPc_pntt (s : State) (n : Nat) : (s.setPc n).pntt = s.pntt := rfl
@[simp] theorem State.setPc_pntr (s : State) (n : Nat) : (s.setPc n).pntr = s.pntr := rfl
@[simp] theorem State.setPc_ceWord (s : State) (n : Nat) : (s.setPc n).ceWord = s.ceWord := rfl

/-! ### advancePc -/

@[simp] theorem State.advancePc_cfg (s : State) : s.advancePc.cfg = s.cfg := rfl
@[simp] theorem State.advancePc_a (s : State) : s.advancePc.a = s.a := rfl
@[simp] theorem State.advancePc_pa (s : State) : s.advancePc.pa = s.pa := rfl
@[simp] theorem State.advancePc_pr (s : State) : s.advancePc.pr = s.pr := rfl
@[simp] theorem State.advancePc_ds (s : State) : s.advancePc.ds = s.ds := rfl
@[simp] theorem State.advancePc_dsp (s : State) : s.advancePc.dsp = s.dsp := rfl
@[simp] theorem State.advancePc_rs (s : State) : s.advancePc.rs = s.rs := rfl
@[simp] theorem State.advancePc_rsp (s : State) : s.advancePc.rsp = s.rsp := rfl
@[simp] theorem State.advancePc_ce (s : State) : s.advancePc.ce = s.ce := rfl
@[simp] theorem State.advancePc_sa (s : State) : s.advancePc.sa = s.sa := rfl
@[simp] theorem State.advancePc_spa (s : State) : s.advancePc.spa = s.spa := rfl
@[simp] theorem State.advancePc_spr (s : State) : s.advancePc.spr = s.spr := rfl
@[simp] theorem State.advancePc_sce (s : State) : s.advancePc.sce = s.sce := rfl
@[simp] theorem State.advancePc_dsEvent (s : State) : s.advancePc.dsEvent = s.dsEvent := rfl
@[simp] theorem State.advancePc_rsEvent (s : State) : s.advancePc.rsEvent = s.rsEvent := rfl
@[simp] theorem State.advancePc_romInhibit (s : State) : s.advancePc.romInhibit = s.romInhibit := rfl
@[simp] theorem State.advancePc_timer (s : State) : s.advancePc.timer = s.timer := rfl
@[simp] theorem State.advancePc_uart (s : State) : s.advancePc.uart = s.uart := rfl
@[simp] theorem State.advancePc_extIrq (s : State) : s.advancePc.extIrq = s.extIrq := rfl
@[simp] theorem State.advancePc_mem (s : State) : s.advancePc.mem = s.mem := rfl
@[simp] theorem State.advancePc_inbox (s : State) : s.advancePc.inbox = s.inbox := rfl
@[simp] theorem State.advancePc_openReads (s : State) : s.advancePc.openReads = s.openReads := rfl
@[simp] theorem State.advancePc_t (s : State) : s.advancePc.t = s.t := rfl
@[simp] theorem State.advancePc_second (s : State) : s.advancePc.second = s.second := rfl
@[simp] theorem State.advancePc_r (s : State) : s.advancePc.r = s.r := rfl
@[simp] theorem State.advancePc_pntt (s : State) : s.advancePc.pntt = s.pntt := rfl
@[simp] theorem State.advancePc_pntr (s : State) : s.advancePc.pntr = s.pntr := rfl
@[simp] theorem State.advancePc_ceWord (s : State) : s.advancePc.ceWord = s.ceWord := rfl

/-! ### setA -/

@[simp] theorem State.setA_cfg (s : State) (n : Nat) : (s.setA n).cfg = s.cfg := rfl
@[simp] theorem State.setA_pc (s : State) (n : Nat) : (s.setA n).pc = s.pc := rfl
@[simp] theorem State.setA_pa (s : State) (n : Nat) : (s.setA n).pa = s.pa := rfl
@[simp] theorem State.setA_pr (s : State) (n : Nat) : (s.setA n).pr = s.pr := rfl
@[simp] theorem State.setA_ds (s : State) (n : Nat) : (s.setA n).ds = s.ds := rfl
@[simp] theorem State.setA_dsp (s : State) (n : Nat) : (s.setA n).dsp = s.dsp := rfl
@[simp] theorem State.setA_rs (s : State) (n : Nat) : (s.setA n).rs = s.rs := rfl
@[simp] theorem State.setA_rsp (s : State) (n : Nat) : (s.setA n).rsp = s.rsp := rfl
@[simp] theorem State.setA_ce (s : State) (n : Nat) : (s.setA n).ce = s.ce := rfl
@[simp] theorem State.setA_sa (s : State) (n : Nat) : (s.setA n).sa = s.sa := rfl
@[simp] theorem State.setA_spa (s : State) (n : Nat) : (s.setA n).spa = s.spa := rfl
@[simp] theorem State.setA_spr (s : State) (n : Nat) : (s.setA n).spr = s.spr := rfl
@[simp] theorem State.setA_sce (s : State) (n : Nat) : (s.setA n).sce = s.sce := rfl
@[simp] theorem State.setA_dsEvent (s : State) (n : Nat) : (s.setA n).dsEvent = s.dsEvent := rfl
@[simp] theorem State.setA_rsEvent (s : State) (n : Nat) : (s.setA n).rsEvent = s.rsEvent := rfl
@[simp] theorem State.setA_romInhibit (s : State) (n : Nat) : (s.setA n).romInhibit = s.romInhibit := rfl
@[simp] theorem State.setA_timer (s : State) (n : Nat) : (s.setA n).timer = s.timer := rfl
@[simp] theorem State.setA_uart (s : State) (n : Nat) : (s.setA n).uart = s.uart := rfl
@[simp] theorem State.setA_extIrq (s : State) (n : Nat) : (s.setA n).extIrq = s.extIrq := rfl
@[simp] theorem State.setA_mem (s : State) (n : Nat) : (s.setA n).mem = s.mem := rfl
@[simp] theorem State.setA_inbox (s : State) (n : Nat) : (s.setA n).inbox = s.inbox := rfl
@[simp] theorem State.setA_openReads (s : State) (n : Nat) : (s.setA n).openReads = s.openReads := rfl
@[simp] theorem State.setA_t (s : State) (n : Nat) : (s.setA n).t = s.t := rfl
@[simp] theorem State.setA_second (s : State) (n : Nat) : (s.setA n).second = s.second := rfl
@[simp] theorem State.setA_r (s : State) (n : Nat) : (s.setA n).r = s.r := rfl
@[simp] theorem State.setA_pntt (s : State) (n : Nat) : (s.setA n).pntt = s.pntt := rfl
@[simp] theorem State.setA_pntr (s : State) (n : Nat) : (s.setA n).pntr = s.pntr := rfl
@[simp] theorem State.setA_ceWord (s : State) (n : Nat) : (s.setA n).ceWord = s.ceWord := rfl

/-! ### setC -/

@[simp] theorem State.setC_cfg (s : State) (b : Bool) : (s.setC b).cfg = s.cfg := rfl
@[simp] theorem State.setC_pc (s : State) (b : Bool) : (s.setC b).pc = s.pc := rfl
@[simp] theorem State.setC_a (s : State) (b : Bool) : (s.setC b).a = s.a := rfl
@[simp] theorem State.setC_pa (s : State) (b : Bool) : (s.setC b).pa = s.pa := rfl
@[simp] theorem State.setC_pr (s : State) (b : Bool) : (s.setC b).pr = s.pr := rfl
@[simp] theorem State.setC_ds (s : State) (b : Bool) : (s.setC b).ds = s.ds := rfl
@[simp] theorem State.setC_dsp (s : State) (b : Bool) : (s.setC b).dsp = s.dsp := rfl
@[simp] theorem State.setC_rs (s : State) (b : Bool) : (s.setC b).rs = s.rs := rfl
@[simp] theorem State.setC_rsp (s : State) (b : Bool) : (s.setC b).rsp = s.rsp := rfl
@[simp] theorem State.setC_sa (s : State) (b : Bool) : (s.setC b).sa = s.sa := rfl
@[simp] theorem State.setC_spa (s : State) (b : Bool) : (s.setC b).spa = s.spa := rfl
@[simp] theorem State.setC_spr (s : State) (b : Bool) : (s.setC b).spr = s.spr := rfl
@[simp] theorem State.setC_sce (s : State) (b : Bool) : (s.setC b).sce = s.sce := rfl
@[simp] theorem State.setC_dsEvent (s : State) (b : Bool) : (s.setC b).dsEvent = s.dsEvent := rfl
@[simp] theorem State.setC_rsEvent (s : State) (b : Bool) : (s.setC b).rsEvent = s.rsEvent := rfl
@[simp] theorem State.setC_romInhibit (s : State) (b : Bool) : (s.setC b).romInhibit = s.romInhibit := rfl
@[simp] theorem State.setC_timer (s : State) (b : Bool) : (s.setC b).timer = s.timer := rfl
@[simp] theorem State.setC_uart (s : State) (b : Bool) : (s.setC b).uart = s.uart := rfl
@[simp] theorem State.setC_extIrq (s : State) (b : Bool) : (s.setC b).extIrq = s.extIrq := rfl
@[simp] theorem State.setC_mem (s : State) (b : Bool) : (s.setC b).mem = s.mem := rfl
@[simp] theorem State.setC_inbox (s : State) (b : Bool) : (s.setC b).inbox = s.inbox := rfl
@[simp] theorem State.setC_openReads (s : State) (b : Bool) : (s.setC b).openReads = s.openReads := rfl
@[simp] theorem State.setC_t (s : State) (b : Bool) : (s.setC b).t = s.t := rfl
@[simp] theorem State.setC_second (s : State) (b : Bool) : (s.setC b).second = s.second := rfl
@[simp] theorem State.setC_r (s : State) (b : Bool) : (s.setC b).r = s.r := rfl
@[simp] theorem State.setC_pntt (s : State) (b : Bool) : (s.setC b).pntt = s.pntt := rfl
@[simp] theorem State.setC_pntr (s : State) (b : Bool) : (s.setC b).pntr = s.pntr := rfl

/-! ### setCe -/

@[simp] theorem State.setCe_cfg (s : State) (w : Word) : (s.setCe w).cfg = s.cfg := rfl
@[simp] theorem State.setCe_pc (s : State) (w : Word) : (s.setCe w).pc = s.pc := rfl
@[simp] theorem State.setCe_a (s : State) (w : Word) : (s.setCe w).a = s.a := rfl
@[simp] theorem State.setCe_pa (s : State) (w : Word) : (s.setCe w).pa = s.pa := rfl
@[simp] theorem State.setCe_pr (s : State) (w : Word) : (s.setCe w).pr = s.pr := rfl
@[simp] theorem State.setCe_ds (s : State) (w : Word) : (s.setCe w).ds = s.ds := rfl
@[simp] theorem State.setCe_dsp (s : State) (w : Word) : (s.setCe w).dsp = s.dsp := rfl
@[simp] theorem State.setCe_rs (s : State) (w : Word) : (s.setCe w).rs = s.rs := rfl
@[simp] theorem State.setCe_rsp (s : State) (w : Word) : (s.setCe w).rsp = s.rsp := rfl
@[simp] theorem State.setCe_sa (s : State) (w : Word) : (s.setCe w).sa = s.sa := rfl
@[simp] theorem State.setCe_spa (s : State) (w : Word) : (s.setCe w).spa = s.spa := rfl
@[simp] theorem State.setCe_spr (s : State) (w : Word) : (s.setCe w).spr = s.spr := rfl
@[simp] theorem State.setCe_sce (s : State) (w : Word) : (s.setCe w).sce = s.sce := rfl
@[simp] theorem State.setCe_dsEvent (s : State) (w : Word) : (s.setCe w).dsEvent = s.dsEvent := rfl
@[simp] theorem State.setCe_rsEvent (s : State) (w : Word) : (s.setCe w).rsEvent = s.rsEvent := rfl
@[simp] theorem State.setCe_romInhibit (s : State) (w : Word) : (s.setCe w).romInhibit = s.romInhibit := rfl
@[simp] theorem State.setCe_timer (s : State) (w : Word) : (s.setCe w).timer = s.timer := rfl
@[simp] theorem State.setCe_uart (s : State) (w : Word) : (s.setCe w).uart = s.uart := rfl
@[simp] theorem State.setCe_extIrq (s : State) (w : Word) : (s.setCe w).extIrq = s.extIrq := rfl
@[simp] theorem State.setCe_mem (s : State) (w : Word) : (s.setCe w).mem = s.mem := rfl
@[simp] theorem State.setCe_inbox (s : State) (w : Word) : (s.setCe w).inbox = s.inbox := rfl
@[simp] theorem State.setCe_openReads (s : State) (w : Word) : (s.setCe w).openReads = s.openReads := rfl
@[simp] theorem State.setCe_t (s : State) (w : Word) : (s.setCe w).t = s.t := rfl
@[simp] theorem State.setCe_second (s : State) (w : Word) : (s.setCe w).second = s.second := rfl
@[simp] theorem State.setCe_r (s : State) (w : Word) : (s.setCe w).r = s.r := rfl
@[simp] theorem State.setCe_pntt (s : State) (w : Word) : (s.setCe w).pntt = s.pntt := rfl
@[simp] theorem State.setCe_pntr (s : State) (w : Word) : (s.setCe w).pntr = s.pntr := rfl

/-! ### setT -/

@[simp] theorem State.setT_cfg (s : State) (n : Nat) : (s.setT n).cfg = s.cfg := rfl
@[simp] theorem State.setT_pc (s : State) (n : Nat) : (s.setT n).pc = s.pc := rfl
@[simp] theorem State.setT_a (s : State) (n : Nat) : (s.setT n).a = s.a := rfl
@[simp] theorem State.setT_pa (s : State) (n : Nat) : (s.setT n).pa = s.pa := rfl
@[simp] theorem State.setT_pr (s : State) (n : Nat) : (s.setT n).pr = s.pr := rfl
@[simp] theorem State.setT_dsp (s : State) (n : Nat) : (s.setT n).dsp = s.dsp := rfl
@[simp] theorem State.setT_rs (s : State) (n : Nat) : (s.setT n).rs = s.rs := rfl
@[simp] theorem State.setT_rsp (s : State) (n : Nat) : (s.setT n).rsp = s.rsp := rfl
@[simp] theorem State.setT_ce (s : State) (n : Nat) : (s.setT n).ce = s.ce := rfl
@[simp] theorem State.setT_sa (s : State) (n : Nat) : (s.setT n).sa = s.sa := rfl
@[simp] theorem State.setT_spa (s : State) (n : Nat) : (s.setT n).spa = s.spa := rfl
@[simp] theorem State.setT_spr (s : State) (n : Nat) : (s.setT n).spr = s.spr := rfl
@[simp] theorem State.setT_sce (s : State) (n : Nat) : (s.setT n).sce = s.sce := rfl
@[simp] theorem State.setT_dsEvent (s : State) (n : Nat) : (s.setT n).dsEvent = s.dsEvent := rfl
@[simp] theorem State.setT_rsEvent (s : State) (n : Nat) : (s.setT n).rsEvent = s.rsEvent := rfl
@[simp] theorem State.setT_romInhibit (s : State) (n : Nat) : (s.setT n).romInhibit = s.romInhibit := rfl
@[simp] theorem State.setT_timer (s : State) (n : Nat) : (s.setT n).timer = s.timer := rfl
@[simp] theorem State.setT_uart (s : State) (n : Nat) : (s.setT n).uart = s.uart := rfl
@[simp] theorem State.setT_extIrq (s : State) (n : Nat) : (s.setT n).extIrq = s.extIrq := rfl
@[simp] theorem State.setT_mem (s : State) (n : Nat) : (s.setT n).mem = s.mem := rfl
@[simp] theorem State.setT_inbox (s : State) (n : Nat) : (s.setT n).inbox = s.inbox := rfl
@[simp] theorem State.setT_openReads (s : State) (n : Nat) : (s.setT n).openReads = s.openReads := rfl
@[simp] theorem State.setT_r (s : State) (n : Nat) : (s.setT n).r = s.r := rfl
@[simp] theorem State.setT_pntt (s : State) (n : Nat) : (s.setT n).pntt = s.pntt := rfl
@[simp] theorem State.setT_pntr (s : State) (n : Nat) : (s.setT n).pntr = s.pntr := rfl
@[simp] theorem State.setT_ceWord (s : State) (n : Nat) : (s.setT n).ceWord = s.ceWord := rfl

/-! ### dPush -/

@[simp] theorem State.dPush_cfg (s : State) (n : Nat) : (s.dPush n).cfg = s.cfg := rfl
@[simp] theorem State.dPush_pc (s : State) (n : Nat) : (s.dPush n).pc = s.pc := rfl
@[simp] theorem State.dPush_a (s : State) (n : Nat) : (s.dPush n).a = s.a := rfl
@[simp] theorem State.dPush_pa (s : State) (n : Nat) : (s.dPush n).pa = s.pa := rfl
@[simp] theorem State.dPush_pr (s : State) (n : Nat) : (s.dPush n).pr = s.pr := rfl
@[simp] theorem State.dPush_rs (s : State) (n : Nat) : (s.dPush n).rs = s.rs := rfl
@[simp] theorem State.dPush_rsp (s : State) (n : Nat) : (s.dPush n).rsp = s.rsp := rfl
@[simp] theorem State.dPush_ce (s : State) (n : Nat) : (s.dPush n).ce = s.ce := rfl
@[simp] theorem State.dPush_sa (s : State) (n : Nat) : (s.dPush n).sa = s.sa := rfl
@[simp] theorem State.dPush_spa (s : State) (n : Nat) : (s.dPush n).spa = s.spa := rfl
@[simp] theorem State.dPush_spr (s : State) (n : Nat) : (s.dPush n).spr = s.spr := rfl
@[simp] theorem State.dPush_sce (s : State) (n : Nat) : (s.dPush n).sce = s.sce := rfl
@[simp] theorem State.dPush_rsEvent (s : State) (n : Nat) : (s.dPush n).rsEvent = s.rsEvent := rfl
@[simp] theorem State.dPush_romInhibit (s : State) (n : Nat) : (s.dPush n).romInhibit = s.romInhibit := rfl
@[simp] theorem State.dPush_timer (s : State) (n : Nat) : (s.dPush n).timer = s.timer := rfl
@[simp] theorem State.dPush_uart (s : State) (n : Nat) : (s.dPush n).uart = s.uart := rfl
@[simp] theorem State.dPush_extIrq (s : State) (n : Nat) : (s.dPush n).extIrq = s.extIrq := rfl
@[simp] theorem State.dPush_mem (s : State) (n : Nat) : (s.dPush n).mem = s.mem := rfl
@[simp] theorem State.dPush_inbox (s : State) (n : Nat) : (s.dPush n).inbox = s.inbox := rfl
@[simp] theorem State.dPush_openReads (s : State) (n : Nat) : (s.dPush n).openReads = s.openReads := rfl
@[simp] theorem State.dPush_r (s : State) (n : Nat) : (s.dPush n).r = s.r := rfl
@[simp] theorem State.dPush_pntr (s : State) (n : Nat) : (s.dPush n).pntr = s.pntr := rfl
@[simp] theorem State.dPush_ceWord (s : State) (n : Nat) : (s.dPush n).ceWord = s.ceWord := rfl

/-! ### dDrop -/

@[simp] theorem State.dDrop_cfg (s : State) : s.dDrop.cfg = s.cfg := rfl
@[simp] theorem State.dDrop_pc (s : State) : s.dDrop.pc = s.pc := rfl
@[simp] theorem State.dDrop_a (s : State) : s.dDrop.a = s.a := rfl
@[simp] theorem State.dDrop_pa (s : State) : s.dDrop.pa = s.pa := rfl
@[simp] theorem State.dDrop_pr (s : State) : s.dDrop.pr = s.pr := rfl
@[simp] theorem State.dDrop_ds (s : State) : s.dDrop.ds = s.ds := rfl
@[simp] theorem State.dDrop_rs (s : State) : s.dDrop.rs = s.rs := rfl
@[simp] theorem State.dDrop_rsp (s : State) : s.dDrop.rsp = s.rsp := rfl
@[simp] theorem State.dDrop_ce (s : State) : s.dDrop.ce = s.ce := rfl
@[simp] theorem State.dDrop_sa (s : State) : s.dDrop.sa = s.sa := rfl
@[simp] theorem State.dDrop_spa (s : State) : s.dDrop.spa = s.spa := rfl
@[simp] theorem State.dDrop_spr (s : State) : s.dDrop.spr = s.spr := rfl
@[simp] theorem State.dDrop_sce (s : State) : s.dDrop.sce = s.sce := rfl
@[simp] theorem State.dDrop_rsEvent (s : State) : s.dDrop.rsEvent = s.rsEvent := rfl
@[simp] theorem State.dDrop_romInhibit (s : State) : s.dDrop.romInhibit = s.romInhibit := rfl
@[simp] theorem State.dDrop_timer (s : State) : s.dDrop.timer = s.timer := rfl
@[simp] theorem State.dDrop_uart (s : State) : s.dDrop.uart = s.uart := rfl
@[simp] theorem State.dDrop_extIrq (s : State) : s.dDrop.extIrq = s.extIrq := rfl
@[simp] theorem State.dDrop_mem (s : State) : s.dDrop.mem = s.mem := rfl
@[simp] theorem State.dDrop_inbox (s : State) : s.dDrop.inbox = s.inbox := rfl
@[simp] theorem State.dDrop_openReads (s : State) : s.dDrop.openReads = s.openReads := rfl
@[simp] theorem State.dDrop_r (s : State) : s.dDrop.r = s.r := rfl
@[simp] theorem State.dDrop_pntr (s : State) : s.dDrop.pntr = s.pntr := rfl
@[simp] theorem State.dDrop_ceWord (s : State) : s.dDrop.ceWord = s.ceWord := rfl

/-! ### replaceTwo -/

@[simp] theorem State.replaceTwo_cfg (s : State) (n : Nat) : (s.replaceTwo n).cfg = s.cfg := rfl
@[simp] theorem State.replaceTwo_pc (s : State) (n : Nat) : (s.replaceTwo n).pc = s.pc := rfl
@[simp] theorem State.replaceTwo_a (s : State) (n : Nat) : (s.replaceTwo n).a = s.a := rfl
@[simp] theorem State.replaceTwo_pa (s : State) (n : Nat) : (s.replaceTwo n).pa = s.pa := rfl
@[simp] theorem State.replaceTwo_pr (s : State) (n : Nat) : (s.replaceTwo n).pr = s.pr := rfl
@[simp] theorem State.replaceTwo_rs (s : State) (n : Nat) : (s.replaceTwo n).rs = s.rs := rfl
@[simp] theorem State.replaceTwo_rsp (s : State) (n : Nat) : (s.replaceTwo n).rsp = s.rsp := rfl
@[simp] theorem State.replaceTwo_ce (s : State) (n : Nat) : (s.replaceTwo n).ce = s.ce := rfl
@[simp] theorem State.replaceTwo_sa (s : State) (n : Nat) : (s.replaceTwo n).sa = s.sa := rfl
@[simp] theorem State.replaceTwo_spa (s : State) (n : Nat) : (s.replaceTwo n).spa = s.spa := rfl
@[simp] theorem State.replaceTwo_spr (s : State) (n : Nat) : (s.replaceTwo n).spr = s.spr := rfl
@[simp] theorem State.replaceTwo_sce (s : State) (n : Nat) : (s.replaceTwo n).sce = s.sce := rfl
@[simp] theorem State.replaceTwo_rsEvent (s : State) (n : Nat) : (s.replaceTwo n).rsEvent = s.rsEvent := rfl
@[simp] theorem State.replaceTwo_romInhibit (s : State) (n : Nat) : (s.replaceTwo n).romInhibit = s.romInhibit := rfl
@[simp] theorem State.replaceTwo_timer (s : State) (n : Nat) : (s.replaceTwo n).timer = s.timer := rfl
@[simp] theorem State.replaceTwo_uart (s : State) (n : Nat) : (s.replaceTwo n).uart = s.uart := rfl
@[simp] theorem State.replaceTwo_extIrq (s : State) (n : Nat) : (s.replaceTwo n).extIrq = s.extIrq := rfl
@[simp] theorem State.replaceTwo_mem (s : State) (n : Nat) : (s.replaceTwo n).mem = s.mem := rfl
@[simp] theorem State.replaceTwo_inbox (s : State) (n : Nat) : (s.replaceTwo n).inbox = s.inbox := rfl
@[simp] theorem State.replaceTwo_openReads (s : State) (n : Nat) : (s.replaceTwo n).openReads = s.openReads := rfl
@[simp] theorem State.replaceTwo_r (s : State) (n : Nat) : (s.replaceTwo n).r = s.r := rfl
@[simp] theorem State.replaceTwo_pntr (s : State) (n : Nat) : (s.replaceTwo n).pntr = s.pntr := rfl
@[simp] theorem State.replaceTwo_ceWord (s : State) (n : Nat) : (s.replaceTwo n).ceWord = s.ceWord := rfl

/-! ### setR -/

@[simp] theorem State.setR_cfg (s : State) (n : Nat) : (s.setR n).cfg = s.cfg := rfl
@[simp] theorem State.setR_pc (s : State) (n : Nat) : (s.setR n).pc = s.pc := rfl
@[simp] theorem State.setR_a (s : State) (n : Nat) : (s.setR n).a = s.a := rfl
@[simp] theorem State.setR_pa (s : State) (n : Nat) : (s.setR n).pa = s.pa := rfl
@[simp] theorem State.setR_pr (s : State) (n : Nat) : (s.setR n).pr = s.pr := rfl
@[simp] theorem State.setR_ds (s : State) (n : Nat) : (s.setR n).ds = s.ds := rfl
@[simp] theorem State.setR_dsp (s : State) (n : Nat) : (s.setR n).dsp = s.dsp := rfl
@[simp] theorem State.setR_rsp (s : State) (n : Nat) : (s.setR n).rsp = s.rsp := rfl
@[simp] theorem State.setR_ce (s : State) (n : Nat) : (s.setR n).ce = s.ce := rfl
@[simp] theorem State.setR_sa (s : State) (n : Nat) : (s.setR n).sa = s.sa := rfl
@[simp] theorem State.setR_spa (s : State) (n : Nat) : (s.setR n).spa = s.spa := rfl
@[simp] theorem State.setR_spr (s : State) (n : Nat) : (s.setR n).spr = s.spr := rfl
@[simp] theorem State.setR_sce (s : State) (n : Nat) : (s.setR n).sce = s.sce := rfl
@[simp] theorem State.setR_dsEvent (s : State) (n : Nat) : (s.setR n).dsEvent = s.dsEvent := rfl
@[simp] theorem State.setR_rsEvent (s : State) (n : Nat) : (s.setR n).rsEvent = s.rsEvent := rfl
@[simp] theorem State.setR_romInhibit (s : State) (n : Nat) : (s.setR n).romInhibit = s.romInhibit := rfl
@[simp] theorem State.setR_timer (s : State) (n : Nat) : (s.setR n).timer = s.timer := rfl
@[simp] theorem State.setR_uart (s : State) (n : Nat) : (s.setR n).uart = s.uart := rfl
@[simp] theorem State.setR_extIrq (s : State) (n : Nat) : (s.setR n).extIrq = s.extIrq := rfl
@[simp] theorem State.setR_mem (s : State) (n : Nat) : (s.setR n).mem = s.mem := rfl
@[simp] theorem State.setR_inbox (s : State) (n : Nat) : (s.setR n).inbox = s.inbox := rfl
@[simp] theorem State.setR_openReads (s : State) (n : Nat) : (s.setR n).openReads = s.openReads := rfl
@[simp] theorem State.setR_t (s : State) (n : Nat) : (s.setR n).t = s.t := rfl
@[simp] theorem State.setR_second (s : State) (n : Nat) : (s.setR n).second = s.second := rfl
@[simp] theorem State.setR_pntt (s : State) (n : Nat) : (s.setR n).pntt = s.pntt := rfl
@[simp] theorem State.setR_pntr (s : State) (n : Nat) : (s.setR n).pntr = s.pntr := rfl
@[simp] theorem State.setR_ceWord (s : State) (n : Nat) : (s.setR n).ceWord = s.ceWord := rfl

/-! ### rPush -/

@[simp] theorem State.rPush_cfg (s : State) (n : Nat) : (s.rPush n).cfg = s.cfg := rfl
@[simp] theorem State.rPush_pc (s : State) (n : Nat) : (s.rPush n).pc = s.pc := rfl
@[simp] theorem State.rPush_a (s : State) (n : Nat) : (s.rPush n).a = s.a := rfl
@[simp] theorem State.rPush_pa (s : State) (n : Nat) : (s.rPush n).pa = s.pa := rfl
@[simp] theorem State.rPush_pr (s : State) (n : Nat) : (s.rPush n).pr = s.pr := rfl
@[simp] theorem State.rPush_ds (s : State) (n : Nat) : (s.rPush n).ds = s.ds := rfl
@[simp] theorem State.rPush_dsp (s : State) (n : Nat) : (s.rPush n).dsp = s.dsp := rfl
@[simp] theorem State.rPush_ce (s : State) (n : Nat) : (s.rPush n).ce = s.ce := rfl
@[simp] theorem State.rPush_sa (s : State) (n : Nat) : (s.rPush n).sa = s.sa := rfl
@[simp] theorem State.rPush_spa (s : State) (n : Nat) : (s.rPush n).spa = s.spa := rfl
@[simp] theorem State.rPush_spr (s : State) (n : Nat) : (s.rPush n).spr = s.spr := rfl
@[simp] theorem State.rPush_sce (s : State) (n : Nat) : (s.rPush n).sce = s.sce := rfl
@[simp] theorem State.rPush_dsEvent (s : State) (n : Nat) : (s.rPush n).dsEvent = s.dsEvent := rfl
@[simp] theorem State.rPush_romInhibit (s : State) (n : Nat) : (s.rPush n).romInhibit = s.romInhibit := rfl
@[simp] theorem State.rPush_timer (s : State) (n : Nat) : (s.rPush n).timer = s.timer := rfl
@[simp] theorem State.rPush_uart (s : State) (n : Nat) : (s.rPush n).uart = s.uart := rfl
@[simp] theorem State.rPush_extIrq (s : State) (n : Nat) : (s.rPush n).extIrq = s.extIrq := rfl
@[simp] theorem State.rPush_mem (s : State) (n : Nat) : (s.rPush n).mem = s.mem := rfl
@[simp] theorem State.rPush_inbox (s : State) (n : Nat) : (s.rPush n).inbox = s.inbox := rfl
@[simp] theorem State.rPush_openReads (s : State) (n : Nat) : (s.rPush n).openReads = s.openReads := rfl
@[simp] theorem State.rPush_t (s : State) (n : Nat) : (s.rPush n).t = s.t := rfl
@[simp] theorem State.rPush_second (s : State) (n : Nat) : (s.rPush n).second = s.second := rfl
@[simp] theorem State.rPush_pntt (s : State) (n : Nat) : (s.rPush n).pntt = s.pntt := rfl
@[simp] theorem State.rPush_ceWord (s : State) (n : Nat) : (s.rPush n).ceWord = s.ceWord := rfl

/-! ### rDrop -/

@[simp] theorem State.rDrop_cfg (s : State) : s.rDrop.cfg = s.cfg := rfl
@[simp] theorem State.rDrop_pc (s : State) : s.rDrop.pc = s.pc := rfl
@[simp] theorem State.rDrop_a (s : State) : s.rDrop.a = s.a := rfl
@[simp] theorem State.rDrop_pa (s : State) : s.rDrop.pa = s.pa := rfl
@[simp] theorem State.rDrop_pr (s : State) : s.rDrop.pr = s.pr := rfl
@[simp] theorem State.rDrop_ds (s : State) : s.rDrop.ds = s.ds := rfl
@[simp] theorem State.rDrop_dsp (s : State) : s.rDrop.dsp = s.dsp := rfl
@[simp] theorem State.rDrop_rs (s : State) : s.rDrop.rs = s.rs := rfl
@[simp] theorem State.rDrop_ce (s : State) : s.rDrop.ce = s.ce := rfl
@[simp] theorem State.rDrop_sa (s : State) : s.rDrop.sa = s.sa := rfl
@[simp] theorem State.rDrop_spa (s : State) : s.rDrop.spa = s.spa := rfl
@[simp] theorem State.rDrop_spr (s : State) : s.rDrop.spr = s.spr := rfl
@[simp] theorem State.rDrop_sce (s : State) : s.rDrop.sce = s.sce := rfl
@[simp] theorem State.rDrop_dsEvent (s : State) : s.rDrop.dsEvent = s.dsEvent := rfl
@[simp] theorem State.rDrop_romInhibit (s : State) : s.rDrop.romInhibit = s.romInhibit := rfl
@[simp] theorem State.rDrop_timer (s : State) : s.rDrop.timer = s.timer := rfl
@[simp] theorem State.rDrop_uart (s : State) : s.rDrop.uart = s.uart := rfl
@[simp] theorem State.rDrop_extIrq (s : State) : s.rDrop.extIrq = s.extIrq := rfl
@[simp] theorem State.rDrop_mem (s : State) : s.rDrop.mem = s.mem := rfl
@[simp] theorem State.rDrop_inbox (s : State) : s.rDrop.inbox = s.inbox := rfl
@[simp] theorem State.rDrop_openReads (s : State) : s.rDrop.openReads = s.openReads := rfl
@[simp] theorem State.rDrop_t (s : State) : s.rDrop.t = s.t := rfl
@[simp] theorem State.rDrop_second (s : State) : s.rDrop.second = s.second := rfl
@[simp] theorem State.rDrop_pntt (s : State) : s.rDrop.pntt = s.pntt := rfl
@[simp] theorem State.rDrop_ceWord (s : State) : s.rDrop.ceWord = s.ceWord := rfl

/-! ### noteRead -/

@[simp] theorem State.noteRead_cfg (s : State) (a : Addr) : (s.noteRead a).cfg = s.cfg := rfl
@[simp] theorem State.noteRead_pc (s : State) (a : Addr) : (s.noteRead a).pc = s.pc := rfl
@[simp] theorem State.noteRead_a (s : State) (a : Addr) : (s.noteRead a).a = s.a := rfl
@[simp] theorem State.noteRead_pa (s : State) (a : Addr) : (s.noteRead a).pa = s.pa := rfl
@[simp] theorem State.noteRead_pr (s : State) (a : Addr) : (s.noteRead a).pr = s.pr := rfl
@[simp] theorem State.noteRead_ds (s : State) (a : Addr) : (s.noteRead a).ds = s.ds := rfl
@[simp] theorem State.noteRead_dsp (s : State) (a : Addr) : (s.noteRead a).dsp = s.dsp := rfl
@[simp] theorem State.noteRead_rs (s : State) (a : Addr) : (s.noteRead a).rs = s.rs := rfl
@[simp] theorem State.noteRead_rsp (s : State) (a : Addr) : (s.noteRead a).rsp = s.rsp := rfl
@[simp] theorem State.noteRead_ce (s : State) (a : Addr) : (s.noteRead a).ce = s.ce := rfl
@[simp] theorem State.noteRead_sa (s : State) (a : Addr) : (s.noteRead a).sa = s.sa := rfl
@[simp] theorem State.noteRead_spa (s : State) (a : Addr) : (s.noteRead a).spa = s.spa := rfl
@[simp] theorem State.noteRead_spr (s : State) (a : Addr) : (s.noteRead a).spr = s.spr := rfl
@[simp] theorem State.noteRead_sce (s : State) (a : Addr) : (s.noteRead a).sce = s.sce := rfl
@[simp] theorem State.noteRead_dsEvent (s : State) (a : Addr) : (s.noteRead a).dsEvent = s.dsEvent := rfl
@[simp] theorem State.noteRead_rsEvent (s : State) (a : Addr) : (s.noteRead a).rsEvent = s.rsEvent := rfl
@[simp] theorem State.noteRead_timer (s : State) (a : Addr) : (s.noteRead a).timer = s.timer := rfl
@[simp] theorem State.noteRead_uart (s : State) (a : Addr) : (s.noteRead a).uart = s.uart := rfl
@[simp] theorem State.noteRead_extIrq (s : State) (a : Addr) : (s.noteRead a).extIrq = s.extIrq := rfl
@[simp] theorem State.noteRead_mem (s : State) (a : Addr) : (s.noteRead a).mem = s.mem := rfl
@[simp] theorem State.noteRead_inbox (s : State) (a : Addr) : (s.noteRead a).inbox = s.inbox := rfl
@[simp] theorem State.noteRead_t (s : State) (a : Addr) : (s.noteRead a).t = s.t := rfl
@[simp] theorem State.noteRead_second (s : State) (a : Addr) : (s.noteRead a).second = s.second := rfl
@[simp] theorem State.noteRead_r (s : State) (a : Addr) : (s.noteRead a).r = s.r := rfl
@[simp] theorem State.noteRead_pntt (s : State) (a : Addr) : (s.noteRead a).pntt = s.pntt := rfl
@[simp] theorem State.noteRead_pntr (s : State) (a : Addr) : (s.noteRead a).pntr = s.pntr := rfl
@[simp] theorem State.noteRead_ceWord (s : State) (a : Addr) : (s.noteRead a).ceWord = s.ceWord := rfl

/-! ### passWord -/

@[simp] theorem State.passWord_cfg (s : State) : s.passWord.cfg = s.cfg := rfl
@[simp] theorem State.passWord_a (s : State) : s.passWord.a = s.a := rfl
@[simp] theorem State.passWord_pa (s : State) : s.passWord.pa = s.pa := rfl
@[simp] theorem State.passWord_pr (s : State) : s.passWord.pr = s.pr := rfl
@[simp] theorem State.passWord_ds (s : State) : s.passWord.ds = s.ds := rfl
@[simp] theorem State.passWord_dsp (s : State) : s.passWord.dsp = s.dsp := rfl
@[simp] theorem State.passWord_rs (s : State) : s.passWord.rs = s.rs := rfl
@[simp] theorem State.passWord_rsp (s : State) : s.passWord.rsp = s.rsp := rfl
@[simp] theorem State.passWord_ce (s : State) : s.passWord.ce = s.ce := rfl
@[simp] theorem State.passWord_sa (s : State) : s.passWord.sa = s.sa := rfl
@[simp] theorem State.passWord_spa (s : State) : s.passWord.spa = s.spa := rfl
@[simp] theorem State.passWord_spr (s : State) : s.passWord.spr = s.spr := rfl
@[simp] theorem State.passWord_sce (s : State) : s.passWord.sce = s.sce := rfl
@[simp] theorem State.passWord_dsEvent (s : State) : s.passWord.dsEvent = s.dsEvent := rfl
@[simp] theorem State.passWord_rsEvent (s : State) : s.passWord.rsEvent = s.rsEvent := rfl
@[simp] theorem State.passWord_timer (s : State) : s.passWord.timer = s.timer := rfl
@[simp] theorem State.passWord_uart (s : State) : s.passWord.uart = s.uart := rfl
@[simp] theorem State.passWord_extIrq (s : State) : s.passWord.extIrq = s.extIrq := rfl
@[simp] theorem State.passWord_mem (s : State) : s.passWord.mem = s.mem := rfl
@[simp] theorem State.passWord_inbox (s : State) : s.passWord.inbox = s.inbox := rfl
@[simp] theorem State.passWord_t (s : State) : s.passWord.t = s.t := rfl
@[simp] theorem State.passWord_second (s : State) : s.passWord.second = s.second := rfl
@[simp] theorem State.passWord_r (s : State) : s.passWord.r = s.r := rfl
@[simp] theorem State.passWord_pntt (s : State) : s.passWord.pntt = s.pntt := rfl
@[simp] theorem State.passWord_pntr (s : State) : s.passWord.pntr = s.pntr := rfl
@[simp] theorem State.passWord_ceWord (s : State) : s.passWord.ceWord = s.ceWord := rfl

/-! ### storeByte -/

@[simp] theorem State.storeByte_cfg (s : State) (a : Addr) (v : Byte) : (s.storeByte a v).cfg = s.cfg := rfl
@[simp] theorem State.storeByte_pc (s : State) (a : Addr) (v : Byte) : (s.storeByte a v).pc = s.pc := rfl
@[simp] theorem State.storeByte_a (s : State) (a : Addr) (v : Byte) : (s.storeByte a v).a = s.a := rfl
@[simp] theorem State.storeByte_pa (s : State) (a : Addr) (v : Byte) : (s.storeByte a v).pa = s.pa := rfl
@[simp] theorem State.storeByte_pr (s : State) (a : Addr) (v : Byte) : (s.storeByte a v).pr = s.pr := rfl
@[simp] theorem State.storeByte_ds (s : State) (a : Addr) (v : Byte) : (s.storeByte a v).ds = s.ds := rfl
@[simp] theorem State.storeByte_dsp (s : State) (a : Addr) (v : Byte) : (s.storeByte a v).dsp = s.dsp := rfl
@[simp] theorem State.storeByte_rs (s : State) (a : Addr) (v : Byte) : (s.storeByte a v).rs = s.rs := rfl
@[simp] theorem State.storeByte_rsp (s : State) (a : Addr) (v : Byte) : (s.storeByte a v).rsp = s.rsp := rfl
@[simp] theorem State.storeByte_ce (s : State) (a : Addr) (v : Byte) : (s.storeByte a v).ce = s.ce := rfl
@[simp] theorem State.storeByte_sa (s : State) (a : Addr) (v : Byte) : (s.storeByte a v).sa = s.sa := rfl
@[simp] theorem State.storeByte_spa (s : State) (a : Addr) (v : Byte) : (s.storeByte a v).spa = s.spa := rfl
@[simp] theorem State.storeByte_spr (s : State) (a : Addr) (v : Byte) : (s.storeByte a v).spr = s.spr := rfl
@[simp] theorem State.storeByte_sce (s : State) (a : Addr) (v : Byte) : (s.storeByte a v).sce = s.sce := rfl
@[simp] theorem State.storeByte_dsEvent (s : State) (a : Addr) (v : Byte) : (s.storeByte a v).dsEvent = s.dsEvent := rfl
@[simp] theorem State.storeByte_rsEvent (s : State) (a : Addr) (v : Byte) : (s.storeByte a v).rsEvent = s.rsEvent := rfl
@[simp] theorem State.storeByte_romInhibit (s : State) (a : Addr) (v : Byte) : (s.storeByte a v).romInhibit = s.romInhibit := rfl
@[simp] theorem State.storeByte_timer (s : State) (a : Addr) (v : Byte) : (s.storeByte a v).timer = s.timer := rfl
@[simp] theorem State.storeByte_uart (s : State) (a : Addr) (v : Byte) : (s.storeByte a v).uart = s.uart := rfl
@[simp] theorem State.storeByte_extIrq (s : State) (a : Addr) (v : Byte) : (s.storeByte a v).extIrq = s.extIrq := rfl
@[simp] theorem State.storeByte_inbox (s : State) (a : Addr) (v : Byte) : (s.storeByte a v).inbox = s.inbox := rfl
@[simp] theorem State.storeByte_openReads (s : State) (a : Addr) (v : Byte) : (s.storeByte a v).openReads = s.openReads := rfl
@[simp] theorem State.storeByte_t (s : State) (a : Addr) (v : Byte) : (s.storeByte a v).t = s.t := rfl
@[simp] theorem State.storeByte_second (s : State) (a : Addr) (v : Byte) : (s.storeByte a v).second = s.second := rfl
@[simp] theorem State.storeByte_r (s : State) (a : Addr) (v : Byte) : (s.storeByte a v).r = s.r := rfl
@[simp] theorem State.storeByte_pntt (s : State) (a : Addr) (v : Byte) : (s.storeByte a v).pntt = s.pntt := rfl
@[simp] theorem State.storeByte_pntr (s : State) (a : Addr) (v : Byte) : (s.storeByte a v).pntr = s.pntr := rfl
@[simp] theorem State.storeByte_ceWord (s : State) (a : Addr) (v : Byte) : (s.storeByte a v).ceWord = s.ceWord := rfl

/-! ### storeWord -/

@[simp] theorem State.storeWord_cfg (s : State) (a : Addr) (v : Word) : (s.storeWord a v).cfg = s.cfg := rfl
@[simp] theorem State.storeWord_pc (s : State) (a : Addr) (v : Word) : (s.storeWord a v).pc = s.pc := rfl
@[simp] theorem State.storeWord_a (s : State) (a : Addr) (v : Word) : (s.storeWord a v).a = s.a := rfl
@[simp] theorem State.storeWord_pa (s : State) (a : Addr) (v : Word) : (s.storeWord a v).pa = s.pa := rfl
@[simp] theorem State.storeWord_pr (s : State) (a : Addr) (v : Word) : (s.storeWord a v).pr = s.pr := rfl
@[simp] theorem State.storeWord_ds (s : State) (a : Addr) (v : Word) : (s.storeWord a v).ds = s.ds := rfl
@[simp] theorem State.storeWord_dsp (s : State) (a : Addr) (v : Word) : (s.storeWord a v).dsp = s.dsp := rfl
@[simp] theorem State.storeWord_rs (s : State) (a : Addr) (v : Word) : (s.storeWord a v).rs = s.rs := rfl
@[simp] theorem State.storeWord_rsp (s : State) (a : Addr) (v : Word) : (s.storeWord a v).rsp = s.rsp := rfl
@[simp] theorem State.storeWord_ce (s : State) (a : Addr) (v : Word) : (s.storeWord a v).ce = s.ce := rfl
@[simp] theorem State.storeWord_sa (s : State) (a : Addr) (v : Word) : (s.storeWord a v).sa = s.sa := rfl
@[simp] theorem State.storeWord_spa (s : State) (a : Addr) (v : Word) : (s.storeWord a v).spa = s.spa := rfl
@[simp] theorem State.storeWord_spr (s : State) (a : Addr) (v : Word) : (s.storeWord a v).spr = s.spr := rfl
@[simp] theorem State.storeWord_sce (s : State) (a : Addr) (v : Word) : (s.storeWord a v).sce = s.sce := rfl
@[simp] theorem State.storeWord_dsEvent (s : State) (a : Addr) (v : Word) : (s.storeWord a v).dsEvent = s.dsEvent := rfl
@[simp] theorem State.storeWord_rsEvent (s : State) (a : Addr) (v : Word) : (s.storeWord a v).rsEvent = s.rsEvent := rfl
@[simp] theorem State.storeWord_romInhibit (s : State) (a : Addr) (v : Word) : (s.storeWord a v).romInhibit = s.romInhibit := rfl
@[simp] theorem State.storeWord_timer (s : State) (a : Addr) (v : Word) : (s.storeWord a v).timer = s.timer := rfl
@[simp] theorem State.storeWord_uart (s : State) (a : Addr) (v : Word) : (s.storeWord a v).uart = s.uart := rfl
@[simp] theorem State.storeWord_extIrq (s : State) (a : Addr) (v : Word) : (s.storeWord a v).extIrq = s.extIrq := rfl
@[simp] theorem State.storeWord_inbox (s : State) (a : Addr) (v : Word) : (s.storeWord a v).inbox = s.inbox := rfl
@[simp] theorem State.storeWord_openReads (s : State) (a : Addr) (v : Word) : (s.storeWord a v).openReads = s.openReads := rfl
@[simp] theorem State.storeWord_t (s : State) (a : Addr) (v : Word) : (s.storeWord a v).t = s.t := rfl
@[simp] theorem State.storeWord_second (s : State) (a : Addr) (v : Word) : (s.storeWord a v).second = s.second := rfl
@[simp] theorem State.storeWord_r (s : State) (a : Addr) (v : Word) : (s.storeWord a v).r = s.r := rfl
@[simp] theorem State.storeWord_pntt (s : State) (a : Addr) (v : Word) : (s.storeWord a v).pntt = s.pntt := rfl
@[simp] theorem State.storeWord_pntr (s : State) (a : Addr) (v : Word) : (s.storeWord a v).pntr = s.pntr := rfl
@[simp] theorem State.storeWord_ceWord (s : State) (a : Addr) (v : Word) : (s.storeWord a v).ceWord = s.ceWord := rfl

/-! ### store -/

@[simp] theorem State.store_cfg (s : State) (a : Addr) (v : Cell) : (s.store a v).cfg = s.cfg := by unfold State.store; split <;> rfl
@[simp] theorem State.store_pc (s : State) (a : Addr) (v : Cell) : (s.store a v).pc = s.pc := by unfold State.store; split <;> rfl
@[simp] theorem State.store_a (s : State) (a : Addr) (v : Cell) : (s.store a v).a = s.a := by unfold State.store; split <;> rfl
@[simp] theorem State.store_pa (s : State) (a : Addr) (v : Cell) : (s.store a v).pa = s.pa := by unfold State.store; split <;> rfl
@[simp] theorem State.store_pr (s : State) (a : Addr) (v : Cell) : (s.store a v).pr = s.pr := by unfold State.store; split <;> rfl
@[simp] theorem State.store_ds (s : State) (a : Addr) (v : Cell) : (s.store a v).ds = s.ds := by unfold State.store; split <;> rfl
@[simp] theorem State.store_dsp (s : State) (a : Addr) (v : Cell) : (s.store a v).dsp = s.dsp := by unfold State.store; split <;> rfl
@[simp] theorem State.store_rs (s : State) (a : Addr) (v : Cell) : (s.store a v).rs = s.rs := by unfold State.store; split <;> rfl
@[simp] theorem State.store_rsp (s : State) (a : Addr) (v : Cell) : (s.store a v).rsp = s.rsp := by unfold State.store; split <;> rfl
@[simp] theorem State.store_ce (s : State) (a : Addr) (v : Cell) : (s.store a v).ce = s.ce := by unfold State.store; split <;> rfl
@[simp] theorem State.store_sa (s : State) (a : Addr) (v : Cell) : (s.store a v).sa = s.sa := by unfold State.store; split <;> rfl
@[simp] theorem State.store_spa (s : State) (a : Addr) (v : Cell) : (s.store a v).spa = s.spa := by unfold State.store; split <;> rfl
@[simp] theorem State.store_spr (s : State) (a : Addr) (v : Cell) : (s.store a v).spr = s.spr := by unfold State.store; split <;> rfl
@[simp] theorem State.store_sce (s : State) (a : Addr) (v : Cell) : (s.store a v).sce = s.sce := by unfold State.store; split <;> rfl
@[simp] theorem State.store_dsEvent (s : State) (a : Addr) (v : Cell) : (s.store a v).dsEvent = s.dsEvent := by unfold State.store; split <;> rfl
@[simp] theorem State.store_rsEvent (s : State) (a : Addr) (v : Cell) : (s.store a v).rsEvent = s.rsEvent := by unfold State.store; split <;> rfl
@[simp] theorem State.store_romInhibit (s : State) (a : Addr) (v : Cell) : (s.store a v).romInhibit = s.romInhibit := by unfold State.store; split <;> rfl
@[simp] theorem State.store_timer (s : State) (a : Addr) (v : Cell) : (s.store a v).timer = s.timer := by unfold State.store; split <;> rfl
@[simp] theorem State.store_uart (s : State) (a : Addr) (v : Cell) : (s.store a v).uart = s.uart := by unfold State.store; split <;> rfl
@[simp] theorem State.store_extIrq (s : State) (a : Addr) (v : Cell) : (s.store a v).extIrq = s.extIrq := by unfold State.store; split <;> rfl
@[simp] theorem State.store_inbox (s : State) (a : Addr) (v : Cell) : (s.store a v).inbox = s.inbox := by unfold State.store; split <;> rfl
@[simp] theorem State.store_openReads (s : State) (a : Addr) (v : Cell) : (s.store a v).openReads = s.openReads := by unfold State.store; split <;> rfl
@[simp] theorem State.store_t (s : State) (a : Addr) (v : Cell) : (s.store a v).t = s.t := by simp [State.t]
@[simp] theorem State.store_second (s : State) (a : Addr) (v : Cell) : (s.store a v).second = s.second := by simp [State.second]
@[simp] theorem State.store_r (s : State) (a : Addr) (v : Cell) : (s.store a v).r = s.r := by simp [State.r]
@[simp] theorem State.store_pntt (s : State) (a : Addr) (v : Cell) : (s.store a v).pntt = s.pntt := by simp [State.pntt]
@[simp] theorem State.store_pntr (s : State) (a : Addr) (v : Cell) : (s.store a v).pntr = s.pntr := by simp [State.pntr]
@[simp] theorem State.store_ceWord (s : State) (a : Addr) (v : Cell) : (s.store a v).ceWord = s.ceWord := by simp [State.ceWord]

/-! ### incA -/

@[simp] theorem State.incA_cfg (s : State) (k : Nat) : (s.incA k).cfg = s.cfg := by unfold State.incA; split <;> rfl
@[simp] theorem State.incA_pc (s : State) (k : Nat) : (s.incA k).pc = s.pc := by unfold State.incA; split <;> rfl
@[simp] theorem State.incA_pr (s : State) (k : Nat) : (s.incA k).pr = s.pr := by unfold State.incA; split <;> rfl
@[simp] theorem State.incA_ds (s : State) (k : Nat) : (s.incA k).ds = s.ds := by unfold State.incA; split <;> rfl
@[simp] theorem State.incA_dsp (s : State) (k : Nat) : (s.incA k).dsp = s.dsp := by unfold State.incA; split <;> rfl
@[simp] theorem State.incA_rs (s : State) (k : Nat) : (s.incA k).rs = s.rs := by unfold State.incA; split <;> rfl
@[simp] theorem State.incA_rsp (s : State) (k : Nat) : (s.incA k).rsp = s.rsp := by unfold State.incA; split <;> rfl
@[simp] theorem State.incA_ce (s : State) (k : Nat) : (s.incA k).ce = s.ce := by unfold State.incA; split <;> rfl
@[simp] theorem State.incA_sa (s : State) (k : Nat) : (s.incA k).sa = s.sa := by unfold State.incA; split <;> rfl
@[simp] theorem State.incA_spa (s : State) (k : Nat) : (s.incA k).spa = s.spa := by unfold State.incA; split <;> rfl
@[simp] theorem State.incA_spr (s : State) (k : Nat) : (s.incA k).spr = s.spr := by unfold State.incA; split <;> rfl
@[simp] theorem State.incA_sce (s : State) (k : Nat) : (s.incA k).sce = s.sce := by unfold State.incA; split <;> rfl
@[simp] theorem State.incA_dsEvent (s : State) (k : Nat) : (s.incA k).dsEvent = s.dsEvent := by unfold State.incA; split <;> rfl
@[simp] theorem State.incA_rsEvent (s : State) (k : Nat) : (s.incA k).rsEvent = s.rsEvent := by unfold State.incA; split <;> rfl
@[simp] theorem State.incA_romInhibit (s : State) (k : Nat) : (s.incA k).romInhibit = s.romInhibit := by unfold State.incA; split <;> rfl
@[simp] theorem State.incA_timer (s : State) (k : Nat) : (s.incA k).timer = s.timer := by unfold State.incA; split <;> rfl
@[simp] theorem State.incA_uart (s : State) (k : Nat) : (s.incA k).uart = s.uart := by unfold State.incA; split <;> rfl
@[simp] theorem State.incA_extIrq (s : State) (k : Nat) : (s.incA k).extIrq = s.extIrq := by unfold State.incA; split <;> rfl
@[simp] theorem State.incA_mem (s : State) (k : Nat) : (s.incA k).mem = s.mem := by unfold State.incA; split <;> rfl
@[simp] theorem State.incA_inbox (s : State) (k : Nat) : (s.incA k).inbox = s.inbox := by unfold State.incA; split <;> rfl
@[simp] theorem State.incA_openReads (s : State) (k : Nat) : (s.incA k).openReads = s.openReads := by unfold State.incA; split <;> rfl
@[simp] theorem State.incA_t (s : State) (k : Nat) : (s.incA k).t = s.t := by simp [State.t]
@[simp] theorem State.incA_second (s : State) (k : Nat) : (s.incA k).second = s.second := by simp [State.second]
@[simp] theorem State.incA_r (s : State) (k : Nat) : (s.incA k).r = s.r := by simp [State.r]
@[simp] theorem State.incA_pntt (s : State) (k : Nat) : (s.incA k).pntt = s.pntt := by simp [State.pntt]
@[simp] theorem State.incA_pntr (s : State) (k : Nat) : (s.incA k).pntr = s.pntr := by simp [State.pntr]
@[simp] theorem State.incA_ceWord (s : State) (k : Nat) : (s.incA k).ceWord = s.ceWord := by simp [State.ceWord]

/-! ### incR -/

@[simp] theorem State.incR_cfg (s : State) (k : Nat) : (s.incR k).cfg = s.cfg := by unfold State.incR; split <;> rfl
@[simp] theorem State.incR_pc (s : State) (k : Nat) : (s.incR k).pc = s.pc := by unfold State.incR; split <;> rfl
@[simp] theorem State.incR_a (s : State) (k : Nat) : (s.incR k).a = s.a := by unfold State.incR; split <;> rfl
@[simp] theorem State.incR_pa (s : State) (k : Nat) : (s.incR k).pa = s.pa := by unfold State.incR; split <;> rfl
@[simp] theorem State.incR_ds (s : State) (k : Nat) : (s.incR k).ds = s.ds := by unfold State.incR; split <;> rfl
@[simp] theorem State.incR_dsp (s : State) (k : Nat) : (s.incR k).dsp = s.dsp := by unfold State.incR; split <;> rfl
@[simp] theorem State.incR_rsp (s : State) (k : Nat) : (s.incR k).rsp = s.rsp := by unfold State.incR; split <;> rfl
@[simp] theorem State.incR_ce (s : State) (k : Nat) : (s.incR k).ce = s.ce := by unfold State.incR; split <;> rfl
@[simp] theorem State.incR_sa (s : State) (k : Nat) : (s.incR k).sa = s.sa := by unfold State.incR; split <;> rfl
@[simp] theorem State.incR_spa (s : State) (k : Nat) : (s.incR k).spa = s.spa := by unfold State.incR; split <;> rfl
@[simp] theorem State.incR_spr (s : State) (k : Nat) : (s.incR k).spr = s.spr := by unfold State.incR; split <;> rfl
@[simp] theorem State.incR_sce (s : State) (k : Nat) : (s.incR k).sce = s.sce := by unfold State.incR; split <;> rfl
@[simp] theorem State.incR_dsEvent (s : State) (k : Nat) : (s.incR k).dsEvent = s.dsEvent := by unfold State.incR; split <;> rfl
@[simp] theorem State.incR_rsEvent (s : State) (k : Nat) : (s.incR k).rsEvent = s.rsEvent := by unfold State.incR; split <;> rfl
@[simp] theorem State.incR_romInhibit (s : State) (k : Nat) : (s.incR k).romInhibit = s.romInhibit := by unfold State.incR; split <;> rfl
@[simp] theorem State.incR_timer (s : State) (k : Nat) : (s.incR k).timer = s.timer := by unfold State.incR; split <;> rfl
@[simp] theorem State.incR_uart (s : State) (k : Nat) : (s.incR k).uart = s.uart := by unfold State.incR; split <;> rfl
@[simp] theorem State.incR_extIrq (s : State) (k : Nat) : (s.incR k).extIrq = s.extIrq := by unfold State.incR; split <;> rfl
@[simp] theorem State.incR_mem (s : State) (k : Nat) : (s.incR k).mem = s.mem := by unfold State.incR; split <;> rfl
@[simp] theorem State.incR_inbox (s : State) (k : Nat) : (s.incR k).inbox = s.inbox := by unfold State.incR; split <;> rfl
@[simp] theorem State.incR_openReads (s : State) (k : Nat) : (s.incR k).openReads = s.openReads := by unfold State.incR; split <;> rfl
@[simp] theorem State.incR_t (s : State) (k : Nat) : (s.incR k).t = s.t := by simp [State.t]
@[simp] theorem State.incR_second (s : State) (k : Nat) : (s.incR k).second = s.second := by simp [State.second]
@[simp] theorem State.incR_pntt (s : State) (k : Nat) : (s.incR k).pntt = s.pntt := by simp [State.pntt]
@[simp] theorem State.incR_pntr (s : State) (k : Nat) : (s.incR k).pntr = s.pntr := by simp [State.pntr]
@[simp] theorem State.incR_ceWord (s : State) (k : Nat) : (s.incR k).ceWord = s.ceWord := by simp [State.ceWord]

/-! ### branch -/

@[simp] theorem State.branch_cfg (s : State) (d : Movement) : (s.branch d).cfg = s.cfg := rfl
@[simp] theorem State.branch_a (s : State) (d : Movement) : (s.branch d).a = s.a := rfl
@[simp] theorem State.branch_pa (s : State) (d : Movement) : (s.branch d).pa = s.pa := rfl
@[simp] theorem State.branch_pr (s : State) (d : Movement) : (s.branch d).pr = s.pr := rfl
@[simp] theorem State.branch_ds (s : State) (d : Movement) : (s.branch d).ds = s.ds := rfl
@[simp] theorem State.branch_dsp (s : State) (d : Movement) : (s.branch d).dsp = s.dsp := rfl
@[simp] theorem State.branch_rs (s : State) (d : Movement) : (s.branch d).rs = s.rs := rfl
@[simp] theorem State.branch_rsp (s : State) (d : Movement) : (s.branch d).rsp = s.rsp := rfl
@[simp] theorem State.branch_ce (s : State) (d : Movement) : (s.branch d).ce = s.ce := rfl
@[simp] theorem State.branch_sa (s : State) (d : Movement) : (s.branch d).sa = s.sa := rfl
@[simp] theorem State.branch_spa (s : State) (d : Movement) : (s.branch d).spa = s.spa := rfl
@[simp] theorem State.branch_spr (s : State) (d : Movement) : (s.branch d).spr = s.spr := rfl
@[simp] theorem State.branch_sce (s : State) (d : Movement) : (s.branch d).sce = s.sce := rfl
@[simp] theorem State.branch_dsEvent (s : State) (d : Movement) : (s.branch d).dsEvent = s.dsEvent := rfl
@[simp] theorem State.branch_rsEvent (s : State) (d : Movement) : (s.branch d).rsEvent = s.rsEvent := rfl
@[simp] theorem State.branch_romInhibit (s : State) (d : Movement) : (s.branch d).romInhibit = s.romInhibit := rfl
@[simp] theorem State.branch_timer (s : State) (d : Movement) : (s.branch d).timer = s.timer := rfl
@[simp] theorem State.branch_uart (s : State) (d : Movement) : (s.branch d).uart = s.uart := rfl
@[simp] theorem State.branch_extIrq (s : State) (d : Movement) : (s.branch d).extIrq = s.extIrq := rfl
@[simp] theorem State.branch_mem (s : State) (d : Movement) : (s.branch d).mem = s.mem := rfl
@[simp] theorem State.branch_inbox (s : State) (d : Movement) : (s.branch d).inbox = s.inbox := rfl
@[simp] theorem State.branch_openReads (s : State) (d : Movement) : (s.branch d).openReads = s.openReads := rfl
@[simp] theorem State.branch_t (s : State) (d : Movement) : (s.branch d).t = s.t := rfl
@[simp] theorem State.branch_second (s : State) (d : Movement) : (s.branch d).second = s.second := rfl
@[simp] theorem State.branch_r (s : State) (d : Movement) : (s.branch d).r = s.r := rfl
@[simp] theorem State.branch_pntt (s : State) (d : Movement) : (s.branch d).pntt = s.pntt := rfl
@[simp] theorem State.branch_pntr (s : State) (d : Movement) : (s.branch d).pntr = s.pntr := rfl
@[simp] theorem State.branch_ceWord (s : State) (d : Movement) : (s.branch d).ceWord = s.ceWord := rfl

/-! ### pushPc -/

@[simp] theorem State.pushPc_cfg (s : State) (v : Addr) : (s.pushPc v).cfg = s.cfg := by unfold State.pushPc; split <;> rfl
@[simp] theorem State.pushPc_pc (s : State) (v : Addr) : (s.pushPc v).pc = s.pc := by unfold State.pushPc; split <;> rfl
@[simp] theorem State.pushPc_a (s : State) (v : Addr) : (s.pushPc v).a = s.a := by unfold State.pushPc; split <;> rfl
@[simp] theorem State.pushPc_pa (s : State) (v : Addr) : (s.pushPc v).pa = s.pa := by unfold State.pushPc; split <;> rfl
@[simp] theorem State.pushPc_pr (s : State) (v : Addr) : (s.pushPc v).pr = s.pr := by unfold State.pushPc; split <;> rfl
@[simp] theorem State.pushPc_ds (s : State) (v : Addr) : (s.pushPc v).ds = s.ds := by unfold State.pushPc; split <;> rfl
@[simp] theorem State.pushPc_dsp (s : State) (v : Addr) : (s.pushPc v).dsp = s.dsp := by unfold State.pushPc; split <;> rfl
@[simp] theorem State.pushPc_ce (s : State) (v : Addr) : (s.pushPc v).ce = s.ce := by unfold State.pushPc; split <;> rfl
@[simp] theorem State.pushPc_sa (s : State) (v : Addr) : (s.pushPc v).sa = s.sa := by unfold State.pushPc; split <;> rfl
@[simp] theorem State.pushPc_spa (s : State) (v : Addr) : (s.pushPc v).spa = s.spa := by unfold State.pushPc; split <;> rfl
@[simp] theorem State.pushPc_spr (s : State) (v : Addr) : (s.pushPc v).spr = s.spr := by unfold State.pushPc; split <;> rfl
@[simp] theorem State.pushPc_sce (s : State) (v : Addr) : (s.pushPc v).sce = s.sce := by unfold State.pushPc; split <;> rfl
@[simp] theorem State.pushPc_dsEvent (s : State) (v : Addr) : (s.pushPc v).dsEvent = s.dsEvent := by unfold State.pushPc; split <;> rfl
@[simp] theorem State.pushPc_romInhibit (s : State) (v : Addr) : (s.pushPc v).romInhibit = s.romInhibit := by unfold State.pushPc; split <;> rfl
@[simp] theorem State.pushPc_timer (s : State) (v : Addr) : (s.pushPc v).timer = s.timer := by unfold State.pushPc; split <;> rfl
@[simp] theorem State.pushPc_uart (s : State) (v : Addr) : (s.pushPc v).uart = s.uart := by unfold State.pushPc; split <;> rfl
@[simp] theorem State.pushPc_extIrq (s : State) (v : Addr) : (s.pushPc v).extIrq = s.extIrq := by unfold State.pushPc; split <;> rfl
@[simp] theorem State.pushPc_mem (s : State) (v : Addr) : (s.pushPc v).mem = s.mem := by unfold State.pushPc; split <;> rfl
@[simp] theorem State.pushPc_inbox (s : State) (v : Addr) : (s.pushPc v).inbox = s.inbox := by unfold State.pushPc; split <;> rfl
@[simp] theorem State.pushPc_openReads (s : State) (v : Addr) : (s.pushPc v).openReads = s.openReads := by unfold State.pushPc; split <;> rfl
@[simp] theorem State.pushPc_t (s : State) (v : Addr) : (s.pushPc v).t = s.t := by simp [State.t]
@[simp] theorem State.pushPc_second (s : State) (v : Addr) : (s.pushPc v).second = s.second := by simp [State.second]
@[simp] theorem State.pushPc_pntt (s : State) (v : Addr) : (s.pushPc v).pntt = s.pntt := by simp [State.pntt]
@[simp] theorem State.pushPc_ceWord (s : State) (v : Addr) : (s.pushPc v).ceWord = s.ceWord := by simp [State.ceWord]

/-! ### dropPc -/

@[simp] theorem State.dropPc_cfg (s : State) : s.dropPc.cfg = s.cfg := by unfold State.dropPc; split <;> rfl
@[simp] theorem State.dropPc_pc (s : State) : s.dropPc.pc = s.pc := by unfold State.dropPc; split <;> rfl
@[simp] theorem State.dropPc_a (s : State) : s.dropPc.a = s.a := by unfold State.dropPc; split <;> rfl
@[simp] theorem State.dropPc_pa (s : State) : s.dropPc.pa = s.pa := by unfold State.dropPc; split <;> rfl
@[simp] theorem State.dropPc_pr (s : State) : s.dropPc.pr = s.pr := by unfold State.dropPc; split <;> rfl
@[simp] theorem State.dropPc_ds (s : State) : s.dropPc.ds = s.ds := by unfold State.dropPc; split <;> rfl
@[simp] theorem State.dropPc_dsp (s : State) : s.dropPc.dsp = s.dsp := by unfold State.dropPc; split <;> rfl
@[simp] theorem State.dropPc_rs (s : State) : s.dropPc.rs = s.rs := by unfold State.dropPc; split <;> rfl
@[simp] theorem State.dropPc_ce (s : State) : s.dropPc.ce = s.ce := by unfold State.dropPc; split <;> rfl
@[simp] theorem State.dropPc_sa (s : State) : s.dropPc.sa = s.sa := by unfold State.dropPc; split <;> rfl
@[simp] theorem State.dropPc_spa (s : State) : s.dropPc.spa = s.spa := by unfold State.dropPc; split <;> rfl
@[simp] theorem State.dropPc_spr (s : State) : s.dropPc.spr = s.spr := by unfold State.dropPc; split <;> rfl
@[simp] theorem State.dropPc_sce (s : State) : s.dropPc.sce = s.sce := by unfold State.dropPc; split <;> rfl
@[simp] theorem State.dropPc_dsEvent (s : State) : s.dropPc.dsEvent = s.dsEvent := by unfold State.dropPc; split <;> rfl
@[simp] theorem State.dropPc_romInhibit (s : State) : s.dropPc.romInhibit = s.romInhibit := by unfold State.dropPc; split <;> rfl
@[simp] theorem State.dropPc_timer (s : State) : s.dropPc.timer = s.timer := by unfold State.dropPc; split <;> rfl
@[simp] theorem State.dropPc_uart (s : State) : s.dropPc.uart = s.uart := by unfold State.dropPc; split <;> rfl
@[simp] theorem State.dropPc_extIrq (s : State) : s.dropPc.extIrq = s.extIrq := by unfold State.dropPc; split <;> rfl
@[simp] theorem State.dropPc_mem (s : State) : s.dropPc.mem = s.mem := by unfold State.dropPc; split <;> rfl
@[simp] theorem State.dropPc_inbox (s : State) : s.dropPc.inbox = s.inbox := by unfold State.dropPc; split <;> rfl
@[simp] theorem State.dropPc_openReads (s : State) : s.dropPc.openReads = s.openReads := by unfold State.dropPc; split <;> rfl
@[simp] theorem State.dropPc_t (s : State) : s.dropPc.t = s.t := by simp [State.t]
@[simp] theorem State.dropPc_second (s : State) : s.dropPc.second = s.second := by simp [State.second]
@[simp] theorem State.dropPc_pntt (s : State) : s.dropPc.pntt = s.pntt := by simp [State.pntt]
@[simp] theorem State.dropPc_ceWord (s : State) : s.dropPc.ceWord = s.ceWord := by simp [State.ceWord]

/-! ### popPc -/

@[simp] theorem State.popPc_cfg (s : State) : s.popPc.cfg = s.cfg := by simp [State.popPc]
@[simp] theorem State.popPc_a (s : State) : s.popPc.a = s.a := by simp [State.popPc]
@[simp] theorem State.popPc_pa (s : State) : s.popPc.pa = s.pa := by simp [State.popPc]
@[simp] theorem State.popPc_pr (s : State) : s.popPc.pr = s.pr := by simp [State.popPc]
@[simp] theorem State.popPc_ds (s : State) : s.popPc.ds = s.ds := by simp [State.popPc]
@[simp] theorem State.popPc_dsp (s : State) : s.popPc.dsp = s.dsp := by simp [State.popPc]
@[simp] theorem State.popPc_rs (s : State) : s.popPc.rs = s.rs := by simp [State.popPc]
@[simp] theorem State.popPc_ce (s : State) : s.popPc.ce = s.ce := by simp [State.popPc]
@[simp] theorem State.popPc_sa (s : State) : s.popPc.sa = s.sa := by simp [State.popPc]
@[simp] theorem State.popPc_spa (s : State) : s.popPc.spa = s.spa := by simp [State.popPc]
@[simp] theorem State.popPc_spr (s : State) : s.popPc.spr = s.spr := by simp [State.popPc]
@[simp] theorem State.popPc_sce (s : State) : s.popPc.sce = s.sce := by simp [State.popPc]
@[simp] theorem State.popPc_dsEvent (s : State) : s.popPc.dsEvent = s.dsEvent := by simp [State.popPc]
@[simp] theorem State.popPc_romInhibit (s : State) : s.popPc.romInhibit = s.romInhibit := by simp [State.popPc]
@[simp] theorem State.popPc_timer (s : State) : s.popPc.timer = s.timer := by simp [State.popPc]
@[simp] theorem State.popPc_uart (s : State) : s.popPc.uart = s.uart := by simp [State.popPc]
@[simp] theorem State.popPc_extIrq (s : State) : s.popPc.extIrq = s.extIrq := by simp [State.popPc]
@[simp] theorem State.popPc_mem (s : State) : s.popPc.mem = s.mem := by simp [State.popPc]
@[simp] theorem State.popPc_inbox (s : State) : s.popPc.inbox = s.inbox := by simp [State.popPc]
@[simp] theorem State.popPc_openReads (s : State) : s.popPc.openReads = s.openReads := by simp [State.popPc]
@[simp] theorem State.popPc_t (s : State) : s.popPc.t = s.t := by simp [State.t]
@[simp] theorem State.popPc_second (s : State) : s.popPc.second = s.second := by simp [State.second]
@[simp] theorem State.popPc_pntt (s : State) : s.popPc.pntt = s.pntt := by simp [State.pntt]
@[simp] theorem State.popPc_ceWord (s : State) : s.popPc.ceWord = s.ceWord := by simp [State.ceWord]

/-! ### saveRegisters -/

@[simp] theorem State.saveRegisters_cfg (s : State) : s.saveRegisters.cfg = s.cfg := by unfold State.saveRegisters; split <;> rfl
@[simp] theorem State.saveRegisters_pc (s : State) : s.saveRegisters.pc = s.pc := by unfold State.saveRegisters; split <;> rfl
@[simp] theorem State.saveRegisters_a (s : State) : s.saveRegisters.a = s.a := by unfold State.saveRegisters; split <;> rfl
@[simp] theorem State.saveRegisters_pa (s : State) : s.saveRegisters.pa = s.pa := by unfold State.saveRegisters; split <;> rfl
@[simp] theorem State.saveRegisters_pr (s : State) : s.saveRegisters.pr = s.pr := by unfold State.saveRegisters; split <;> rfl
@[simp] theorem State.saveRegisters_ds (s : State) : s.saveRegisters.ds = s.ds := by unfold State.saveRegisters; split <;> rfl
@[simp] theorem State.saveRegisters_dsp (s : State) : s.saveRegisters.dsp = s.dsp := by unfold State.saveRegisters; split <;> rfl
@[simp] theorem State.saveRegisters_rs (s : State) : s.saveRegisters.rs = s.rs := by unfold State.saveRegisters; split <;> rfl
@[simp] theorem State.saveRegisters_rsp (s : State) : s.saveRegisters.rsp = s.rsp := by unfold State.saveRegisters; split <;> rfl
@[simp] theorem State.saveRegisters_ce (s : State) : s.saveRegisters.ce = s.ce := by unfold State.saveRegisters; split <;> rfl
@[simp] theorem State.saveRegisters_dsEvent (s : State) : s.saveRegisters.dsEvent = s.dsEvent := by unfold State.saveRegisters; split <;> rfl
@[simp] theorem State.saveRegisters_rsEvent (s : State) : s.saveRegisters.rsEvent = s.rsEvent := by unfold State.saveRegisters; split <;> rfl
@[simp] theorem State.saveRegisters_romInhibit (s : State) : s.saveRegisters.romInhibit = s.romInhibit := by unfold State.saveRegisters; split <;> rfl
@[simp] theorem State.saveRegisters_timer (s : State) : s.saveRegisters.timer = s.timer := by unfold State.saveRegisters; split <;> rfl
@[simp] theorem State.saveRegisters_uart (s : State) : s.saveRegisters.uart = s.uart := by unfold State.saveRegisters; split <;> rfl
@[simp] theorem State.saveRegisters_extIrq (s : State) : s.saveRegisters.extIrq = s.extIrq := by unfold State.saveRegisters; split <;> rfl
@[simp] theorem State.saveRegisters_mem (s : State) : s.saveRegisters.mem = s.mem := by unfold State.saveRegisters; split <;> rfl
@[simp] theorem State.saveRegisters_inbox (s : State) : s.saveRegisters.inbox = s.inbox := by unfold State.saveRegisters; split <;> rfl
@[simp] theorem State.saveRegisters_openReads (s : State) : s.saveRegisters.openReads = s.openReads := by unfold State.saveRegisters; split <;> rfl
@[simp] theorem State.saveRegisters_t (s : State) : s.saveRegisters.t = s.t := by simp [State.t]
@[simp] theorem State.saveRegisters_second (s : State) : s.saveRegisters.second = s.second := by simp [State.second]
@[simp] theorem State.saveRegisters_r (s : State) : s.saveRegisters.r = s.r := by simp [State.r]
@[simp] theorem State.saveRegisters_pntt (s : State) : s.saveRegisters.pntt = s.pntt := by simp [State.pntt]
@[simp] theorem State.saveRegisters_pntr (s : State) : s.saveRegisters.pntr = s.pntr := by simp [State.pntr]
@[simp] theorem State.saveRegisters_ceWord (s : State) : s.saveRegisters.ceWord = s.ceWord := by simp [State.ceWord]

/-! ### enter -/

@[simp] theorem State.enter_cfg (s : State) (v : Nat) : (s.enter v).cfg = s.cfg := by simp [State.enter]
@[simp] theorem State.enter_a (s : State) (v : Nat) : (s.enter v).a = s.a := by simp [State.enter]
@[simp] theorem State.enter_pa (s : State) (v : Nat) : (s.enter v).pa = s.pa := by simp [State.enter]
@[simp] theorem State.enter_pr (s : State) (v : Nat) : (s.enter v).pr = s.pr := by simp [State.enter]
@[simp] theorem State.enter_ds (s : State) (v : Nat) : (s.enter v).ds = s.ds := by simp [State.enter]
@[simp] theorem State.enter_dsp (s : State) (v : Nat) : (s.enter v).dsp = s.dsp := by simp [State.enter]
@[simp] theorem State.enter_dsEvent (s : State) (v : Nat) : (s.enter v).dsEvent = s.dsEvent := by simp [State.enter]
@[simp] theorem State.enter_romInhibit (s : State) (v : Nat) : (s.enter v).romInhibit = s.romInhibit := by simp [State.enter]
@[simp] theorem State.enter_timer (s : State) (v : Nat) : (s.enter v).timer = s.timer := by simp [State.enter]
@[simp] theorem State.enter_uart (s : State) (v : Nat) : (s.enter v).uart = s.uart := by simp [State.enter]
@[simp] theorem State.enter_extIrq (s : State) (v : Nat) : (s.enter v).extIrq = s.extIrq := by simp [State.enter]
@[simp] theorem State.enter_mem (s : State) (v : Nat) : (s.enter v).mem = s.mem := by simp [State.enter]
@[simp] theorem State.enter_inbox (s : State) (v : Nat) : (s.enter v).inbox = s.inbox := by simp [State.enter]
@[simp] theorem State.enter_openReads (s : State) (v : Nat) : (s.enter v).openReads = s.openReads := by simp [State.enter]
@[simp] theorem State.enter_t (s : State) (v : Nat) : (s.enter v).t = s.t := by simp [State.t]
@[simp] theorem State.enter_second (s : State) (v : Nat) : (s.enter v).second = s.second := by simp [State.second]
@[simp] theorem State.enter_pntt (s : State) (v : Nat) : (s.enter v).pntt = s.pntt := by simp [State.pntt]

/-! ### restoreRegisters -/

@[simp] theorem State.restoreRegisters_cfg (s : State) : s.restoreRegisters.cfg = s.cfg := by unfold State.restoreRegisters; split <;> rfl
@[simp] theorem State.restoreRegisters_pc (s : State) : s.restoreRegisters.pc = s.pc := by unfold State.restoreRegisters; split <;> rfl
@[simp] theorem State.restoreRegisters_ds (s : State) : s.restoreRegisters.ds = s.ds := by unfold State.restoreRegisters; split <;> rfl
@[simp] theorem State.restoreRegisters_dsp (s : State) : s.restoreRegisters.dsp = s.dsp := by unfold State.restoreRegisters; split <;> rfl
@[simp] theorem State.restoreRegisters_rs (s : State) : s.restoreRegisters.rs = s.rs := by unfold State.restoreRegisters; split <;> rfl
@[simp] theorem State.restoreRegisters_rsp (s : State) : s.restoreRegisters.rsp = s.rsp := by unfold State.restoreRegisters; split <;> rfl
@[simp] theorem State.restoreRegisters_sa (s : State) : s.restoreRegisters.sa = s.sa := by unfold State.restoreRegisters; split <;> rfl
@[simp] theorem State.restoreRegisters_spa (s : State) : s.restoreRegisters.spa = s.spa := by unfold State.restoreRegisters; split <;> rfl
@[simp] theorem State.restoreRegisters_spr (s : State) : s.restoreRegisters.spr = s.spr := by unfold State.restoreRegisters; split <;> rfl
@[simp] theorem State.restoreRegisters_sce (s : State) : s.restoreRegisters.sce = s.sce := by unfold State.restoreRegisters; split <;> rfl
@[simp] theorem State.restoreRegisters_dsEvent (s : State) : s.restoreRegisters.dsEvent = s.dsEvent := by unfold State.restoreRegisters; split <;> rfl
@[simp] theorem State.restoreRegisters_rsEvent (s : State) : s.restoreRegisters.rsEvent = s.rsEvent := by unfold State.restoreRegisters; split <;> rfl
@[simp] theorem State.restoreRegisters_romInhibit (s : State) : s.restoreRegisters.romInhibit = s.romInhibit := by unfold State.restoreRegisters; split <;> rfl
@[simp] theorem State.restoreRegisters_timer (s : State) : s.restoreRegisters.timer = s.timer := by unfold State.restoreRegisters; split <;> rfl
@[simp] theorem State.restoreRegisters_uart (s : State) : s.restoreRegisters.uart = s.uart := by unfold State.restoreRegisters; split <;> rfl
@[simp] theorem State.restoreRegisters_extIrq (s : State) : s.restoreRegisters.extIrq = s.extIrq := by unfold State.restoreRegisters; split <;> rfl
@[simp] theorem State.restoreRegisters_mem (s : State) : s.restoreRegisters.mem = s.mem := by unfold State.restoreRegisters; split <;> rfl
@[simp] theorem State.restoreRegisters_inbox (s : State) : s.restoreRegisters.inbox = s.inbox := by unfold State.restoreRegisters; split <;> rfl
@[simp] theorem State.restoreRegisters_openReads (s : State) : s.restoreRegisters.openReads = s.openReads := by unfold State.restoreRegisters; split <;> rfl
@[simp] theorem State.restoreRegisters_t (s : State) : s.restoreRegisters.t = s.t := by simp [State.t]
@[simp] theorem State.restoreRegisters_second (s : State) : s.restoreRegisters.second = s.second := by simp [State.second]
@[simp] theorem State.restoreRegisters_r (s : State) : s.restoreRegisters.r = s.r := by simp [State.r]
@[simp] theorem State.restoreRegisters_pntt (s : State) : s.restoreRegisters.pntt = s.pntt := by simp [State.pntt]
@[simp] theorem State.restoreRegisters_pntr (s : State) : s.restoreRegisters.pntr = s.pntr := by simp [State.pntr]

/-! ### returnFromInterruption -/

@[simp] theorem State.returnFromInterruption_cfg (s : State) : s.returnFromInterruption.cfg = s.cfg := by simp [State.returnFromInterruption]
@[simp] theorem State.returnFromInterruption_ds (s : State) : s.returnFromInterruption.ds = s.ds := by simp [State.returnFromInterruption]
@[simp] theorem State.returnFromInterruption_dsp (s : State) : s.returnFromInterruption.dsp = s.dsp := by simp [State.returnFromInterruption]
@[simp] theorem State.returnFromInterruption_rs (s : State) : s.returnFromInterruption.rs = s.rs := by simp [State.returnFromInterruption]
@[simp] theorem State.returnFromInterruption_sa (s : State) : s.returnFromInterruption.sa = s.sa := by simp [State.returnFromInterruption]
@[simp] theorem State.returnFromInterruption_spa (s : State) : s.returnFromInterruption.spa = s.spa := by simp [State.returnFromInterruption]
@[simp] theorem State.returnFromInterruption_spr (s : State) : s.returnFromInterruption.spr = s.spr := by simp [State.returnFromInterruption]
@[simp] theorem State.returnFromInterruption_sce (s : State) : s.returnFromInterruption.sce = s.sce := by simp [State.returnFromInterruption]
@[simp] theorem State.returnFromInterruption_dsEvent (s : State) : s.returnFromInterruption.dsEvent = s.dsEvent := by simp [State.returnFromInterruption]
@[simp] theorem State.returnFromInterruption_romInhibit (s : State) : s.returnFromInterruption.romInhibit = s.romInhibit := by simp [State.returnFromInterruption]
@[simp] theorem State.returnFromInterruption_timer (s : State) : s.returnFromInterruption.timer = s.timer := by simp [State.returnFromInterruption]
@[simp] theorem State.returnFromInterruption_uart (s : State) : s.returnFromInterruption.uart = s.uart := by simp [State.returnFromInterruption]
@[simp] theorem State.returnFromInterruption_extIrq (s : State) : s.returnFromInterruption.extIrq = s.extIrq := by simp [State.returnFromInterruption]
@[simp] theorem State.returnFromInterruption_mem (s : State) : s.returnFromInterruption.mem = s.mem := by simp [State.returnFromInterruption]
@[simp] theorem State.returnFromInterruption_inbox (s : State) : s.returnFromInterruption.inbox = s.inbox := by simp [State.returnFromInterruption]
@[simp] theorem State.returnFromInterruption_openReads (s : State) : s.returnFromInterruption.openReads = s.openReads := by simp [State.returnFromInterruption]
@[simp] theorem State.returnFromInterruption_t (s : State) : s.returnFromInterruption.t = s.t := by simp [State.t]
@[simp] theorem State.returnFromInterruption_second (s : State) : s.returnFromInterruption.second = s.second := by simp [State.second]
@[simp] theorem State.returnFromInterruption_pntt (s : State) : s.returnFromInterruption.pntt = s.pntt := by simp [State.pntt]

/-! ### noteExtRead -/

@[simp] theorem State.noteExtRead_cfg (s : State) (r : ExtReg) : (s.noteExtRead r).cfg = s.cfg := by cases r <;> rfl
@[simp] theorem State.noteExtRead_pc (s : State) (r : ExtReg) : (s.noteExtRead r).pc = s.pc := by cases r <;> rfl
@[simp] theorem State.noteExtRead_a (s : State) (r : ExtReg) : (s.noteExtRead r).a = s.a := by cases r <;> rfl
@[simp] theorem State.noteExtRead_pa (s : State) (r : ExtReg) : (s.noteExtRead r).pa = s.pa := by cases r <;> rfl
@[simp] theorem State.noteExtRead_pr (s : State) (r : ExtReg) : (s.noteExtRead r).pr = s.pr := by cases r <;> rfl
@[simp] theorem State.noteExtRead_ds (s : State) (r : ExtReg) : (s.noteExtRead r).ds = s.ds := by cases r <;> rfl
@[simp] theorem State.noteExtRead_dsp (s : State) (r : ExtReg) : (s.noteExtRead r).dsp = s.dsp := by cases r <;> rfl
@[simp] theorem State.noteExtRead_rs (s : State) (r : ExtReg) : (s.noteExtRead r).rs = s.rs := by cases r <;> rfl
@[simp] theorem State.noteExtRead_rsp (s : State) (r : ExtReg) : (s.noteExtRead r).rsp = s.rsp := by cases r <;> rfl
@[simp] theorem State.noteExtRead_ce (s : State) (r : ExtReg) : (s.noteExtRead r).ce = s.ce := by cases r <;> rfl
@[simp] theorem State.noteExtRead_sa (s : State) (r : ExtReg) : (s.noteExtRead r).sa = s.sa := by cases r <;> rfl
@[simp] theorem State.noteExtRead_spa (s : State) (r : ExtReg) : (s.noteExtRead r).spa = s.spa := by cases r <;> rfl
@[simp] theorem State.noteExtRead_spr (s : State) (r : ExtReg) : (s.noteExtRead r).spr = s.spr := by cases r <;> rfl
@[simp] theorem State.noteExtRead_sce (s : State) (r : ExtReg) : (s.noteExtRead r).sce = s.sce := by cases r <;> rfl
@[simp] theorem State.noteExtRead_dsEvent (s : State) (r : ExtReg) : (s.noteExtRead r).dsEvent = s.dsEvent := by cases r <;> rfl
@[simp] theorem State.noteExtRead_rsEvent (s : State) (r : ExtReg) : (s.noteExtRead r).rsEvent = s.rsEvent := by cases r <;> rfl
@[simp] theorem State.noteExtRead_romInhibit (s : State) (r : ExtReg) : (s.noteExtRead r).romInhibit = s.romInhibit := by cases r <;> rfl
@[simp] theorem State.noteExtRead_extIrq (s : State) (r : ExtReg) : (s.noteExtRead r).extIrq = s.extIrq := by cases r <;> rfl
@[simp] theorem State.noteExtRead_mem (s : State) (r : ExtReg) : (s.noteExtRead r).mem = s.mem := by cases r <;> rfl
@[simp] theorem State.noteExtRead_inbox (s : State) (r : ExtReg) : (s.noteExtRead r).inbox = s.inbox := by cases r <;> rfl
@[simp] theorem State.noteExtRead_openReads (s : State) (r : ExtReg) : (s.noteExtRead r).openReads = s.openReads := by cases r <;> rfl
@[simp] theorem State.noteExtRead_t (s : State) (r : ExtReg) : (s.noteExtRead r).t = s.t := by simp [State.t]
@[simp] theorem State.noteExtRead_second (s : State) (r : ExtReg) : (s.noteExtRead r).second = s.second := by simp [State.second]
@[simp] theorem State.noteExtRead_r (s : State) (r : ExtReg) : (s.noteExtRead r).r = s.r := by simp [State.r]
@[simp] theorem State.noteExtRead_pntt (s : State) (r : ExtReg) : (s.noteExtRead r).pntt = s.pntt := by simp [State.pntt]
@[simp] theorem State.noteExtRead_pntr (s : State) (r : ExtReg) : (s.noteExtRead r).pntr = s.pntr := by simp [State.pntr]
@[simp] theorem State.noteExtRead_ceWord (s : State) (r : ExtReg) : (s.noteExtRead r).ceWord = s.ceWord := by simp [State.ceWord]

/-! ### applyReset -/

@[simp] theorem State.applyReset_cfg (s : State) : s.applyReset.cfg = s.cfg := rfl
@[simp] theorem State.applyReset_ds (s : State) : s.applyReset.ds = s.ds := rfl
@[simp] theorem State.applyReset_rs (s : State) : s.applyReset.rs = s.rs := rfl
@[simp] theorem State.applyReset_sa (s : State) : s.applyReset.sa = s.sa := rfl
@[simp] theorem State.applyReset_spa (s : State) : s.applyReset.spa = s.spa := rfl
@[simp] theorem State.applyReset_spr (s : State) : s.applyReset.spr = s.spr := rfl
@[simp] theorem State.applyReset_sce (s : State) : s.applyReset.sce = s.sce := rfl
@[simp] theorem State.applyReset_extIrq (s : State) : s.applyReset.extIrq = s.extIrq := rfl
@[simp] theorem State.applyReset_mem (s : State) : s.applyReset.mem = s.mem := rfl
@[simp] theorem State.applyReset_inbox (s : State) : s.applyReset.inbox = s.inbox := rfl
@[simp] theorem State.applyReset_openReads (s : State) : s.applyReset.openReads = s.openReads := rfl

/-! ### What each update writes -/

@[simp] theorem State.setPc_pc (s : State) (n : Nat) : (s.setPc n).pc = evenAddrOf s.cfg n := rfl
@[simp] theorem State.advancePc_pc (s : State) : s.advancePc.pc = evenAddrOf s.cfg (s.pc.toNat + 2) := rfl
@[simp] theorem State.passWord_pc (s : State) : s.passWord.pc = evenAddrOf s.cfg (s.pc.toNat + 2) := rfl
@[simp] theorem State.branch_pc (s : State) (d : Movement) :
    (s.branch d).pc = evenAddrOf s.cfg (s.pc + displacement d).toNat := rfl
@[simp] theorem State.setA_a (s : State) (n : Nat) : (s.setA n).a = cellOf s.cfg n := rfl
@[simp] theorem State.setC_ce (s : State) (b : Bool) : (s.setC b).ce = { s.ce with c := b } := rfl
@[simp] theorem State.setCe_ce (s : State) (w : Word) : (s.setCe w).ce = controlOf w := rfl
@[simp] theorem State.setT_ds (s : State) (n : Nat) :
    (s.setT n).ds = setCellAt s.ds s.dsp (cellOf s.cfg n) := rfl
@[simp] theorem State.dPush_dsp (s : State) (n : Nat) : (s.dPush n).dsp = s.dsp - 1#8 := rfl
@[simp] theorem State.dPush_ds (s : State) (n : Nat) :
    (s.dPush n).ds = setCellAt s.ds (s.dsp - 1#8) (cellOf s.cfg n) := rfl
@[simp] theorem State.dPush_dsEvent (s : State) (n : Nat) :
    (s.dPush n).dsEvent = (s.dsEvent || s.dsp == 1#8) := rfl
@[simp] theorem State.dDrop_dsp (s : State) : s.dDrop.dsp = s.dsp + 1#8 := rfl
@[simp] theorem State.dDrop_dsEvent (s : State) : s.dDrop.dsEvent = (s.dsEvent || s.dsp == 0#8) := rfl
@[simp] theorem State.dDrop_t (s : State) : s.dDrop.t = s.second := rfl
@[simp] theorem State.replaceTwo_dsp (s : State) (n : Nat) : (s.replaceTwo n).dsp = s.dsp + 1#8 := rfl
@[simp] theorem State.replaceTwo_ds (s : State) (n : Nat) :
    (s.replaceTwo n).ds = setCellAt s.ds (s.dsp + 1#8) (cellOf s.cfg n) := rfl
@[simp] theorem State.replaceTwo_dsEvent (s : State) (n : Nat) :
    (s.replaceTwo n).dsEvent = (s.dsEvent || s.dsp == 0#8) := rfl
@[simp] theorem State.setR_rs (s : State) (n : Nat) :
    (s.setR n).rs = setCellAt s.rs s.rsp (cellOf s.cfg n) := rfl
@[simp] theorem State.rPush_rsp (s : State) (n : Nat) : (s.rPush n).rsp = s.rsp - 1#8 := rfl
@[simp] theorem State.rPush_rs (s : State) (n : Nat) :
    (s.rPush n).rs = setCellAt s.rs (s.rsp - 1#8) (cellOf s.cfg n) := rfl
@[simp] theorem State.rPush_rsEvent (s : State) (n : Nat) :
    (s.rPush n).rsEvent = (s.rsEvent || s.rsp == 1#8) := rfl
@[simp] theorem State.rDrop_rsp (s : State) : s.rDrop.rsp = s.rsp + 1#8 := rfl
@[simp] theorem State.rDrop_rsEvent (s : State) : s.rDrop.rsEvent = (s.rsEvent || s.rsp == 0#8) := rfl
@[simp] theorem State.noteRead_romInhibit (s : State) (a : Addr) :
    (s.noteRead a).romInhibit = (s.romInhibit || inTopMegabyte s.cfg a) := rfl
@[simp] theorem State.passWord_romInhibit (s : State) :
    s.passWord.romInhibit = (s.romInhibit || inTopMegabyte s.cfg s.pc) := rfl
@[simp] theorem State.popPc_pc (s : State) : s.popPc.pc = evenAddrOf s.cfg s.returnPc := by
  simp [State.popPc]
@[simp] theorem State.popPc_rsp (s : State) : s.popPc.rsp = s.dropPc.rsp := rfl
@[simp] theorem State.popPc_rsEvent (s : State) : s.popPc.rsEvent = s.dropPc.rsEvent := rfl
@[simp] theorem State.saveRegisters_sa (s : State) : s.saveRegisters.sa = s.a := by
  unfold State.saveRegisters; split <;> rfl
@[simp] theorem State.saveRegisters_sce (s : State) : s.saveRegisters.sce = s.ceWord := by
  unfold State.saveRegisters; split <;> rfl
@[simp] theorem State.restoreRegisters_a (s : State) : s.restoreRegisters.a = s.sa := by
  unfold State.restoreRegisters; split <;> rfl
@[simp] theorem State.restoreRegisters_ce (s : State) : s.restoreRegisters.ce = controlOf s.sce := by
  unfold State.restoreRegisters; split <;> rfl
@[simp] theorem State.enter_pc (s : State) (v : Nat) : (s.enter v).pc = evenAddrOf s.cfg v := by
  simp [State.enter]
@[simp] theorem State.enter_rs (s : State) (v : Nat) : (s.enter v).rs = (s.pushPc s.pc).rs := by
  simp [State.enter]
@[simp] theorem State.enter_rsp (s : State) (v : Nat) : (s.enter v).rsp = (s.pushPc s.pc).rsp := by
  simp [State.enter]
@[simp] theorem State.enter_rsEvent (s : State) (v : Nat) :
    (s.enter v).rsEvent = (s.pushPc s.pc).rsEvent := by
  simp [State.enter]
@[simp] theorem State.enter_ce (s : State) (v : Nat) :
    (s.enter v).ce = { s.ce with i := true, m := true, b := false } := by
  simp [State.enter]
@[simp] theorem State.enter_sa (s : State) (v : Nat) : (s.enter v).sa = s.a := by
  simp [State.enter]
@[simp] theorem State.enter_sce (s : State) (v : Nat) : (s.enter v).sce = s.ceWord := by
  simp [State.enter]
@[simp] theorem State.returnFromInterruption_pc (s : State) :
    s.returnFromInterruption.pc = evenAddrOf s.cfg s.returnPc := by
  simp [State.returnFromInterruption]
@[simp] theorem State.returnFromInterruption_a (s : State) : s.returnFromInterruption.a = s.sa := by
  simp [State.returnFromInterruption]
@[simp] theorem State.returnFromInterruption_ce (s : State) :
    s.returnFromInterruption.ce = controlOf s.sce := by
  simp [State.returnFromInterruption]
@[simp] theorem State.returnFromInterruption_rsp (s : State) :
    s.returnFromInterruption.rsp = s.dropPc.rsp := by
  simp [State.returnFromInterruption]
@[simp] theorem State.returnFromInterruption_rsEvent (s : State) :
    s.returnFromInterruption.rsEvent = s.dropPc.rsEvent := by
  simp [State.returnFromInterruption]

/-! ### The control register and its 16-bit image -/

@[simp] theorem controlOf_ceWord (s : State) : controlOf s.ceWord = s.ce := by
  obtain ⟨cfg, _, _, _, _, _, _, _, _, ⟨c, i, m, b, e⟩, _⟩ := s
  cases c <;> cases i <;> cases m <;> cases b <;> cases e <;> cases h : cfg.emu <;>
    cases h' : cfg.mt <;> simp [State.ceWord, controlOf, h, h']

end Sys2Proof.Machine
end

