-- ==== Sys2Proof/Laws/Stacks.lean ====
section
/-!
SUPPORT. Reading a stack cell after writing one, and the top cells after a push or a write in place.
-/

namespace Sys2Proof.Machine

@[simp] theorem cellAt_setCellAt_same (st : Stack) (i : BitVec 8) (v : Cell) :
    cellAt (setCellAt st i v) i = v := by
  simp [cellAt, setCellAt]

theorem cellAt_setCellAt_other (st : Stack) {i j : BitVec 8} (v : Cell) (h : j ≠ i) :
    cellAt (setCellAt st i v) j = cellAt st j := by
  have : i.toNat ≠ j.toNat := fun e => h (BitVec.eq_of_toNat_eq e.symm)
  simp [cellAt, setCellAt, this]

theorem cellAt_setCellAt (st : Stack) (i j : BitVec 8) (v : Cell) :
    cellAt (setCellAt st i v) j = if j = i then v else cellAt st j := by
  split
  · next h => rw [h, cellAt_setCellAt_same]
  · next h => exact cellAt_setCellAt_other st v h

/-- Two stacks with the same cells are the same stack. -/
theorem Stack.ext_cellAt {p q : Stack} (h : ∀ i, cellAt p i = cellAt q i) : p = q := by
  apply Vector.ext
  intro i hi
  have := h (BitVec.ofNat 8 i)
  simpa [cellAt, Nat.mod_eq_of_lt hi] using this

@[simp] theorem cellAt_replicate (v : Cell) (i : BitVec 8) :
    cellAt (Vector.replicate 256 v) i = v := by simp [cellAt]

/-! ### Top cells after an update -/

@[simp] theorem State.dPush_t (s : State) (n : Nat) : (s.dPush n).t = cellOf s.cfg n := by
  simp [State.t]

@[simp] theorem State.dPush_second (s : State) (n : Nat) : (s.dPush n).second = s.t := by
  have h : s.dsp ≠ s.dsp - 1#8 := by generalize s.dsp = x; revert x; decide
  simp [State.second, State.t, cellAt_setCellAt_other, h]

@[simp] theorem State.setT_t (s : State) (n : Nat) : (s.setT n).t = cellOf s.cfg n := by
  simp [State.t]

@[simp] theorem State.setT_second (s : State) (n : Nat) : (s.setT n).second = s.second := by
  simp [State.second, cellAt_setCellAt_other]

@[simp] theorem State.replaceTwo_t (s : State) (n : Nat) : (s.replaceTwo n).t = cellOf s.cfg n := by
  simp [State.t]

@[simp] theorem State.rPush_r (s : State) (n : Nat) : (s.rPush n).r = cellOf s.cfg n := by
  simp [State.r]

@[simp] theorem State.setR_r (s : State) (n : Nat) : (s.setR n).r = cellOf s.cfg n := by
  simp [State.r]

/-- Popping what was pushed brings the old `R` back. -/
@[simp] theorem State.rPush_rDrop_r (s : State) (n : Nat) : (s.rPush n).rDrop.r = s.r := by
  have h : s.rsp ≠ s.rsp - 1#8 := by generalize s.rsp = x; revert x; decide
  simp [State.r, cellAt_setCellAt_other, h]

end Sys2Proof.Machine
end

