-- ==== Sys2Proof/Laws/Ops.lean ====
section
/-!
SUPPORT. One lemma per shared operation, saying once everything it does to the stacks, to memory and to the
machine, in the terms of Safety.lean.
-/

namespace Sys2Proof.Machine

/-! ### A stack relation holds of any states with the same stack -/

theorem DataPushed.congr {s s' t t' : State} {n : Nat} (h : DataPushed s t n)
    (hc : s'.cfg = s.cfg) (hp : s'.dsp = s.dsp) (hd : s'.ds = s.ds) (he : s'.dsEvent = s.dsEvent)
    (tp : t'.dsp = t.dsp) (td : t'.ds = t.ds) (te : t'.dsEvent = t.dsEvent) : DataPushed s' t' n where
  pointer := by rw [tp, hp]; exact h.pointer
  top := by rw [State.t, td, tp, hc]; exact h.top
  others := by intro i hi; rw [td, hd]; exact h.others i (tp ▸ hi)
  event := by rw [te, he, hp]; exact h.event

theorem DataPopped.congr {s s' t t' : State} (h : DataPopped s t)
    (hp : s'.dsp = s.dsp) (hd : s'.ds = s.ds) (he : s'.dsEvent = s.dsEvent)
    (tp : t'.dsp = t.dsp) (td : t'.ds = t.ds) (te : t'.dsEvent = t.dsEvent) : DataPopped s' t' where
  pointer := by rw [tp, hp]; exact h.pointer
  cells := by intro i; rw [td, hd]; exact h.cells i
  event := by rw [te, he, hp]; exact h.event

theorem DataTwoReplaced.congr {s s' t t' : State} {n : Nat} (h : DataTwoReplaced s t n)
    (hc : s'.cfg = s.cfg) (hp : s'.dsp = s.dsp) (hd : s'.ds = s.ds) (he : s'.dsEvent = s.dsEvent)
    (tp : t'.dsp = t.dsp) (td : t'.ds = t.ds) (te : t'.dsEvent = t.dsEvent) :
    DataTwoReplaced s' t' n where
  pointer := by rw [tp, hp]; exact h.pointer
  top := by rw [State.t, td, tp, hc]; exact h.top
  others := by intro i hi; rw [td, hd]; exact h.others i (tp ▸ hi)
  event := by rw [te, he, hp]; exact h.event

theorem ReturnPushed.congr {s s' t t' : State} {n : Nat} (h : ReturnPushed s t n)
    (hc : s'.cfg = s.cfg) (hp : s'.rsp = s.rsp) (hd : s'.rs = s.rs) (he : s'.rsEvent = s.rsEvent)
    (tp : t'.rsp = t.rsp) (td : t'.rs = t.rs) (te : t'.rsEvent = t.rsEvent) :
    ReturnPushed s' t' n where
  pointer := by rw [tp, hp]; exact h.pointer
  top := by rw [State.r, td, tp, hc]; exact h.top
  others := by intro i hi; rw [td, hd]; exact h.others i (tp ▸ hi)
  event := by rw [te, he, hp]; exact h.event

theorem ReturnPopped.congr {s s' t t' : State} (h : ReturnPopped s t)
    (hp : s'.rsp = s.rsp) (hd : s'.rs = s.rs) (he : s'.rsEvent = s.rsEvent)
    (tp : t'.rsp = t.rsp) (td : t'.rs = t.rs) (te : t'.rsEvent = t.rsEvent) : ReturnPopped s' t' where
  pointer := by rw [tp, hp]; exact h.pointer
  cells := by intro i; rw [td, hd]; exact h.cells i
  event := by rw [te, he, hp]; exact h.event

theorem PcPushed.congr {s s' t t' : State} {v : Addr} (h : PcPushed s t v)
    (hc : s'.cfg = s.cfg) (hp : s'.rsp = s.rsp) (hd : s'.rs = s.rs) (he : s'.rsEvent = s.rsEvent)
    (tp : t'.rsp = t.rsp) (td : t'.rs = t.rs) (te : t'.rsEvent = t.rsEvent) : PcPushed s' t' v where
  two := by
    intro h2
    have := h.two (hc ▸ h2)
    simpa only [State.r, tp, td, te, hp, hd, he] using this
  one := by
    intro h1
    have := h.one (hc ▸ h1)
    simpa only [State.r, tp, td, te, hp, hd, he] using this

theorem PcPopped.congr {s s' t t' : State} (h : PcPopped s t)
    (hc : s'.cfg = s.cfg) (hp : s'.rsp = s.rsp) (hd : s'.rs = s.rs) (he : s'.rsEvent = s.rsEvent)
    (tp : t'.rsp = t.rsp) (td : t'.rs = t.rs) (te : t'.rsEvent = t.rsEvent) : PcPopped s' t' where
  two := by
    intro h2
    have := h.two (hc ▸ h2)
    simpa only [tp, te, hp, he] using this
  one := by
    intro h1
    have := h.one (hc ▸ h1)
    simpa only [tp, te, hp, he] using this
  cells := by intro i; rw [td, hd]; exact h.cells i

/-! ### The data stack -/

theorem State.dPush_spec (s : State) (n : Nat) : DataPushed s (s.dPush n) n where
  pointer := by simp
  top := by simp
  others := by intro i hi; simp only [State.dPush_dsp] at hi; simp [cellAt_setCellAt_other, hi]
  event := by simp

theorem State.dDrop_spec (s : State) : DataPopped s s.dDrop where
  pointer := by simp
  cells := by simp
  event := by simp

theorem State.setT_spec (s : State) (n : Nat) : DataTopWritten s (s.setT n) n where
  pointer := by simp
  top := by simp
  others := by intro i hi; simp only [State.setT_dsp] at hi; simp [cellAt_setCellAt_other, hi]
  event := by simp

theorem State.replaceTwo_spec (s : State) (n : Nat) : DataTwoReplaced s (s.replaceTwo n) n where
  pointer := by simp
  top := by simp
  others := by
    intro i hi; simp only [State.replaceTwo_dsp] at hi; simp [cellAt_setCellAt_other, hi]
  event := by simp

/-! ### The return stack -/

theorem State.rPush_spec (s : State) (n : Nat) : ReturnPushed s (s.rPush n) n where
  pointer := by simp
  top := by simp
  others := by intro i hi; simp only [State.rPush_rsp] at hi; simp [cellAt_setCellAt_other, hi]
  event := by simp

theorem State.rDrop_spec (s : State) : ReturnPopped s s.rDrop where
  pointer := by simp
  cells := by simp
  event := by simp

/-- `setR` writes `R` in place. -/
theorem State.setR_others (s : State) (n : Nat) {i : BitVec 8} (h : i ≠ s.rsp) :
    cellAt (s.setR n).rs i = cellAt s.rs i := by
  simp [cellAt_setCellAt_other, h]

/-- `IncR` writes `R` in place. -/
theorem State.incR_others (s : State) (k : Nat) {i : BitVec 8} (h : i ≠ s.rsp) :
    cellAt (s.incR k).rs i = cellAt s.rs i := by
  unfold State.incR
  split <;> simp [cellAt_setCellAt_other, h]

/-! ### The program counter on the return stack (R130) -/

/-- A 16 bits core always takes two cells. -/
theorem twoPcCells_of_one {c : Config} (h : twoPcCells c = false) : c.core = .core32 ∧ c.width = 32 := by
  unfold twoPcCells at h
  rcases c.width_cases with ⟨hc, hw⟩ | ⟨hc, hw⟩
  · simp [hc] at h
  · exact ⟨hc, hw⟩

theorem Config.sixteen_le_width (c : Config) : (2 : Nat) ^ 16 ≤ 2 ^ c.width := by
  apply Nat.pow_le_pow_right (by decide)
  rcases c.width_cases with ⟨-, hw⟩ | ⟨-, hw⟩ <;> omega

/-- Sixteen bits fit any cell. -/
theorem cellOf_word (c : Config) (w : Word) : (cellOf c w.toNat).toNat = w.toNat := by
  have := w.isLt
  have := Config.sixteen_le_width c
  rw [cellOf_toNat, Nat.mod_eq_of_lt (by omega)]

theorem event_two (x : BitVec 8) (e : Bool) :
    (e || x == 1#8 || x - 1#8 == 1#8) = (e || x == 1#8 || x == 2#8) := by
  revert e x; decide +kernel

theorem event_two_up (x : BitVec 8) (e : Bool) :
    (e || x == 0#8 || x + 1#8 == 0#8) = (e || x == 0#8 || x == 255#8) := by
  revert e x; decide +kernel

theorem sub_one_sub_one (x : BitVec 8) : x - 1#8 - 1#8 = x - 2#8 := by revert x; decide
theorem add_one_add_one (x : BitVec 8) : x + 1#8 + 1#8 = x + 2#8 := by revert x; decide
theorem sub_two_add_one (x : BitVec 8) : x - 2#8 + 1#8 = x - 1#8 := by revert x; decide
theorem sub_one_ne_sub_two (x : BitVec 8) : x - 1#8 ≠ x - 2#8 := by revert x; decide

theorem State.pushPc_spec (s : State) (v : Addr) : PcPushed s (s.pushPc v) v where
  two := by
    intro h
    have hne := sub_one_ne_sub_two s.rsp
    have hv := v.isLt
    have e : s.pushPc v = (s.rPush (highWord v).toNat).rPush (lowWord v).toNat := by
      simp [State.pushPc, h]
    refine ⟨by simp [e, sub_one_sub_one], ?_, ?_, ?_, ?_⟩
    · rw [e, State.rPush_r, State.rPush_cfg, cellOf_word, lowWord_toNat]; rfl
    · rw [e]
      simp only [State.rPush_rs, State.rPush_rsp, State.rPush_cfg, sub_one_sub_one, sub_two_add_one]
      rw [cellAt_setCellAt_other _ _ hne, cellAt_setCellAt_same, cellOf_word, highWord_toNat]; rfl
    · intro i h1 h2
      simp only [e, State.rPush_rsp, State.rPush_rs, sub_one_sub_one, sub_two_add_one] at h1 h2 ⊢
      rw [cellAt_setCellAt_other _ _ h1, cellAt_setCellAt_other _ _ h2]
    · simp only [e, State.rPush_rsEvent, State.rPush_rsp, event_two]
  one := by
    intro h
    have e : s.pushPc v = s.rPush v.toNat := by simp [State.pushPc, h]
    refine ⟨by simp [e], ?_, ?_, by simp [e]⟩
    · have := v.isLt
      rw [e, State.rPush_r, cellOf_toNat, (twoPcCells_of_one h).2, Nat.mod_eq_of_lt this]
    · intro i h1
      simp only [e, State.rPush_rsp, State.rPush_rs] at h1 ⊢
      rw [cellAt_setCellAt_other _ _ h1]

theorem State.dropPc_spec (s : State) : PcPopped s s.dropPc where
  two := by
    intro h
    have e : s.dropPc = s.rDrop.rDrop := by simp [State.dropPc, h]
    refine ⟨by simp [e, add_one_add_one], ?_⟩
    simp only [e, State.rDrop_rsEvent, State.rDrop_rsp, event_two_up]
  one := by
    intro h
    have e : s.dropPc = s.rDrop := by simp [State.dropPc, h]
    exact ⟨by simp [e], by simp [e]⟩
  cells := by intro i; unfold State.dropPc; split <;> simp

theorem State.popPc_spec (s : State) : PcPopped s s.popPc :=
  s.dropPc_spec.congr rfl rfl rfl rfl (by simp [State.popPc]) (by simp [State.popPc])
    (by simp [State.popPc])

theorem State.pushPc_rsp (s : State) (v : Addr) :
    (s.pushPc v).rsp = if twoPcCells s.cfg then s.rsp - 2#8 else s.rsp - 1#8 := by
  unfold State.pushPc
  split <;> simp [sub_one_sub_one]

theorem State.dropPc_rsp (s : State) :
    s.dropPc.rsp = if twoPcCells s.cfg then s.rsp + 2#8 else s.rsp + 1#8 := by
  unfold State.dropPc
  split <;> simp [add_one_add_one]

/-- The pointer after `PopPC` undoes the pointer after `PushPC`. -/
theorem State.pushPc_dropPc_rsp (s : State) (v : Addr) : (s.pushPc v).dropPc.rsp = s.rsp := by
  rw [State.dropPc_rsp, State.pushPc_rsp, State.pushPc_cfg]
  split <;> simp

/-- What `PopPC` reads after `PushPC` is what was pushed. -/
theorem State.pushPc_returnPc (s : State) (v : Addr) : (s.pushPc v).returnPc = v.toNat := by
  unfold State.returnPc
  rw [State.pushPc_cfg]
  split
  · next h =>
    have e : s.pushPc v = (s.rPush (highWord v).toNat).rPush (lowWord v).toNat := by
      simp [State.pushPc, h]
    have l : lowWord (cellOf s.cfg (lowWord v).toNat) = lowWord v := by
      apply BitVec.eq_of_toNat_eq
      rw [lowWord_toNat, cellOf_word, Nat.mod_eq_of_lt (lowWord v).isLt]
    have g : lowWord (cellOf s.cfg (highWord v).toNat) = highWord v := by
      apply BitVec.eq_of_toNat_eq
      rw [lowWord_toNat, cellOf_word, Nat.mod_eq_of_lt (highWord v).isLt]
    rw [e, State.rPush_rDrop_r, State.rPush_r, State.rPush_r, State.rPush_cfg, l, g, append_high_low]
  · next h =>
    have hf : twoPcCells s.cfg = false := by simpa using h
    have e : s.pushPc v = s.rPush v.toNat := by simp [State.pushPc, hf]
    rw [e, State.rPush_r, cellOf_toNat, (twoPcCells_of_one hf).2, Nat.mod_eq_of_lt v.isLt]

/-- The cells of the return stack after `PushPC`, but for the two below the pointer. -/
theorem State.pushPc_others (s : State) (v : Addr) {j : BitVec 8} (h1 : j ≠ s.rsp - 1#8)
    (h2 : j ≠ s.rsp - 2#8) : cellAt (s.pushPc v).rs j = cellAt s.rs j := by
  unfold State.pushPc
  split
  · simp [cellAt_setCellAt_other, h1, h2, sub_one_sub_one]
  · simp [cellAt_setCellAt_other, h1]

/-! ### Branches -/

/-- Where a branch goes, as numbers: `d` counts words, and the sum is taken `mod 2^AB` (R102). -/
theorem State.branch_pc_toNat (s : State) (d : Movement) (h : s.pc.toNat % 2 = 0) :
    ((s.branch d).pc.toNat : Int) = ((s.pc.toNat : Int) + 2 * d.toInt) % 2 ^ s.cfg.addrBits := by
  have he := displacement_even d
  have hdv : 2 ^ s.cfg.addrBits ∣ 2 ^ 32 := pow_dvd_pow 2 s.cfg.addrBits_le
  have hz : ((2 : Int) ^ s.cfg.addrBits) ∣ 4294967296 := pow_dvd_pow 2 s.cfg.addrBits_le
  rw [State.branch_pc, evenAddrOf_toNat_of_even _ (by rw [BitVec.toNat_add]; omega), BitVec.toNat_add,
    Nat.mod_mod_of_dvd _ hdv, ← displacement_toInt d, BitVec.toInt_eq_toNat_cond]
  push_cast
  split
  · rfl
  · obtain ⟨k, hk⟩ := hz
    rw [← add_sub_assoc, hk, Int.sub_mul_emod_self_left]

/-! ### Memory -/

/-- On the flat map every word answers at its own address (D16). -/
theorem State.placeOf_flat {s : State} (h : s.cfg.memoryMap = []) (a : Nat) : s.placeOf a = .ram (a / 2) := by
  simp [State.placeOf, region, h]

/-- What answers depends on the map, `CE.S` and `rom_inhibit` only (R78). -/
theorem State.placeOf_congr {s t : State} (hc : t.cfg = s.cfg) (hs : t.ce.s = s.ce.s)
    (hr : t.romInhibit = s.romInhibit) (a : Nat) : t.placeOf a = s.placeOf a := by
  simp only [State.placeOf, hc, hs, hr]

/-- Both bytes of a word answer at the same place, and the boot ROM shows at both or at neither. -/
theorem State.placeOf_of_half (s : State) {a b : Nat} (h : a / 2 = b / 2) : s.placeOf a = s.placeOf b := by
  simp only [State.placeOf, h]

theorem State.romShows_of_half (s : State) {a b : Nat} (h : a / 2 = b / 2) : s.romShows a = s.romShows b := by
  have : a < 0x200 ↔ b < 0x200 := by omega
  simp only [State.romShows, this]

/-- What a read finds where the boot ROM does not show and a word of memory answers (R72, R78). -/
theorem State.byteAt_of_place {s : State} {a n : Nat} (hr : s.romShows a = false)
    (h : s.placeOf a = .ram n ∨ s.placeOf a = .rom n) : s.byteAt a = Mem.read s.mem (n * 2 + a % 2) := by
  rcases h with h | h <;> simp [State.byteAt, hr, h]

/-- A word that answers an address of the machine is one of its `2^(AB-1)` words (R71). -/
theorem State.ram_lt {s : State} {a n : Nat} (ha : a < 2 ^ s.cfg.addrBits) (h : s.placeOf a = .ram n) :
    n * 2 + 1 < 2 ^ s.cfg.addrBits := by
  have hw := s.cfg.words_mul_two
  suffices n < 2 ^ (s.cfg.addrBits - 1) by omega
  unfold State.placeOf region at h
  split at h
  · next r _ =>
    unfold placeInRegion at h
    split at h <;> cases h
    exact Nat.mod_lt _ (by positivity)
  · cases h; omega

theorem State.storeWord_read {s : State} {a : Addr} {n : Nat} (h : s.placeOf a.toNat = .ram n) (w : Word)
    (k : Nat) : Mem.read (s.storeWord a w).mem k =
      if k = n * 2 + 1 then oddByte w else if k = n * 2 then evenByte w else Mem.read s.mem k := by
  simp only [State.storeWord, State.memWithWord, h, Mem.read_write]

theorem State.storeByte_read {s : State} {a : Addr} {n : Nat} (h : s.placeOf a.toNat = .ram n) (v : Byte)
    (k : Nat) : Mem.read (s.storeByte a v).mem k =
      if k = n * 2 + a.toNat % 2 then v else Mem.read s.mem k := by
  simp only [State.storeByte, State.memWithByte, h, Mem.read_write]

/-- A store where no memory can be written is lost (log 8). -/
theorem State.storeWord_lost {s : State} {a : Addr} (h : ∀ n, s.placeOf a.toNat ≠ .ram n) (w : Word) :
    s.storeWord a w = s := by
  cases hp : s.placeOf a.toNat <;> simp_all [State.storeWord, State.memWithWord]

theorem State.storeByte_lost {s : State} {a : Addr} (h : ∀ n, s.placeOf a.toNat ≠ .ram n) (v : Byte) :
    s.storeByte a v = s := by
  cases hp : s.placeOf a.toNat <;> simp_all [State.storeByte, State.memWithByte]

theorem MemoryKept.of_eq {s t : State} (h : t.mem = s.mem) : MemoryKept s t := by
  intro k; rw [h]

theorem State.store_spec (s : State) (a : Addr) (v : Cell) : Stored s (s.store a v) a v where
  byteMode := by
    intro h n hn
    have e : s.store a v = s.storeByte a (lowByte v) := by simp [State.store, h]
    refine ⟨by rw [e, State.storeByte_read hn, if_pos rfl]; rfl, fun k hk => ?_⟩
    rw [e, State.storeByte_read hn, if_neg hk]
  wordMode := by
    intro h n hn
    have e : s.store a v = s.storeWord a (lowWord v) := by simp [State.store, h]
    refine ⟨?_, ?_, fun k hk => ?_⟩
    · rw [e, State.storeWord_read hn, if_neg (by omega), if_pos rfl]
      apply BitVec.eq_of_getLsbD_eq
      intro i hi
      simp [evenByte, lowWord, hi]
    · rw [e, State.storeWord_read hn, if_pos rfl]
      apply BitVec.eq_of_getLsbD_eq
      intro i hi
      simp [oddByte, lowWord, hi]
    · rw [e, State.storeWord_read hn, if_neg (by omega), if_neg (by omega)]
  lost := by
    intro h
    refine MemoryKept.of_eq ?_
    unfold State.store
    split
    · rw [State.storeByte_lost h]
    · rw [State.storeWord_lost h]

theorem Stored.congr {s s' t t' : State} {a : Addr} {v : Cell} (h : Stored s t a v) (hc : s'.cfg = s.cfg)
    (he : s'.ce = s.ce) (hr : s'.romInhibit = s.romInhibit) (hm : s'.mem = s.mem) (tm : t'.mem = t.mem) :
    Stored s' t' a v := by
  have hp := State.placeOf_congr hc (by rw [he]) hr a.toNat
  constructor
  · rw [he, hp, tm, hm]; exact h.byteMode
  · rw [he, hp, tm, hm]; exact h.wordMode
  · intro h1 k; rw [tm, hm]; exact h.lost (hp ▸ h1) k

/-! ### Reading memory -/

theorem append8_toNat (a b : Byte) : (a ++ b : BitVec 16).toNat = a.toNat * 256 + b.toNat := by
  have hl := b.isLt
  rw [BitVec.toNat_append, Nat.shiftLeft_eq, Nat.mul_comm, ← Nat.two_pow_add_eq_or_of_lt hl]

theorem signExtend_byte_toNat (b : Byte) :
    (b.signExtend 16).toNat = if b.toNat < 128 then b.toNat else b.toNat + 0xFF00 := by
  revert b; decide +kernel

theorem State.wordAt_toNat (s : State) (a : Addr) : (s.wordAt a).toNat =
    (s.byteAt (a.toNat / 2 * 2)).toNat * 256 + (s.byteAt (a.toNat / 2 * 2 + 1)).toNat := by
  rw [State.wordAt, append8_toNat]; rfl

/-- What a memory instruction fetches, as a number (R150, R75). -/
theorem State.fetched_toNat (s : State) (a : Addr) : (s.fetched a).toNat =
    if s.ce.b then
      (if (s.byteAt a.toNat).toNat < 128 then (s.byteAt a.toNat).toNat
        else (s.byteAt a.toNat).toNat + 0xFF00)
    else (s.byteAt (a.toNat / 2 * 2)).toNat * 256 + (s.byteAt (a.toNat / 2 * 2 + 1)).toNat := by
  unfold State.fetched
  split
  · rw [zextCell, cellOf_word, State.signedByteAt, signExtend_byte_toNat]
  · rw [zextCell, cellOf_word, State.wordAt_toNat]

theorem inTopMegabyte_iff (c : Config) (a : Addr) :
    inTopMegabyte c a = true ↔ a.toNat / 2 ^ 20 = 2 ^ (c.addrBits - 20) - 1 := by
  simp [inTopMegabyte, Nat.shiftRight_eq_div_pow]

/-! ### The post-increment looks at its own registers only -/

theorem State.addrA_congr {s s' : State} (hc : s'.cfg = s.cfg) (ha : s'.a = s.a) (hp : s'.pa = s.pa) :
    s'.addrA = s.addrA := by
  unfold State.addrA; rw [hc, ha, hp]

theorem State.addrR_congr {s s' : State} (hc : s'.cfg = s.cfg) (hr : s'.r = s.r) (hp : s'.pr = s.pr) :
    s'.addrR = s.addrR := by
  unfold State.addrR; rw [hc, hr, hp]

theorem State.incA_congr {s s' : State} (k : Nat) (hc : s'.cfg = s.cfg) (ha : s'.a = s.a)
    (hp : s'.pa = s.pa) : (s'.incA k).a = (s.incA k).a ∧ (s'.incA k).pa = (s.incA k).pa := by
  unfold State.incA State.nextAddr
  rw [hc, State.addrA_congr hc ha hp]
  split <;> simp [hc, ha, hp]

theorem State.incR_congr {s s' : State} (k : Nat) (hc : s'.cfg = s.cfg) (hs : s'.rs = s.rs)
    (hr : s'.rsp = s.rsp) (hp : s'.pr = s.pr) :
    (s'.incR k).rs = (s.incR k).rs ∧ (s'.incR k).pr = (s.incR k).pr := by
  have h : s'.r = s.r := by rw [State.r, State.r, hs, hr]
  unfold State.incR State.nextAddr
  rw [hc, State.addrR_congr hc h hp]
  split <;> simp [hc, hs, hr, hp, h]

/-! ### Interruption entry and return -/

/-- Everything `Enter` does: it pushes `pc`, saves, sets `I` and `M`, clears `B` and goes to the vector. -/
theorem State.enter_pushed (s : State) (v : Nat) : PcPushed s (s.enter v) s.pc :=
  (s.pushPc_spec s.pc).congr rfl rfl rfl rfl (by simp) (by simp) (by simp)

/-- What taking an interruption does: everything `Entered` says (R201). -/
theorem State.enter_spec (s : State) {v : Nat} (he : v % 2 = 0) (hv : v < 2 ^ 21) :
    Entered s (s.enter v) v where
  pushed := s.enter_pushed v
  pc := by
    have : 2 ^ 21 ≤ 2 ^ s.cfg.addrBits := Nat.pow_le_pow_right (by decide) s.cfg.addrBits_ge
    rw [State.enter_pc, evenAddrOf_toNat_of_even _ he, Nat.mod_eq_of_lt (by omega)]
  sa := by simp
  sce := by simp
  pages16 := by intro h; simp [State.enter, State.saveRegisters, h]
  pages32 := by intro h; simp [State.enter, State.saveRegisters, h]
  ce := by simp
  memory := MemoryKept.of_eq (by simp)
  frame := by apply State.ext_fields <;> simp

/-! ### Outcomes -/

/-- A sequence reaches a next state exactly through one. -/
theorem andThen_next {o : Host.Outcome State Fault Refusal}
    {f : State → Host.Outcome State Fault Refusal} {t : State} :
    andThen o f = .next t ↔ ∃ u, o = .next u ∧ f u = .next t := by
  cases o <;> simp [andThen]

@[simp] theorem andThen_of_next (s : State) (f : State → Host.Outcome State Fault Refusal) :
    andThen (.next s) f = f s := rfl

theorem runSlots_cons_next {run : Meaning} {i : Instr} {is : List Instr} {s t : State} :
    runSlots run (i :: is) s = .next t ↔
      ∃ u, run i s = .next u ∧ (if endsLine i then u = t else runSlots run is u = .next t) := by
  rw [runSlots, andThen_next]
  constructor <;> rintro ⟨u, h1, h2⟩ <;> refine ⟨u, h1, ?_⟩ <;> (split <;> simp_all)

end Sys2Proof.Machine
end

