-- ==== Sys2Proof/Laws/ExtensionRegisters.lean ====
section
/-!
SUPPORT. What stands behind each extension-register number, and what an access does, said once.
-/

namespace Sys2Proof.Machine

/-! ### The map (R38) -/

/-- A number with no register, whatever the core (R38, R46). -/
theorem extReg_free (c : Config) {n : Word}
    (h : (9 ≤ n.toNat ∧ n.toNat ≤ 255) ∨ (260 ≤ n.toNat ∧ n.toNat ≤ 511) ∨ 1024 ≤ n.toNat) :
    extReg c n = .freeSpace := by
  unfold extReg
  iterate 13 rw [if_neg (by omega)]
  rw [if_neg (by omega), if_neg (by omega)]

theorem extReg_data (c : Config) {n : Word} (h1 : 512 ≤ n.toNat) (h2 : n.toNat < 768) :
    extReg c n = .dataCell (n.setWidth 8) := by
  unfold extReg
  iterate 13 rw [if_neg (by omega)]
  rw [if_pos ⟨h1, h2⟩]

theorem extReg_return (c : Config) {n : Word} (h1 : 768 ≤ n.toNat) (h2 : n.toNat < 1024) :
    extReg c n = .returnCell (n.setWidth 8) := by
  unfold extReg
  iterate 13 rw [if_neg (by omega)]
  rw [if_neg (by omega), if_pos ⟨h1, h2⟩]

/-- The number of data-stack cell `i` is 512 and `i`. -/
@[simp] theorem extReg_dataCell (c : Config) (i : BitVec 8) :
    extReg c (512#16 + i.setWidth 16) = .dataCell i := by
  have hi := i.isLt
  have e : (512#16 + i.setWidth 16).toNat = 512 + i.toNat := by simp; omega
  rw [extReg_data c (by omega) (by omega)]
  congr 1
  apply BitVec.eq_of_toNat_eq
  rw [BitVec.toNat_setWidth, e]; omega

/-- The number of return-stack cell `i` is 768 and `i`. -/
@[simp] theorem extReg_returnCell (c : Config) (i : BitVec 8) :
    extReg c (768#16 + i.setWidth 16) = .returnCell i := by
  have hi := i.isLt
  have e : (768#16 + i.setWidth 16).toNat = 768 + i.toNat := by simp; omega
  rw [extReg_return c (by omega) (by omega)]
  congr 1
  apply BitVec.eq_of_toNat_eq
  rw [BitVec.toNat_setWidth, e]; omega

/-- Every number names one register, a cell, or free space. -/
theorem extReg_cases (c : Config) (n : Word) :
    (n.toNat = 0 ∨ n.toNat = 1 ∨ n.toNat = 2 ∨ n.toNat = 3 ∨ n.toNat = 4 ∨ n.toNat = 5 ∨
      n.toNat = 6 ∨ n.toNat = 7 ∨ n.toNat = 8 ∨ n.toNat = 256 ∨ n.toNat = 257 ∨ n.toNat = 258 ∨
      n.toNat = 259) ∨
    (512 ≤ n.toNat ∧ n.toNat < 768 ∧ extReg c n = .dataCell (n.setWidth 8)) ∨
    (768 ≤ n.toNat ∧ n.toNat < 1024 ∧ extReg c n = .returnCell (n.setWidth 8)) ∨
    (((9 ≤ n.toNat ∧ n.toNat ≤ 255) ∨ (260 ≤ n.toNat ∧ n.toNat ≤ 511) ∨ 1024 ≤ n.toNat) ∧
      extReg c n = .freeSpace) := by
  by_cases h1 : (9 ≤ n.toNat ∧ n.toNat ≤ 255) ∨ (260 ≤ n.toNat ∧ n.toNat ≤ 511) ∨ 1024 ≤ n.toNat
  · exact .inr (.inr (.inr ⟨h1, extReg_free c h1⟩))
  by_cases h2 : 512 ≤ n.toNat ∧ n.toNat < 768
  · exact .inr (.inl ⟨h2.1, h2.2, extReg_data c h2.1 h2.2⟩)
  by_cases h3 : 768 ≤ n.toNat ∧ n.toNat < 1024
  · exact .inr (.inr (.inl ⟨h3.1, h3.2, extReg_return c h3.1 h3.2⟩))
  exact .inl (by omega)

/-- The number of a register; free space has none of its own. -/
def numberOf : ExtReg → Nat
  | .pa => 0
  | .pr => 1
  | .pntt => 2
  | .pntr => 3
  | .ce => 4
  | .sa => 5
  | .spa => 6
  | .spr => 7
  | .sce => 8
  | .timer => 256
  | .uartBaud => 257
  | .uartCtrl => 258
  | .uartData => 259
  | .dataCell i => 512 + i.toNat
  | .returnCell i => 768 + i.toNat
  | .freeSpace => 1024

/-- A register stands behind its own number and no other. -/
theorem extReg_number {c : Config} {n : Word} (h : extReg c n ≠ .freeSpace) :
    numberOf (extReg c n) = n.toNat := by
  rcases extReg_cases c n with h1 | ⟨h1, h2, h3⟩ | ⟨h1, h2, h3⟩ | ⟨-, h3⟩
  · unfold extReg onlyCore16 at h ⊢
    rcases h1 with h1 | h1 | h1 | h1 | h1 | h1 | h1 | h1 | h1 | h1 | h1 | h1 | h1 <;>
      cases hc : c.core <;> simp [h1, hc, numberOf] at h ⊢
  · rw [h3, numberOf, BitVec.toNat_setWidth]; omega
  · rw [h3, numberOf, BitVec.toNat_setWidth]; omega
  · exact absurd h3 h

/-- Two numbers of one register are one number. -/
theorem extReg_injective {c : Config} {n k : Word} (h : extReg c n = extReg c k)
    (hf : extReg c n ≠ .freeSpace) : n = k := by
  apply BitVec.eq_of_toNat_eq
  rw [← extReg_number hf, ← extReg_number (h ▸ hf), h]

/-! ### Accesses -/

/-- A register that a write reaches is not free space. -/
theorem State.extWrite_ne_free {s w : State} {v : Cell} {r : ExtReg} (h : s.extWrite v r = some w) :
    r ≠ .freeSpace := by
  rintro rfl; cases h

/-- No access changes the parameters. -/
theorem State.extWrite_cfg {s w : State} {v : Cell} {r : ExtReg} (h : s.extWrite v r = some w) :
    w.cfg = s.cfg := by
  cases r <;> simp only [State.extWrite, Option.some.injEq, reduceCtorEq] at h <;> subst h <;> rfl

/-- A write of an extension register leaves the pointers, `pc`, `A`, memory and what the environment does. -/
theorem State.extWrite_frame {s w : State} {v : Cell} {r : ExtReg} (h : s.extWrite v r = some w) :
    w.pc = s.pc ∧ w.a = s.a ∧ w.dsp = s.dsp ∧ w.rsp = s.rsp ∧ w.dsEvent = s.dsEvent ∧
    w.rsEvent = s.rsEvent ∧ w.romInhibit = s.romInhibit ∧ w.extIrq = s.extIrq ∧ w.mem = s.mem ∧
    w.inbox = s.inbox := by
  cases r <;> simp only [State.extWrite, Option.some.injEq, reduceCtorEq] at h <;> subst h <;> simp

/-- Only a write of `CE` reaches the control bits. -/
theorem State.extWrite_ce {s w : State} {v : Cell} {r : ExtReg} (h : s.extWrite v r = some w)
    (hr : r ≠ .ce) : w.ce = s.ce := by
  cases r <;> simp only [State.extWrite, Option.some.injEq, reduceCtorEq] at h <;> subst h <;>
    first | rfl | exact absurd rfl hr

end Sys2Proof.Machine
end

