-- ==== Sys2Proof/Laws/Legal.lean ====
section
/-!
SUPPORT. Each shared operation keeps a legal state legal.
-/

namespace Sys2Proof.Machine

/-! ### Registers -/

theorem State.Legal.setPc {s : State} (h : s.Legal) (n : Nat) : (s.setPc n).Legal :=
  { h with pc_even := evenAddrOf_even _ n, pc_lt := evenAddrOf_lt _ n }

theorem State.Legal.advancePc {s : State} (h : s.Legal) : s.advancePc.Legal := h.setPc _

theorem State.Legal.branch {s : State} (h : s.Legal) (d : Movement) : (s.branch d).Legal := h.setPc _

theorem State.Legal.noteRead {s : State} (h : s.Legal) (a : Addr) : (s.noteRead a).Legal := { h with }

theorem State.Legal.passWord {s : State} (h : s.Legal) : s.passWord.Legal := (h.noteRead _).advancePc

theorem State.Legal.afterFetch {s : State} (h : s.Legal) : s.afterFetch.Legal := by
  unfold State.afterFetch
  split
  · exact h.passWord.passWord
  · exact h.passWord

theorem State.Legal.setA {s : State} (h : s.Legal) (n : Nat) : (s.setA n).Legal :=
  { h with a_lt := cellOf_lt _ n }

theorem State.Legal.setC {s : State} (h : s.Legal) (b : Bool) : (s.setC b).Legal := { h with }

theorem State.Legal.setCe {s : State} (h : s.Legal) (w : Word) : (s.setCe w).Legal := { h with }

/-! ### Stacks -/

theorem setCellAt_lt {c : Config} {st : Stack} (h : ∀ i, (cellAt st i).toNat < 2 ^ c.width)
    (j : BitVec 8) (n : Nat) : ∀ i, (cellAt (setCellAt st j (cellOf c n)) i).toNat < 2 ^ c.width := by
  intro i
  rw [cellAt_setCellAt]
  split
  · exact cellOf_lt c n
  · exact h i

theorem State.Legal.setT {s : State} (h : s.Legal) (n : Nat) : (s.setT n).Legal :=
  { h with ds_lt := setCellAt_lt h.ds_lt _ n }

theorem State.Legal.dPush {s : State} (h : s.Legal) (n : Nat) : (s.dPush n).Legal :=
  { h with ds_lt := setCellAt_lt h.ds_lt _ n }

theorem State.Legal.dDrop {s : State} (h : s.Legal) : s.dDrop.Legal := { h with }

theorem State.Legal.replaceTwo {s : State} (h : s.Legal) (n : Nat) : (s.replaceTwo n).Legal :=
  h.dDrop.setT n

theorem State.Legal.setR {s : State} (h : s.Legal) (n : Nat) : (s.setR n).Legal :=
  { h with rs_lt := setCellAt_lt h.rs_lt _ n }

theorem State.Legal.rPush {s : State} (h : s.Legal) (n : Nat) : (s.rPush n).Legal :=
  { h with rs_lt := setCellAt_lt h.rs_lt _ n }

theorem State.Legal.rDrop {s : State} (h : s.Legal) : s.rDrop.Legal := { h with }

theorem State.Legal.pushPc {s : State} (h : s.Legal) (v : Addr) : (s.pushPc v).Legal := by
  unfold State.pushPc
  split
  · exact (h.rPush _).rPush _
  · exact h.rPush _

theorem State.Legal.dropPc {s : State} (h : s.Legal) : s.dropPc.Legal := by
  unfold State.dropPc
  split
  · exact h.rDrop.rDrop
  · exact h.rDrop

theorem State.Legal.popPc {s : State} (h : s.Legal) : s.popPc.Legal := h.dropPc.setPc _

theorem State.Legal.t_lt {s : State} (h : s.Legal) : s.t.toNat < 2 ^ s.cfg.width := h.ds_lt _

theorem State.Legal.second_lt {s : State} (h : s.Legal) : s.second.toNat < 2 ^ s.cfg.width := h.ds_lt _

theorem State.Legal.r_lt {s : State} (h : s.Legal) : s.r.toNat < 2 ^ s.cfg.width := h.rs_lt _

/-! ### Addresses and memory -/

theorem State.addrA_lt (s : State) : s.addrA.toNat < 2 ^ s.cfg.addrBits := by
  unfold State.addrA
  split <;> exact addrOf_lt _ _

theorem State.addrR_lt (s : State) : s.addrR.toNat < 2 ^ s.cfg.addrBits := by
  unfold State.addrR
  split <;> exact addrOf_lt _ _

/-- The page of an address that is `AB` bits wide is `PAGE_BITS` wide. -/
theorem highWord_lt_page {c : Config} {a : Addr} (h : a.toNat < 2 ^ c.addrBits) :
    (highWord a).toNat < 2 ^ c.pageBits := by
  rw [highWord_toNat]
  rw [c.pow_addrBits_eq] at h
  exact Nat.div_lt_of_lt_mul (by omega)

theorem State.Legal.incA {s : State} (h : s.Legal) (k : Nat) : (s.incA k).Legal := by
  unfold State.incA
  split
  · exact { h.setA _ with pa_lt := highWord_lt_page (addrOf_lt _ _) }
  · exact h.setA _

theorem State.Legal.incR {s : State} (h : s.Legal) (k : Nat) : (s.incR k).Legal := by
  unfold State.incR
  split
  · exact { h.setR _ with pr_lt := highWord_lt_page (addrOf_lt _ _) }
  · exact h.setR _

/-- A legal state stays legal when its memory changes to another canonical one. -/
theorem State.Legal.withMem {s : State} (h : s.Legal) {m : Mem} (hw : m.wf = true)
    (hb : Mem.below (2 ^ s.cfg.addrBits) m = true) : ({ s with mem := m } : State).Legal :=
  { h with mem_wf := hw, mem_below := hb }

theorem State.Legal.storeByte {s : State} (h : s.Legal) {a : Addr} (ha : a.toNat < 2 ^ s.cfg.addrBits)
    (v : Byte) : (s.storeByte a v).Legal := by
  cases hp : s.placeOf a.toNat with
  | ram n =>
    have hn := State.ram_lt ha hp
    have e : s.storeByte a v = { s with mem := s.mem.write (n * 2 + a.toNat % 2) v } := by
      simp [State.storeByte, State.memWithByte, hp]
    rw [e]
    exact h.withMem (Mem.wf_write _ _ h.mem_wf) (Mem.below_write _ (by omega) h.mem_below)
  | rom _ => rwa [State.storeByte_lost (by simp [hp])]
  | absent => rwa [State.storeByte_lost (by simp [hp])]

theorem State.Legal.storeWord {s : State} (h : s.Legal) {a : Addr} (ha : a.toNat < 2 ^ s.cfg.addrBits)
    (v : Word) : (s.storeWord a v).Legal := by
  cases hp : s.placeOf a.toNat with
  | ram n =>
    have hn := State.ram_lt ha hp
    have e : s.storeWord a v =
        { s with mem := (s.mem.write (n * 2) (evenByte v)).write (n * 2 + 1) (oddByte v) } := by
      simp [State.storeWord, State.memWithWord, hp]
    rw [e]
    exact h.withMem (Mem.wf_write _ _ (Mem.wf_write _ _ h.mem_wf))
      (Mem.below_write _ hn (Mem.below_write _ (by omega) h.mem_below))
  | rom _ => rwa [State.storeWord_lost (by simp [hp])]
  | absent => rwa [State.storeWord_lost (by simp [hp])]

theorem State.Legal.store {s : State} (h : s.Legal) {a : Addr} (ha : a.toNat < 2 ^ s.cfg.addrBits)
    (v : Cell) : (s.store a v).Legal := by
  unfold State.store
  split
  · exact h.storeByte ha _
  · exact h.storeWord ha _

/-! ### Interruptions, reset and the environment -/

/-- Fields that carry no limit may take any value. -/
theorem State.Legal.with_free {s : State} (h : s.Legal) (c : Control) (de re : Bool)
    (ib : List (List EnvEvent)) :
    ({ s with ce := c, dsEvent := de, rsEvent := re, inbox := ib } : State).Legal := { h with }

theorem State.Legal.saveRegisters {s : State} (h : s.Legal) : s.saveRegisters.Legal := by
  unfold State.saveRegisters
  split
  · exact { h with sa_lt := h.a_lt, spa_lt := h.pa_lt, spr_lt := h.pr_lt }
  · exact { h with sa_lt := h.a_lt }

theorem State.Legal.enter {s : State} (h : s.Legal) (v : Nat) : (s.enter v).Legal :=
  ((h.pushPc s.pc).saveRegisters.with_free _ _ _ _).setPc v

theorem State.Legal.restoreRegisters {s : State} (h : s.Legal) : s.restoreRegisters.Legal := by
  unfold State.restoreRegisters
  split
  · exact { h with a_lt := h.sa_lt, pa_lt := h.spa_lt, pr_lt := h.spr_lt }
  · exact { h with a_lt := h.sa_lt }

theorem State.Legal.returnFromInterruption {s : State} (h : s.Legal) :
    s.returnFromInterruption.Legal := h.popPc.restoreRegisters

theorem State.Legal.endOfLine {s : State} (h : s.Legal) : s.endOfLine.Legal := by
  unfold State.endOfLine
  split
  · exact (h.with_free _ _ _ _).enter _
  · split
    · exact (h.with_free _ _ _ _).enter _
    · split
      · exact h.enter _
      · exact h

theorem State.Legal.applyReset {s : State} (h : s.Legal) : s.applyReset.Legal where
  pc_even := rfl
  pc_lt := by simp [State.applyReset]
  a_lt := by simp [State.applyReset]
  sa_lt := h.sa_lt
  ds_lt := h.ds_lt
  rs_lt := h.rs_lt
  pa_lt := by unfold State.applyReset; cases hc : s.cfg.core <;> simp [h.pa_lt]
  pr_lt := by unfold State.applyReset; cases hc : s.cfg.core <;> simp [h.pr_lt]
  spa_lt := h.spa_lt
  spr_lt := h.spr_lt
  mem_wf := h.mem_wf
  mem_below := h.mem_below

theorem State.Legal.applyEvent {s : State} (h : s.Legal) (e : EnvEvent) : (s.applyEvent e).Legal := by
  cases e
  · exact h.applyReset
  all_goals exact { h with }

theorem State.Legal.applyEvents {s : State} (h : s.Legal) (es : List EnvEvent) :
    (s.applyEvents es).Legal := by
  induction es generalizing s with
  | nil => exact h
  | cons e es ih => exact ih (h.applyEvent e)

theorem State.Legal.deliver {s : State} (h : s.Legal) : s.deliver.Legal := by
  unfold State.deliver
  split
  · exact h
  · exact (h.with_free _ _ _ _).applyEvents _

/-! ### Extension registers -/

theorem State.Legal.noteExtRead {s : State} (h : s.Legal) (r : ExtReg) : (s.noteExtRead r).Legal := by
  cases r <;> first | exact h | exact { h with }

theorem State.Legal.extWrite {s w : State} (h : s.Legal) {v : Cell} {r : ExtReg}
    (hw : s.extWrite v r = some w) : w.Legal := by
  cases r <;> simp only [State.extWrite, Option.some.injEq, reduceCtorEq] at hw <;> subst hw
  case pa => exact { h with pa_lt := pageOf_lt _ _ }
  case pr => exact { h with pr_lt := pageOf_lt _ _ }
  case sa => exact { h with sa_lt := cellOf_lt _ _ }
  case spa => exact { h with spa_lt := pageOf_lt _ _ }
  case spr => exact { h with spr_lt := pageOf_lt _ _ }
  case dataCell i => exact { h with ds_lt := setCellAt_lt h.ds_lt _ _ }
  case returnCell i => exact { h with rs_lt := setCellAt_lt h.rs_lt _ _ }
  all_goals exact { h with }

end Sys2Proof.Machine
end

