-- ==== Sys2Proof/Laws/PerInstr.lean ====
section
/-!
SUPPORT. One lemma per instruction: the decoder reads the instruction back from its 5-bit code, on every core
that has it and in every slot that can hold it (R105, R106, R108).
-/

namespace Sys2Proof.Laws

/-- The code of an instruction that fits a slot decodes to that instruction. -/
def SlotCode.Statement (i : Instr) : Prop :=
  ∀ c : Config, i.fitsLaterSlot c = true → decodeSlot c (slotCode i) = i

theorem SlotCode.jmp (d : Movement) : SlotCode.Statement (.jmp d) := fun _ h => by simp [Instr.fitsLaterSlot, Instr.isWholeLine] at h
theorem SlotCode.jz (d : Movement) : SlotCode.Statement (.jz d) := fun _ h => by simp [Instr.fitsLaterSlot, Instr.isWholeLine] at h
theorem SlotCode.call (d : Movement) : SlotCode.Statement (.call d) := fun _ h => by simp [Instr.fitsLaterSlot, Instr.isWholeLine] at h
theorem SlotCode.jnc (d : Movement) : SlotCode.Statement (.jnc d) := fun _ h => by simp [Instr.fitsLaterSlot, Instr.isWholeLine] at h
theorem SlotCode.fcw : SlotCode.Statement .fcw := fun _ _ => rfl
theorem SlotCode.stcw : SlotCode.Statement .stcw := fun _ _ => rfl
theorem SlotCode.ret : SlotCode.Statement .ret := fun _ _ => rfl
theorem SlotCode.iret : SlotCode.Statement .iret := fun _ _ => rfl
theorem SlotCode.ftchrp : SlotCode.Statement .ftchrp := fun _ _ => rfl
theorem SlotCode.ftchap : SlotCode.Statement .ftchap := fun _ _ => rfl
theorem SlotCode.lit : SlotCode.Statement .lit := fun _ _ => rfl
theorem SlotCode.ftcha : SlotCode.Statement .ftcha := fun _ _ => rfl
theorem SlotCode.strp : SlotCode.Statement .strp := fun _ _ => rfl
theorem SlotCode.stap : SlotCode.Statement .stap := fun _ _ => rfl
theorem SlotCode.swi : SlotCode.Statement .swi := fun c h => by
  have : c.core = .core16 := by simpa [Instr.fitsLaterSlot, Instr.existsOn, Instr.isWholeLine] using h
  simp [decodeSlot, slotCode, this]
theorem SlotCode.swab : SlotCode.Statement .swab := fun c h => by
  have : c.core = .core32 := by simpa [Instr.fitsLaterSlot, Instr.existsOn, Instr.isWholeLine] using h
  simp [decodeSlot, slotCode, this]
theorem SlotCode.sta : SlotCode.Statement .sta := fun _ _ => rfl
theorem SlotCode.com : SlotCode.Statement .com := fun _ _ => rfl
theorem SlotCode.rolc : SlotCode.Statement .rolc := fun _ _ => rfl
theorem SlotCode.rorc : SlotCode.Statement .rorc := fun _ _ => rfl
theorem SlotCode.addc : SlotCode.Statement .addc := fun c h => by
  have : c.mt = false := by simpa [Instr.fitsLaterSlot, Instr.existsOn, Instr.isWholeLine] using h
  simp [decodeSlot, slotCode, this]
theorem SlotCode.mulu : SlotCode.Statement .mulu := fun c h => by
  have : c.mt = true := by simpa [Instr.fitsLaterSlot, Instr.existsOn, Instr.isWholeLine] using h
  simp [decodeSlot, slotCode, this]
theorem SlotCode.xorr : SlotCode.Statement .xorr := fun _ _ => rfl
theorem SlotCode.andd : SlotCode.Statement .andd := fun _ _ => rfl
theorem SlotCode.reserved10110 : SlotCode.Statement .reserved10110 := fun c h => by
  have : c.core = .core16 := by simpa [Instr.fitsLaterSlot, Instr.existsOn, Instr.isWholeLine] using h
  simp [decodeSlot, slotCode, this]
theorem SlotCode.sxt : SlotCode.Statement .sxt := fun c h => by
  have : c.core = .core32 := by simpa [Instr.fitsLaterSlot, Instr.existsOn, Instr.isWholeLine] using h
  simp [decodeSlot, slotCode, this]
theorem SlotCode.addd : SlotCode.Statement .addd := fun _ _ => rfl
theorem SlotCode.pop : SlotCode.Statement .pop := fun _ _ => rfl
theorem SlotCode.popa : SlotCode.Statement .popa := fun _ _ => rfl
theorem SlotCode.dup : SlotCode.Statement .dup := fun _ _ => rfl
theorem SlotCode.overS : SlotCode.Statement .overS := fun _ _ => rfl
theorem SlotCode.push : SlotCode.Statement .push := fun _ _ => rfl
theorem SlotCode.pusha : SlotCode.Statement .pusha := fun _ _ => rfl
theorem SlotCode.nop : SlotCode.Statement .nop := fun _ _ => rfl
theorem SlotCode.drop : SlotCode.Statement .drop := fun _ _ => rfl
theorem SlotCode.calla (lo : BitVec 15) (hi : Word) : SlotCode.Statement (.calla lo hi) := fun _ h => by simp [Instr.fitsLaterSlot, Instr.isWholeLine] at h
theorem SlotCode.incorrectBranchCode (code : BitVec 2) : SlotCode.Statement (.incorrectBranchCode code) := fun c _ => by
  have h : ∀ k : BitVec 2, (slotCode (.incorrectBranchCode k)).toNat < 4 ∧
      (slotCode (.incorrectBranchCode k)).setWidth 2 = k := by decide
  rw [decodeSlot_of_lt c (h code).1, (h code).2]

end Sys2Proof.Laws
end

