-- ==== Sys2Proof/Machine/Assembler.lean ====
section
/-!
DEFINITION. The source's assembler (30_encoding.md R109 to R112): its statements, how they are packed into
lines, the words they give, and a program's words stored in external memory before a run (R252, D16). The
step calls none of this. Text is a list of characters.
-/

namespace Sys2Proof.Machine

/-! ### Statements (R110) -/

/-- A name or a number of the text. -/
abbrev Text := List Char

/-- One term of an expression: a number, or a name a label or `EQU` gives a value. -/
inductive Term where
  | number (n : Int)
  | name (t : Text)
  deriving DecidableEq, Repr

/-- An expression: the sum of its terms ("Expressions use `+`"). -/
abbrev Expression := List Term

/-- The four branches that take a label and stand in a line of format B. -/
inductive Branch where
  | jmp | jz | call | jnc
  deriving DecidableEq, Repr

/-- What a statement asks for. -/
inductive Body where
  /-- An instruction without operand. -/
  | plain (i : Instr)
  /-- `LIT #expression`. -/
  | lit (e : Expression)
  | branch (b : Branch) (label : Expression)
  | calla (label : Expression)
  /-- `name EQU expression`; the name stands where a label does. -/
  | equ (e : Expression)
  /-- `ORG expression`. -/
  | org (e : Expression)
  /-- `END`. -/
  | finish
  deriving DecidableEq, Repr

/-- One source line: a label, a body, both or neither. -/
structure Statement where
  label : Option Text
  body : Option Body
  deriving DecidableEq, Repr

/-- Why text or statements give no words. -/
inductive AsmError where
  | unknownMnemonic (t : Text)
  | badOperand (t : Text)
  | undefinedName (t : Text)
  /-- `EQU` without a name. -/
  | missingName
  /-- A movement outside -1024 to +1022, or odd (R102). -/
  | outOfReach (movement : Int)
  /-- An instruction the machine does not have (R106). -/
  | absentInstruction (i : Instr)
  deriving DecidableEq, Repr

/-! ### Reading text (R110) -/

/-- White space: a space, a tab, or the no-break space that the spec's copy of the listing holds. -/
def isBlank (ch : Char) : Bool := ch == ' ' || ch == '\t' || ch == '\u00a0'

/-- The text before `;`. -/
def dropComment : Text → Text
  | [] => []
  | ch :: rest => if ch == ';' then [] else ch :: dropComment rest

/-- The words of a text, cut at every character `cut` accepts; `word` is the word being read. -/
def cutAt (cut : Char → Bool) (word : Text) : Text → List Text
  | [] => [word]
  | ch :: rest => if cut ch then word :: cutAt cut [] rest else cutAt cut (word ++ [ch]) rest

/-- The words between blanks. -/
def blankWords (t : Text) : List Text := (cutAt isBlank [] t).filter (fun w => !w.isEmpty)

/-- The value of a digit below a base. -/
def digit? (base : Nat) (ch : Char) : Option Nat :=
  if '0' ≤ ch && ch.toNat - '0'.toNat < base then some (ch.toNat - '0'.toNat) else none

/-- The number a text of digits is. -/
def number? (base : Nat) : Nat → Text → Option Nat
  | n, [] => some n
  | n, ch :: rest =>
    match digit? base ch with
    | some d => number? base (n * base + d) rest
    | none => none

/-- A term: a decimal number, a binary one after `%`, a negative one after `-`, or a name. DESIGN CHOICE (log 37),
where R110 shows no more than its listing: `-` stands before a decimal number only, not before a name or a `%`
number, and a term that starts with a digit, `%` or `-` is never a name, though `readStatement` takes a label so
spelled. -/
def term? : Text → Option Term
  | [] => none
  | '%' :: ds => if ds.isEmpty then none else (number? 2 0 ds).map (fun n => .number n)
  | '-' :: ds => if ds.isEmpty then none else (number? 10 0 ds).map (fun n => .number (-n))
  | ch :: rest =>
    match digit? 10 ch with
    | some d => (number? 10 d rest).map (fun n => .number n)
    | none => some (.name (ch :: rest))

/-- An expression: terms with `+` between them. -/
def expression? (t : Text) : Option Expression := (cutAt (· == '+') [] t).mapM term?

/-- The instructions without operand, by the name R105 gives them in upper case. -/
def plainMnemonics : List (Text × Instr) :=
  [(['F', 'C', 'W'], .fcw), (['S', 'T', 'C', 'W'], .stcw), (['R', 'E', 'T'], .ret),
   (['I', 'R', 'E', 'T'], .iret), (['F', 'T', 'C', 'H', 'R', 'P'], .ftchrp),
   (['F', 'T', 'C', 'H', 'A', 'P'], .ftchap), (['F', 'T', 'C', 'H', 'A'], .ftcha),
   (['S', 'T', 'R', 'P'], .strp), (['S', 'T', 'A', 'P'], .stap), (['S', 'T', 'A'], .sta),
   (['S', 'W', 'I'], .swi), (['S', 'W', 'A', 'B'], .swab), (['C', 'O', 'M'], .com),
   (['R', 'O', 'L', 'C'], .rolc), (['R', 'O', 'R', 'C'], .rorc), (['A', 'D', 'D', 'C'], .addc),
   (['M', 'U', 'L', 'U'], .mulu), (['X', 'O', 'R', 'R'], .xorr), (['A', 'N', 'D', 'D'], .andd),
   (['S', 'X', 'T'], .sxt), (['A', 'D', 'D', 'D'], .addd), (['P', 'O', 'P'], .pop),
   (['P', 'O', 'P', 'A'], .popa), (['D', 'U', 'P'], .dup), (['O', 'V', 'E', 'R'], .overS),
   (['P', 'U', 'S', 'H'], .push), (['P', 'U', 'S', 'H', 'A'], .pusha), (['N', 'O', 'P'], .nop),
   (['D', 'R', 'O', 'P'], .drop)]

/-- The mnemonics and directives that take an operand, and what they make of its expression. R110: `JMP`,
`JZ`, `CALL`, `JNC` and `CALLA` "take a label". DESIGN CHOICE (log 37): their operand may be any expression,
a number or a sum as well, and its value is the absolute address meant. -/
def operandMnemonics : List (Text × (Expression → Body)) :=
  [(['J', 'M', 'P'], .branch .jmp), (['J', 'Z'], .branch .jz), (['C', 'A', 'L', 'L'], .branch .call),
   (['J', 'N', 'C'], .branch .jnc), (['C', 'A', 'L', 'L', 'A'], .calla), (['E', 'Q', 'U'], .equ),
   (['O', 'R', 'G'], .org)]

/-- The body a mnemonic and its operand stand for. DESIGN CHOICE (log 37): `SHL` and `SHR` are no mnemonics
here. R112 calls them pseudo-instructions, R110's list of mnemonics has neither; a program writes out
`shlSequence` or `shrSequence`. -/
def readBody (mnemonic operand : Text) : Except AsmError Body :=
  if mnemonic == ['E', 'N', 'D'] then .ok .finish
  else if mnemonic == ['L', 'I', 'T'] then
    match operand with
    | '#' :: t =>
      match expression? t with
      | some e => .ok (.lit e)
      | none => .error (.badOperand operand)
    | _ => .error (.badOperand operand)
  else
    match plainMnemonics.lookup mnemonic, operandMnemonics.lookup mnemonic with
    | some i, _ => if operand.isEmpty then .ok (.plain i) else .error (.badOperand operand)
    | none, some f =>
      match expression? operand with
      | some e => .ok (f e)
      | none => .error (.badOperand operand)
    | none, none => .error (.unknownMnemonic mnemonic)

/-- One source line: `[label] MNEMONIC [operand] [; comment]`, a label starting in column 1 (R110). DESIGN CHOICE
(log 37): a label may hold any characters but blanks and `;`, even where no operand can then name it. -/
def readStatement (t : Text) : Except AsmError Statement :=
  let t := dropComment t
  let labelled := match t with
    | [] => false
    | ch :: _ => !isBlank ch
  match labelled, blankWords t with
  | false, [] => .ok { label := none, body := none }
  | false, m :: ops => (readBody m ops.flatten).map (fun b => { label := none, body := some b })
  | true, [] => .ok { label := none, body := none }
  | true, [l] => .ok { label := some l, body := none }
  | true, l :: m :: ops => (readBody m ops.flatten).map (fun b => { label := some l, body := some b })

/-! ### Packing statements into lines (R109, R111) -/

/-- What stands in one slot: an instruction, or a `lit` with its argument. -/
inductive SlotItem where
  | plain (i : Instr)
  | lit (e : Expression)
  deriving DecidableEq, Repr

def SlotItem.instr : SlotItem → Instr
  | .plain i => i
  | .lit _ => .lit

/-- A line at its address, its operands still expressions. -/
inductive PackedLine where
  | slots (items : List SlotItem)
  | branch (b : Branch) (label : Expression)
  | calla (label : Expression)
  deriving DecidableEq, Repr

/-- How many bytes a line takes, with the arguments of its `lit`s. -/
def PackedLine.size : PackedLine → Nat
  | .slots items => 2 + 2 * (items.filter (fun i => i.instr == .lit)).length
  | .branch _ _ => 2
  | .calla _ => 4

/-- A pass over the statements: the address of the line being filled, that line, the closed lines, and
the value of every name met. -/
structure Packing where
  address : Nat
  filling : List SlotItem
  closed : List (Nat × PackedLine)
  names : List (Text × Int)
  ended : Bool
  deriving DecidableEq, Repr

/-- Put a line at the current address. -/
def Packing.put (p : Packing) (l : PackedLine) : Packing :=
  { p with address := p.address + l.size, closed := p.closed ++ [(p.address, l)] }

/-- Close the line being filled, if it holds anything. -/
def Packing.close (p : Packing) : Packing :=
  match p.filling with
  | [] => p
  | items => { p with filling := [] }.put (.slots items)

/-- Put an instruction in the next slot; the line closes when it has three, and after `ret`, `iret` and
`swi` (R111). -/
def Packing.fill (p : Packing) (i : SlotItem) : Packing :=
  let p := { p with filling := p.filling ++ [i] }
  if p.filling.length == 3 || endsLine i.instr then p.close else p

/-- The value of an expression. DESIGN CHOICE (log 37): of a name defined twice, as a label or by `EQU`, the
first definition counts; R110 does not speak of it. -/
def evaluate (names : List (Text × Int)) : Expression → Except AsmError Int
  | [] => .ok 0
  | .number n :: rest => (evaluate names rest).map (n + ·)
  | .name t :: rest =>
    match names.lookup t with
    | some n => (evaluate names rest).map (n + ·)
    | none => .error (.undefinedName t)

/-- A label closes the line being filled and names the address of the next one (R110, R111). -/
def Packing.label (p : Packing) (l : Text) : Packing :=
  let p := p.close
  { p with names := p.names ++ [(l, (p.address : Int))] }

/-- One statement. `EQU` and `ORG` use names that stand before them. DESIGN CHOICE (log 37), where R110 is
silent: a label on an `ORG` names the address before the `ORG`; an `ORG` with a negative value stands for
`ORG 0`, and one with an odd value is taken as it is. -/
def Packing.add (p : Packing) (s : Statement) : Except AsmError Packing :=
  if p.ended then .ok p
  else
    match s.body, s.label with
    | some (.equ e), some l => (evaluate p.names e).map (fun n => { p with names := p.names ++ [(l, n)] })
    | some (.equ _), none => .error .missingName
    | body, label =>
      let p := match label with
        | some l => p.label l
        | none => p
      match body with
      | none => .ok p
      | some (.plain i) => .ok (p.fill (.plain i))
      | some (.lit e) => .ok (p.fill (.lit e))
      | some (.branch b l) => .ok (p.close.put (.branch b l))
      | some (.calla l) => .ok (p.close.put (.calla l))
      | some (.equ _) => .error .missingName
      | some (.org e) => (evaluate p.names e).map (fun n => { p.close with address := n.toNat })
      | some .finish => .ok { p.close with ended := true }

/-- The lines of a program, and the value of every name. -/
def packAll (p : Packing) : List Statement → Except AsmError Packing
  | [] => .ok p.close
  | s :: rest =>
    match p.add s with
    | .ok p' => packAll p' rest
    | .error e => .error e

/-! ### Words (R101 to R104) -/

/-- The instruction, if the machine has it (R106). -/
def checked (c : Config) (i : Instr) : Except AsmError Instr :=
  if i.existsOn c then .ok i else .error (.absentInstruction i)

/-- The instruction in slot `k` of a line: `nop` fills what is left (R109). -/
def slotInstr (items : List SlotItem) (k : Nat) : Instr :=
  match items[k]? with
  | some i => i.instr
  | none => .nop

/-- The argument words of a line's `lit`s, in slot order, each truncated to 16 bits (R104, R110). -/
def argumentWords (names : List (Text × Int)) : List SlotItem → Except AsmError (List Word)
  | [] => .ok []
  | .plain _ :: rest => argumentWords names rest
  | .lit e :: rest =>
    match evaluate names e, argumentWords names rest with
    | .ok n, .ok ws => .ok (BitVec.ofInt 16 n :: ws)
    | .error x, _ => .error x
    | _, .error x => .error x

def Branch.instr (b : Branch) (d : Movement) : Instr :=
  match b with
  | .jmp => .jmp d
  | .jz => .jz d
  | .call => .call d
  | .jnc => .jnc d

/-- The movement from the line at `address` to `target`: from the address after the line, modulo 2^AB as
the branch adds it (R102), even, -1024 to +1022 bytes. -/
def movementTo (c : Config) (address : Nat) (target : Int) : Except AsmError Movement :=
  let m := (target - (address + 2)).bmod (2 ^ c.addrBits)
  if m % 2 = 0 ∧ -1024 ≤ m ∧ m ≤ 1022 then .ok (BitVec.ofInt 10 (m / 2)) else .error (.outOfReach m)

/-- The words of a packed line. DESIGN CHOICE (log 37): `CALLA` takes the low 32 bits of its operand without bit
0. -/
def PackedLine.words (c : Config) (names : List (Text × Int)) (address : Nat) :
    PackedLine → Except AsmError (List Word)
  | .slots items =>
    match items.mapM (fun i => checked c i.instr), argumentWords names items with
    | .ok _, .ok ws =>
      .ok (encodeLine (.slots (slotInstr items 0) (slotInstr items 1) (slotInstr items 2)) ++ ws)
    | .error x, _ => .error x
    | _, .error x => .error x
  | .branch b l =>
    match evaluate names l with
    | .ok target => (movementTo c address target).map (fun d => encodeLine (.whole (b.instr d)))
    | .error x => .error x
  | .calla l =>
    match evaluate names l with
    | .ok target =>
      let w := BitVec.ofInt 32 target
      .ok (encodeLine (.whole (.calla (w.extractLsb' 1 15) (w.extractLsb' 16 16))))
    | .error x => .error x

/-- The words of a program with the addresses they stand at. DESIGN CHOICE (log 37): what stands before the first
`ORG`, or a program without one, starts at address 0; R110 does not say where. -/
def assemble (c : Config) (program : List Statement) : Except AsmError (List (Nat × List Word)) :=
  match packAll { address := 0, filling := [], closed := [], names := [], ended := false } program with
  | .ok p => p.closed.mapM (fun l => (l.2.words c p.names l.1).map (fun ws => (l.1, ws)))
  | .error e => .error e

/-- The statements of a text, one a source line, up to `END`, which "ends the source" (R110): what follows it
is not read. -/
def readText : List Text → Except AsmError (List Statement)
  | [] => .ok []
  | t :: rest =>
    match readStatement t with
    | .error e => .error e
    | .ok s => if s.body = some .finish then .ok [s] else (readText rest).map (s :: ·)

/-- The same from text, one line a source line. -/
def assembleText (c : Config) (text : List Text) : Except AsmError (List (Nat × List Word)) :=
  match readText text with
  | .ok program => assemble c program
  | .error e => .error e

/-! ### Pseudo-instructions (R112) -/

/-- `shl`, "2 *": the sequence of instructions it stands for. -/
def shlSequence : List Instr := [.dup, .addd]

/-- `shr`, "2 /". -/
def shrSequence : List Instr := [.dup, .rolc, .drop, .rorc]

/-! ### Loading (R252, D16) -/

/-- Words stored at an address and on. -/
def State.loadWords (s : State) : Nat → List Word → State
  | _, [] => s
  | a, w :: ws => (s.storeWord (addrOf s.cfg a) w).loadWords (a + 2) ws

/-- A program's words stored in external memory, as they are before RESET is released. DESIGN CHOICE (log 37):
lines that stand over others are stored in the order of the text. -/
def State.loadProgram (s : State) : List (Nat × List Word) → State
  | [] => s
  | (a, ws) :: rest => (s.loadWords a ws).loadProgram rest

end Sys2Proof.Machine
end

