-- ==== Sys2Proof/Tests/Slice0.lean ====
section
/-!
SUPPORT. The model's own tests: the checks of WellFormed.lean refusing ill-formed terms, a word of every
constructor written out from the encodings of 30_encoding.md, the vectors of 95_test_vectors.md section 2
(each test names its row), and for every obligation with hypotheses a state that meets them.
-/

namespace Sys2Proof.Tests

open Sys2Proof Sys2Proof.Machine

/-! ### Helpers -/

def c16 : Config := Config.standard
def c16mt : Config := { Config.standard with mt := true }
def c32 : Config := { Config.standard with core := .core32 }
def c32mt : Config := { Config.standard with core := .core32, mt := true }

/-- Words stored from an address on. -/
def withWords (s : State) : Nat → List Nat → State
  | _, [] => s
  | a, w :: ws => withWords (s.storeWord (BitVec.ofNat 32 a) (BitVec.ofNat 16 w)) (a + 2) ws

/-- A machine after reset with `pc`, words at `pc` and two stacks (bottom first) given. -/
def bench (c : Config) (pc : Nat) (words ds rs : List Nat) : State :=
  rs.foldl State.rPush (ds.foldl State.dPush (withWords ((State.resetOf c).setPc pc) pc words))

/-- The data stack, bottom first, as the vectors write it. -/
def dataList (s : State) : List Nat :=
  (List.range ((256 - s.dsp.toNat) % 256)).map fun i => (cellAt s.ds (BitVec.ofNat 8 (255 - i))).toNat

/-- The return stack, bottom first. -/
def returnList (s : State) : List Nat :=
  (List.range ((256 - s.rsp.toNat) % 256)).map fun i => (cellAt s.rs (BitVec.ofNat 8 (255 - i))).toNat

/-- `pc`, `CE`, `DS` and `RS`. -/
def seen (s : State) : Nat × Nat × List Nat × List Nat :=
  (s.pc.toNat, s.ceWord.toNat, dataList s, returnList s)

/-- Something of the state after one step. -/
def after {α : Type} (s : State) (f : State → α) : Option α :=
  match step s with
  | .next t => some (f t)
  | .fault _ => none
  | .refused _ => none

/-- The machine with `CE` holding a word. -/
def withCe (s : State) (w : Nat) : State := s.setCe (BitVec.ofNat 16 w)

/-! ### Well-formed terms: each check refuses an ill-formed one -/

theorem test_wellFormed_accepts :
    (Line.slots .com .lit (.incorrectBranchCode 3)).wellFormed c16 = true ∧
    (Line.whole (.calla 0x7FFF 0xFFFF)).wellFormed c32 = true := by decide

theorem test_wellFormed_refuses_codes_of_the_other_core :
    (Line.slots .swab .nop .nop).wellFormed c16 = false ∧
    (Line.slots .nop .sxt .nop).wellFormed c16 = false ∧
    (Line.slots .nop .nop .swi).wellFormed c32 = false ∧
    (Line.slots .nop .nop .reserved10110).wellFormed c32 = false := by decide

theorem test_wellFormed_refuses_the_other_multiplication :
    (Line.slots .mulu .nop .nop).wellFormed c16 = false ∧
    (Line.slots .addc .nop .nop).wellFormed c16mt = false := by decide

theorem test_wellFormed_refuses_a_branch_in_a_slot :
    (Line.slots (.jmp 0) .nop .nop).wellFormed c16 = false ∧
    (Line.slots .nop (.calla 0 0) .nop).wellFormed c16 = false ∧
    (Line.slots .nop .nop (.call 0)).wellFormed c16 = false := by decide

theorem test_wellFormed_refuses_an_incorrect_branch_code_in_slot_1 :
    (Line.slots (.incorrectBranchCode 0) .nop .nop).wellFormed c16 = false := by decide

theorem test_wellFormed_refuses_a_slot_instruction_as_a_line :
    (Line.whole .dup).wellFormed c16 = false := by decide

/-! ### Decoding: words written out from R101 to R106 -/

theorem test_decode_branches :
    decodeLine c16 0b00000_0000000110_0#16 0 = .whole (.jmp 6) ∧
    decodeLine c16 0b00001_1111111111_0#16 0 = .whole (.jz (-1)) ∧
    decodeLine c16 0b00010_1000000000_0#16 0 = .whole (.call 0x200) ∧
    decodeLine c16 0b00011_0000000011_0#16 0 = .whole (.jnc 3) ∧
    decodeLine c16 0b000000010000010_1#16 0xFFF0 = .whole (.calla 0x82 0xFFF0) ∧
    decodeLine c16 0b00110_11110_11110_0#16 0 = .slots .ret .nop .nop := by decide

theorem test_decode_extension_access :
    decodeLine c16 0b00100_00101_11110_0#16 0 = .slots .fcw .stcw .nop := by decide

theorem test_decode_memory_access :
    decodeLine c16 0b01000_01001_01010_0#16 0 = .slots .ftchrp .ftchap .lit ∧
    decodeLine c16 0b01011_01100_01101_0#16 0 = .slots .ftcha .strp .stap ∧
    decodeLine c16 0b01111_11110_11110_0#16 0 = .slots .sta .nop .nop := by decide

theorem test_decode_alu :
    decodeLine c16 0b10000_10001_10010_0#16 0 = .slots .com .rolc .rorc ∧
    decodeLine c16 0b10011_10100_10101_0#16 0 = .slots .addc .xorr .andd ∧
    decodeLine c16mt 0b11110_10011_10111_0#16 0 = .slots .nop .mulu .addd ∧
    decodeLine c32 0b10110_01110_11110_0#16 0 = .slots .sxt .swab .nop := by decide

theorem test_decode_stack_moves :
    decodeLine c16 0b11000_11001_11010_0#16 0 = .slots .pop .popa .dup ∧
    decodeLine c16 0b11011_11100_11101_0#16 0 = .slots .overS .push .pusha ∧
    decodeLine c16 0b11110_11111_11110_0#16 0 = .slots .nop .drop .nop := by decide

theorem test_decode_system :
    decodeLine c16 0b00111_01110_10110_0#16 0 = .slots .iret .swi .reserved10110 ∧
    decodeLine c16 0b11110_00000_00001_0#16 0 =
      .slots .nop (.incorrectBranchCode 0) (.incorrectBranchCode 1) ∧
    decodeLine c32 0b11110_00010_00011_0#16 0 =
      .slots .nop (.incorrectBranchCode 2) (.incorrectBranchCode 3) := by decide

/-- The high byte is at the even address (R72); a `calla` takes four bytes, any other line two. -/
theorem test_decode_bytes :
    decode c16 [0xE7, 0x70, 0xAA] = .ok (.slots .push .pusha .pop, [0xAA]) ∧
    decode c16 [0x01, 0x05, 0x12, 0x34, 0xAA] = .ok (.whole (.calla 0x82 0x1234), [0xAA]) ∧
    decode c16 [0x01] = .error .missingLine ∧
    decode c16 [0x01, 0x05, 0x12] = .error .missingSecondWord := by decide

theorem test_encode : encode .push = [0xE7BC#16] ∧ encode (.calla 0x82 0xFFF0) = [0x0105#16, 0xFFF0#16] ∧
    encode (.incorrectBranchCode 1) = [0b11110_00001_11110_0#16] := by decide

theorem test_decodeTableWord :
    decodeTableWord 16 0xE7BC = some .push ∧ decodeTableWord 32 0xFFF00105 = some (.calla 0x82 0xFFF0) ∧
    decodeTableWord 16 0x167A = some (.call 0x33D) := by decide

theorem test_withFetchWord : after (State.reset.withFetchWord 16 0x87BC) seen =
    some (2, 0x2000, [], []) ∧
    after (State.reset.withFetchWord 16 0x87BC) State.t = some 0xFFFF#32 := by decide

/-! ### Branches, calls and returns (2.1) -/

theorem test_jmp_B3 : after (bench c16 0x400 [0x03FE] [] []) seen = some (0x800, 0x2000, [], []) := by decide
theorem test_jmp_B4 : after (bench c16 0x400 [0x0400] [] []) seen = some (2, 0x2000, [], []) := by decide
theorem test_jz_B6 : after (bench c16 0x400 [0x0806] [5, 0] []) seen =
    some (0x408, 0x2000, [5, 0], []) := by decide
theorem test_jz_B8 : after (bench c32 0x400 [0x0806] [0x10000] []) seen =
    some (0x402, 0x2000, [0x10000], []) := by decide
theorem test_call_B9 : after (bench c16 0x204 [0x167A] [] []) seen =
    some (0x80, 0x2000, [], [0, 0x206]) := by decide
theorem test_call_B10 : after (bench c32 0x204 [0x167A] [] []) seen =
    some (0x80, 0x2000, [], [0x206]) := by decide
theorem test_jnc_B11 : after (bench c16 0x400 [0x1806] [] []) seen = some (0x408, 0x2000, [], []) := by decide
theorem test_jnc_B12 : after (withCe (bench c16 0x400 [0x1806] [] []) 0xA000) seen =
    some (0x402, 0xA000, [], []) := by decide
theorem test_ret_B14 : after (bench c16 0x400 [0x37BC] [] [0xFFE1, 0x207]) seen =
    some (0x10206, 0x2000, [], []) := by decide
theorem test_ret_B15 : after (bench c32 0x400 [0x37BC] [] [0x206]) seen =
    some (0x206, 0x2000, [], []) := by decide
theorem test_calla_B17 : after (bench c16 0x276 [0x0105, 0xFFE1] [] []) seen =
    some (0x10104, 0x2000, [], [0, 0x27A]) := by decide
theorem test_calla_B18 : after (bench { c32 with extraAddrBits := 11 } 0x276 [0x0105, 0xFFF0] [] []) seen =
    some (0xFFF00104, 0x2000, [], [0x27A]) := by decide
theorem test_pc_wraps_B19 : after (bench c16 0x1FFFFE [0] [] []) seen = some (0, 0x2000, [], []) := by decide

/-! ### Extension-register access (2.2) -/

theorem test_fcw_X1 : after (bench c16 0x400 [0x27BC] [1, 2, 3, 4] [2]) seen =
    some (0x402, 0x2000, [1, 2, 3, 4, 0x2FC], []) := by decide
theorem test_fcw_X4 : after (withCe (bench c32 0x400 [0x27BC] [] [4]) 0xA000) seen =
    some (0x402, 0xA000, [0xFFFFA000], []) := by decide
theorem test_stcw_X8 : after (bench c16 0x400 [0x2FBC] [0x97FF] [4]) seen =
    some (0x402, 0x9000, [], []) := by decide
theorem test_stcw_X9 : after (bench c16 0x400 [0x2FBC] [1, 2, 3, 4, 5] [0x2FE]) seen =
    some (0x402, 0x2000, [1, 5, 3, 4], []) := by decide

/-! ### Memory access and `lit` (2.3) -/

theorem test_ftchap_M4 :
    after { withCe (withWords (bench c16 0x400 [0x4FBC] [] []) 0x300 [0x12F0]) 0x3000 with a := 0x301 }
      (fun t => (t.t.toNat, t.a.toNat)) = some (0xFFF0, 0x302) := by decide
theorem test_ftchap_M5 :
    after { withWords (bench c16 0x400 [0x4FBC] [] []) 0xFFFE [0x1111] with a := 0xFFFE }
      (fun t => (t.t.toNat, t.a.toNat, t.pa.toNat)) = some (0x1111, 0, 1) := by decide
theorem test_ftcha_M7 :
    after { withCe (withWords (bench c32 0x400 [0x5FBC] [] []) 0x300 [0x12F0]) 0x3000 with a := 0x301 }
      (fun t => (t.t.toNat, t.a.toNat)) = some (0xFFF0, 0x301) := by decide
theorem test_ftcha_M18 :
    after { withWords (bench c16 0x400 [0x5FBC] [] []) 0x10010 [0x5A5A] with a := 0x10, pa := 1 }
      (fun t => (t.t.toNat, t.a.toNat, t.pa.toNat)) = some (0x5A5A, 0x10, 1) := by decide
theorem test_ftchrp_M8 : after (withWords (bench c16 0x400 [0x47BC] [] [0x300]) 0x300 [0xBEEF]) seen =
    some (0x402, 0x2000, [0xBEEF], [0x302]) := by decide
theorem test_ftchrp_M9 :
    after (withCe (withWords (bench c16 0x400 [0x47BC] [] [0x300]) 0x300 [0x7FEE]) 0x3000) seen =
    some (0x402, 0x3000, [0x7F], [0x301]) := by decide
theorem test_lit_M11 : after (withCe (bench c32 0x400 [0x57BC, 0xFFFF] [] []) 0xA000) seen =
    some (0x404, 0x2000, [0xFFFF], []) := by decide
theorem test_lit_M12 : after (bench c16 0x400 [0x5294, 1, 2, 3] [] []) seen =
    some (0x408, 0x2000, [1, 2, 3], []) := by decide
theorem test_stap_M13 : after { bench c16 0x400 [0x6FBC] [7, 0x1234] [] with a := 0x500 }
    (fun t => (dataList t, t.a.toNat, t.wordAt 0x500)) = some ([7], 0x502, 0x1234) := by decide
theorem test_stap_M14 :
    after { withCe (withWords (bench c16 0x400 [0x6FBC] [7, 0xAB] []) 0x500 [0x1234]) 0x3000 with a := 0x500 }
    (fun t => (dataList t, t.a.toNat, t.wordAt 0x500)) = some ([7], 0x501, 0xAB34) := by decide
theorem test_sta_M15 :
    after { withCe (withWords (bench c16 0x400 [0x7FBC] [7, 0xFF80] []) 0x500 [0xAB34]) 0x3000
      with a := 0x501 }
    (fun t => (dataList t, t.a.toNat, t.wordAt 0x500)) = some ([7], 0x501, 0xAB80) := by decide
theorem test_sta_M17 : after { bench c32 0x400 [0x7FBC] [0xCAFE1234] [] with a := 0x500 }
    (fun t => (dataList t, t.a.toNat, t.wordAt 0x500)) = some ([], 0x500, 0x1234) := by decide
theorem test_strp_M16 : after (bench c16 0x400 [0x67BC] [7, 0x1234] [0x500])
    (fun t => (dataList t, returnList t, t.wordAt 0x500)) = some ([7], [0x502], 0x1234) := by decide

/-! ### Arithmetic and logic (2.4) -/

theorem test_com_A1 : after (bench c16 0x400 [0x87BC] [2] []) seen = some (0x402, 0x2000, [0xFFFD], []) := by decide
theorem test_com_A2 : after (bench c32 0x400 [0x87BC] [0] []) seen =
    some (0x402, 0x2000, [0xFFFFFFFF], []) := by decide
theorem test_rolc_A3 : after (bench c16 0x400 [0x8FBC] [0x8001] []) seen =
    some (0x402, 0xA000, [2], []) := by decide
theorem test_rolc_A4 : after (withCe (bench c16 0x400 [0x8FBC] [2] []) 0xA000) seen =
    some (0x402, 0x2000, [5], []) := by decide
theorem test_rorc_A7 : after (withCe (bench c16 0x400 [0x97BC] [1] []) 0xA000) seen =
    some (0x402, 0xA000, [0x8000], []) := by decide
theorem test_rorc_A8 : after (withCe (bench c32 0x400 [0x97BC] [2] []) 0xA000) seen =
    some (0x402, 0x2000, [0x80000001], []) := by decide
theorem test_addc_A9 : after (bench c16 0x400 [0x9FBC] [0xFFFF, 3] []) seen =
    some (0x402, 0xA000, [0xFFFF, 2], []) := by decide
theorem test_addc_A10 : after (withCe (bench c16 0x400 [0x9FBC] [0xFFFF, 2] []) 0xA000) seen =
    some (0x402, 0x2000, [0xFFFF, 2], []) := by decide
theorem test_mulu_A12 : after (withCe (bench c16mt 0x400 [0x9FBC] [0x13B] [0x13B]) 0xA000) seen =
    some (0x402, 0xA001, [0x8399], [1]) := by decide
theorem test_mulu_A15 : after (bench c32mt 0x400 [0x9FBC] [0xFFFFFFFF] [0xFFFFFFFF]) seen =
    some (0x402, 0x2001, [1], [0xFFFFFFFE]) := by decide
theorem test_xorr_A16 : after (bench c16 0x400 [0xA7BC] [0xFF, 0xF0F] []) seen =
    some (0x402, 0x2000, [0xFF0], []) := by decide
theorem test_andd_A17 : after (bench c16 0x400 [0xAFBC] [0x4B2D, 0xFF] []) seen =
    some (0x402, 0x2000, [0x2D], []) := by decide
theorem test_addd_A19 : after (withCe (bench c16 0x400 [0xBFBC] [1, 1] []) 0xA000) seen =
    some (0x402, 0x2000, [2], []) := by decide
theorem test_addd_A20 : after (bench c32 0x400 [0xBFBC] [0xFFFFFFFF, 1] []) seen =
    some (0x402, 0xA000, [0], []) := by decide
theorem test_sxt_A22 : after (bench c32 0x400 [0xB7BC] [0xFF80] []) seen =
    some (0x402, 0x2000, [0xFFFFFF80], []) := by decide
theorem test_sxt_A23 : after (bench c32 0x400 [0xB7BC] [0x12347FFF] []) seen =
    some (0x402, 0x2000, [0x7FFF], []) := by decide
theorem test_swab_A24 : after (bench c32 0x400 [0x77BC] [0x12345678] []) seen =
    some (0x402, 0x2000, [0x56781234], []) := by decide

/-! ### Stack and register moves (2.5) -/

theorem test_pop_S1 : after (bench c16 0x400 [0xC7BC] [1] [7]) seen =
    some (0x402, 0x2000, [1, 7], []) := by decide
theorem test_popa_S2 : after { bench c16 0x400 [0xCFBC] [1] [] with a := 0x300 } seen =
    some (0x402, 0x2000, [1, 0x300], []) := by decide
theorem test_dup_S3 : after (bench c16 0x400 [0xD7BC] [1, 2] []) seen =
    some (0x402, 0x2000, [1, 2, 2], []) := by decide
theorem test_over_S4 : after (bench c16 0x400 [0xDFBC] [1, 2] []) seen =
    some (0x402, 0x2000, [1, 2, 1], []) := by decide
theorem test_push_S5 : after (bench c16 0x400 [0xE7BC] [1, 2] []) seen =
    some (0x402, 0x2000, [1], [2]) := by decide
theorem test_pusha_S6 : after (bench c16 0x400 [0xEFBC] [1, 2] []) (fun t => (seen t, t.a)) =
    some ((0x402, 0x2000, [1], []), 2) := by decide
theorem test_nop_S7 : after (bench c16 0x400 [0xF7BC] [1, 2] []) seen =
    some (0x402, 0x2000, [1, 2], []) := by decide
theorem test_drop_S8 : after (bench c16 0x400 [0xFFBC] [1, 2] []) seen =
    some (0x402, 0x2000, [1], []) := by decide

/-! ### System instructions and interruptions (2.6) -/

theorem test_swi_Y1 : after { withCe (bench c16 0x300 [0x77BC] [] []) 0 with a := 5 }
    (fun t => (seen t, t.sa, t.sce)) = some ((0x20, 0x6000, [], [0, 0x302]), 5, 0) := by decide
theorem test_swi_Y3 : after (withCe (bench c16 0x300 [0x53B4, 9] [] []) 0) seen =
    some (0x20, 0x6000, [9], [0, 0x304]) := by decide
theorem test_iret : after { withCe (bench c16 0x20 [0x3FBC] [] [0, 0x302]) 0x6000 with sa := 5, sce := 0x9FFF }
    (fun t => (seen t, t.a, t.sce)) = some ((0x302, 0x9800, [], []), 5, 0x9FFF) := by decide
theorem test_reserved10110_Y4 : after (bench c16 0x400 [0xD5BC] [7] []) (fun t => (seen t, t.sce)) =
    some ((0x30, 0x6000, [7, 7], [0, 0x402]), 0x2000) := by decide
theorem test_incorrectBranchCode_Y5 : after (bench c16 0x400 [0xD682] [7] []) seen =
    some (0x30, 0x6000, [7, 7, 7], [0, 0x402]) := by decide
theorem test_drop_on_the_empty_stack_Y6 : after (bench c16 0x400 [0x57FE, 1] [] [])
    (fun t => (t.pc.toNat, t.pntt.toNat, t.dsEvent, returnList t)) =
    some (0x40, 513, false, [0, 0x404]) := by decide
theorem test_pop_on_the_empty_stack_Y7 : after (bench c16 0x400 [0xC7BC] [] [])
    (fun t => (t.pc.toNat, t.pntr.toNat, t.rsEvent, t.r.toNat)) =
    some (0x50, 1023, true, 0x402) := by decide
theorem test_peripheral_interruption_Y9 :
    after { withCe (bench c16 0x400 [0xF7BC] [] []) 0 with extIrq := true } seen =
    some (0x10, 0x6000, [], [0, 0x402]) := by decide
theorem test_masked_Y10 : after { bench c16 0x400 [0xF7BC] [] [] with extIrq := true } seen =
    some (0x402, 0x2000, [], []) := by decide

/-! ### The memory map (R78) -/

/-- The source's two mappings: `S = 0` has read-only memory at 0 and random access memory at 0xFFF00000 (0x100000
of 21 bits), `S = 1` that random access memory at 0. Nothing at 0x080000 to 0x08001F. -/
def mapped : Config :=
  { c16 with memoryMap :=
      [{ mapping := some false, inhibited := none, first := 0, words := 0x800, kind := .rom, home := 0 },
       { mapping := some true, inhibited := none, first := 0, words := 0x800, kind := .ram, home := 0x80000 },
       { mapping := none, inhibited := none, first := 0x40000, words := 16, kind := .absent, home := 0 }] }

theorem test_map_moves_the_random_access_memory :
    let s := (State.resetOf mapped).storeWord 0x100300 0x1234
    (withCe s 0).wordAt 0x300 = 0 ∧ (withCe s 0x0800).wordAt 0x300 = 0x1234 ∧
    (withCe s 0x0800).wordAt 0x100300 = 0x1234 := by decide

theorem test_map_keeps_read_only_memory :
    let s := State.resetOf mapped
    (s.storeWord 0x300 0x1234).mem = [] ∧ (s.storeByte 0x80000 0x12).mem = [] ∧
    ((withCe s 0x0800).storeByte 0x301 0x12).mem = [(0x100301, 0x12)] := by decide

theorem test_map_counts_the_reads_that_find_nothing :
    let s := State.resetOf mapped
    (s.noteRead 0x80000).openReads = 1 ∧ (s.noteRead 0x80020).openReads = 0 ∧
    (s.noteRead 0x300).openReads = 0 := by decide

/-- An instruction placed where the map has nothing is fetched and run. -/
theorem test_map_withFetchWord :
    after (((State.resetOf mapped).setPc 0x80000).withFetchWord 16 0x87BC) seen =
      some (0x80002, 0x2000, [], []) := by decide

/-! ### TIMER and UART (2.7) -/

/-- Events, then what register `n` reads. -/
def reads (s : State) (es : List EnvEvent) (n : Word) : Option Nat :=
  ((s.applyEvents es).extValue (extReg s.cfg n)).map BitVec.toNat

/-- A write of register `n`. -/
def writes (s : State) (v : Cell) (n : Word) : State := (s.extWrite v (extReg s.cfg n)).getD s

theorem test_uart_baud_T1_T2 : reads (State.resetOf c32) [] 257 = some 0xC ∧
    reads (writes (State.resetOf c16) 0xFFFF 257) [] 257 = some 0xF := by decide
theorem test_timer_T3_T4 :
    reads (writes (State.resetOf c16) 1 256) [.timerTick, .timerTick] 256 = some 2 ∧
    reads (writes (State.resetOf c16) 1 256) (List.replicate 17 .timerTick) 256 = some 1 := by decide
theorem test_timer_T5 : reads (writes (State.resetOf c16) 0 256) [.timerTick] 256 = some 0 := by decide
theorem test_uart_T6_T9 :
    reads (State.resetOf c32) [.uartReceive 0xC3 false false] 258 = some 0xFFFFC000 ∧
    reads (State.resetOf c16) [.uartReceive 1 false false, .uartReceive 2 false false] 258 =
      some 0xC800 := by decide
theorem test_uart_irq_T7 :
    (((State.resetOf c16).applyEvents [.uartReceive 0xC3 false false]).irq = false) ∧
    (writes ((State.resetOf c16).applyEvents [.uartReceive 0xC3 false false]) 0x7FFF 258).irq = true := by decide
theorem test_uart_T8 : reads (State.resetOf c16) [.uartReceive 0xC3 false false] 259 = some 0xFFC3 := by decide
theorem test_uart_T10 : (writes (State.resetOf c16) 0x1234 259).uart.sent = [0x34#8] ∧
    reads (writes (State.resetOf c16) 0x1234 259) [] 258 = some 0 := by decide

/-! ### The assembler (1.1, 1.3) -/

/-- `PICK` of the listing: its words are those of section 1.3 at 0x00AA. -/
theorem test_assemble_PICK : (assembleText c16
    ["PNTT EQU 2".toList, " ORG 170".toList, "PICK    LIT    #PNTT    ; n1 --> n2".toList, " PUSH".toList,
     " FCW".toList, " ADDD".toList, " PUSH".toList, " FCW".toList, " RET".toList]).toOption =
    some [(0xAA, [0x5708, 2]), (0xAE, [0xBF08]), (0xB0, [0x37BC])] := by decide

/-- A label equal to a mnemonic, a backward `CALL` and a `CALLA`: words of section 1.3. -/
theorem test_assemble_calls : (assembleText c16
    [" ORG 128".toList, "DUP    DUP".toList, " RET".toList, " ORG 512".toList, "TEST LIT #-1".toList,
     " CALL DUP".toList, " CALLA DUP".toList, " END".toList]).toOption =
    some [(0x80, [0xD1BC]), (0x200, [0x57BC, 0xFFFF]), (0x204, [0x167A]), (0x206, [0x0081, 0])] := by decide

theorem test_assemble_refuses :
    (assembleText c16 [" FOO".toList]).toOption = none ∧
    (assembleText c16 [" JMP NOWHERE".toList]).toOption = none ∧
    (assembleText c16 [" SXT".toList]).toOption = none ∧
    (assembleText c16 [" ORG 4096".toList, " JMP 0".toList]).toOption = none := by decide

/-- The listing's last lines: what follows `END` is not read. -/
theorem test_assemble_END : (assembleText c16 [" DROP".toList, " END".toList, "".toList,
    "SIMULATION".toList, "( FIN".toList, ")".toList]).toOption = some [(0, [0xFFBC])] := by decide

/-- A branch reaches across the end of the address space: from 0 back to 0x1FFFF0, by -18 bytes. -/
theorem test_assemble_wraps : (assembleText c16 [" JMP 2097136".toList]).toOption = some [(0, [0x07EE])] := by
  decide

theorem test_loadProgram :
    ((State.reset.loadProgram [(0, [0x57BC, 7])]).mem) = [(0, 0x57), (1, 0xBC), (3, 7)] := by decide

/-! ### Sample states for the witnesses -/

/-- The 16 bits core after reset is legal. -/
theorem blank16_legal : (State.resetOf c16).Legal where
  pc_even := by decide
  pc_lt := by decide
  a_lt := by decide
  sa_lt := by decide
  ds_lt := fun i => by simp [State.resetOf, cellAt]
  rs_lt := fun i => by simp [State.resetOf, cellAt]
  pa_lt := by decide
  pr_lt := by decide
  spa_lt := by decide
  spr_lt := by decide
  mem_wf := by decide
  mem_below := by decide

/-- The 32 bits core with `mulu` after reset is legal. -/
theorem blank32_legal : (State.resetOf c32mt).Legal where
  pc_even := by decide
  pc_lt := by decide
  a_lt := by decide
  sa_lt := by decide
  ds_lt := fun i => by simp [State.resetOf, cellAt]
  rs_lt := fun i => by simp [State.resetOf, cellAt]
  pa_lt := by decide
  pr_lt := by decide
  spa_lt := by decide
  spr_lt := by decide
  mem_wf := by decide
  mem_below := by decide

/-- The 16 bits core: `pc = 0x400`, the words 1 and 0x27BC there, `DS = [5, 0]`, `RS = [0, 9]`. -/
def s16 : State := bench c16 0x400 [1, 0x27BC] [5, 0] [0, 9]

/-- The 32 bits core with `mulu`: `DS = [5, 3]`, `RS = [0, 9]`. -/
def s32 : State := bench c32mt 0x400 [0x27BC] [5, 3] [0, 9]

theorem s16_legal : s16.Legal :=
  have h := (blank16_legal.setPc 0x400).storeWord (a := 0x400) (by decide) 1
  ((((h.storeWord (a := 0x402) (by decide) 0x27BC).dPush 5).dPush 0).rPush 0).rPush 9

theorem s32_legal : s32.Legal :=
  have h := (blank32_legal.setPc 0x400).storeWord (a := 0x400) (by decide) 0x27BC
  (((h.dPush 5).dPush 3).rPush 0).rPush 9

/-! ### Witnesses: for every obligation with hypotheses, a state that meets them, and every clause -/

theorem witness_DecodeOfEncodeIsTheLine :
    (Line.whole (.calla 0x7FFF 0)).wellFormed c16 = true ∧
    (Line.slots .drop .swab (.incorrectBranchCode 3)).wellFormed c32 = true := by decide

theorem witness_IncorrectCodesAreTheListedOnes :
    (0x0001#16).getLsbD 0 = true ∧
    ((0x1FFE#16).getLsbD 0 = false ∧ (code1 0x1FFE).toNat = 3) ∧
    ((0x2000#16).getLsbD 0 = false ∧ (code1 0x2000).toNat = 4) := by decide

theorem witness_StepRunsTheWholeLine :
    ∃ rest, decode (bench c16 0x400 [0x0105, 0] [] []).deliver.cfg
      (bench c16 0x400 [0x0105, 0] [] []).deliver.lineBytes = .ok (.whole (.calla 0x82 0), rest) :=
  ⟨[], by decide⟩

/-- An inbox with nothing left, and one with two batches. -/
theorem witness_StepRunsTheWholeLine_inbox :
    (State.resetOf c16).inbox = [] ∧
    ∃ batch later, ({ State.resetOf c16 with inbox := [[.timerTick, .reset], []] } : State).inbox =
      batch :: later := ⟨rfl, _, _, rfl⟩

/-- The three slots run; the line ends in slot 1, 2 or 3. -/
theorem witness_StepRunsTheSlots :
    let line (w : Nat) (i1 i2 i3 : Instr) : Prop := ∃ rest,
      decode (bench c16 0x400 [w] [] []).deliver.cfg (bench c16 0x400 [w] [] []).deliver.lineBytes =
        .ok (.slots i1 i2 i3, rest)
    let first (w : Nat) : State := (bench c16 0x400 [w] [] []).deliver.afterFetch
    line 0xF7BC .nop .nop .nop ∧ line 0x37BC .ret .nop .nop ∧ line 0xF3BC .nop .swi .nop ∧
    line 0xF782 .nop .nop (.incorrectBranchCode 1) ∧
    (∃ t1, exec .nop (first 0xF7BC) = .next t1 ∧ ∃ t2, exec .nop t1 = .next t2 ∧
      ∃ t3, exec .nop t2 = .next t3) ∧
    (∃ t1, exec .ret (first 0x37BC) = .next t1) ∧
    (∃ t1, exec .nop (first 0xF3BC) = .next t1 ∧ ∃ t2, exec .swi t1 = .next t2) ∧
    (∃ t1, exec .nop (first 0xF782) = .next t1 ∧ ∃ t2, exec .nop t1 = .next t2 ∧
      ∃ t3, exec (.incorrectBranchCode 1) t2 = .next t3) :=
  ⟨⟨[0, 0], by decide⟩, ⟨[0, 0], by decide⟩, ⟨[0, 0], by decide⟩, ⟨[0, 0], by decide⟩,
    ⟨_, rfl, _, rfl, _, rfl⟩, ⟨_, rfl⟩, ⟨_, rfl, _, rfl⟩, ⟨_, rfl, _, rfl, _, rfl⟩⟩

/-- A slot 1, 2 or 3 that refuses: `fcw` with number 9 on the return stack. -/
theorem witness_StepRunsTheSlots_refused :
    let first (w : Nat) : State := (bench c16 0x400 [w] [] [9]).deliver.afterFetch
    exec .fcw (first 0x27BC) = .refused (.freeSpaceRead 9) ∧
    (∃ t1, exec .nop (first 0xF13C) = .next t1 ∧ exec .fcw t1 = .refused (.freeSpaceRead 9)) ∧
    (∃ t1, exec .nop (first 0xF788) = .next t1 ∧ ∃ t2, exec .nop t1 = .next t2 ∧
      exec .fcw t2 = .refused (.freeSpaceRead 9)) :=
  ⟨rfl, ⟨_, rfl, rfl⟩, ⟨_, rfl, _, rfl, rfl⟩⟩

/-- A legal state whose line is one word, and one whose line is two, at the top of memory. -/
theorem witness_FetchMovesPastTheLine :
    (s32.Legal ∧ s32.wordAtPc.getLsbD 0 = false) ∧ s16.Legal ∧ s16.wordAtPc.getLsbD 0 = true :=
  ⟨⟨s32_legal, by decide⟩, s16_legal, by decide⟩

theorem witness_StepKeepsLegal : s16.Legal ∧ ∃ t, step s16 = .next t := ⟨s16_legal, _, rfl⟩

theorem witness_StepKeepsTheParameters : ∃ t, step s16 = .next t := ⟨_, rfl⟩

theorem witness_ExecFaultsExactlyOnAbsentInstructions :
    Instr.swab.existsOn s16.cfg = false ∧ exec .swab s16 = .fault .absentInstruction := ⟨rfl, rfl⟩

theorem witness_CarryWriters :
    (∃ t, exec .lit s16 = .next t) ∧ (∃ t, exec .com s16 = .next t) ∧
    ∃ t, exec .stcw (s16.rPush 8) = .next t ∧ ¬ (s16.rPush 8).r.toNat % 65536 = 4 :=
  ⟨⟨_, rfl⟩, ⟨_, rfl⟩, _, rfl, by decide⟩

theorem witness_ControlBitWriters :
    (∃ t, exec .swi s16 = .next t) ∧ (∃ t, exec .reserved10110 s16 = .next t) ∧
    (∃ t, exec (.incorrectBranchCode 3) s32 = .next t) ∧ ∃ t, exec .rolc s16 = .next t :=
  ⟨⟨_, rfl⟩, ⟨_, rfl⟩, ⟨_, rfl⟩, _, rfl⟩

theorem witness_MemoryAndAddressRegisterWriters :
    (∃ t, exec .ftchap s16 = .next t) ∧ ∃ t, exec .sta s16 = .next t := ⟨⟨_, rfl⟩, _, rfl⟩

/-- The flat map at an even and at an odd address, without boot ROM and under it; and a map with read-only memory at one
address and nothing at another. -/
theorem witness_StoresAndTheByteOrder :
    (s16.cfg.memoryMap = [] ∧ s16.placeOf 0x300 = .ram 0x180 ∧ s16.romShows 0x300 = false ∧
      s16.placeOf 0x301 = .ram 0x180 ∧ s16.romShows 0x301 = false) ∧
    (let s := State.resetOf { c16 with xmodem := false }
     s.romShows 0x100 = true ∧ s.placeOf 0x100 = .ram 0x80) ∧
    (∀ n, (State.resetOf mapped).placeOf 0x300 ≠ .ram n) ∧
    ∀ n, (State.resetOf mapped).placeOf 0x80000 ≠ .ram n :=
  ⟨by decide, by decide, fun _ h => Place.noConfusion h, fun _ h => Place.noConfusion h⟩

theorem witness_AddressesAndPostIncrement :
    (s16.Legal ∧ s16.cfg.core = .core16) ∧ s32.Legal ∧ s32.cfg.core = .core32 :=
  ⟨⟨s16_legal, rfl⟩, s32_legal, rfl⟩

/-- No event waits, with the pointers at 512 and 768 and at 513 and 769. -/
theorem witness_StackCrossings :
    ((State.resetOf c16).dsEvent = false ∧ (State.resetOf c16).pntt.toNat = 512 ∧
      (State.resetOf c16).rsEvent = false ∧ (State.resetOf c16).pntr.toNat = 768) ∧
    let s := { State.resetOf c16 with dsp := 1, rsp := 1 }
    s.dsEvent = false ∧ s.pntt.toNat = 513 ∧ s.rsEvent = false ∧ s.pntr.toNat = 769 := by decide

theorem witness_JmpBranches : s16.pc.toNat % 2 = 0 := by decide

theorem witness_JzBranchesOnZero :
    (s16.pc.toNat % 2 = 0 ∧ s16.t.toNat = 0) ∧ s32.pc.toNat % 2 = 0 ∧ s32.t.toNat ≠ 0 := by decide

theorem witness_JncBranchesOnNoCarry :
    (s16.pc.toNat % 2 = 0 ∧ s16.ce.c = false) ∧
    (s16.setC true).pc.toNat % 2 = 0 ∧ (s16.setC true).ce.c = true := by decide

theorem witness_CallPushesAndBranches :
    (s16.pc.toNat % 2 = 0 ∧ twoPcCells s16.cfg = true) ∧
    s32.pc.toNat % 2 = 0 ∧ twoPcCells s32.cfg = false := by decide

theorem witness_CallaPushesAndJumps : twoPcCells s16.cfg = true ∧ twoPcCells s32.cfg = false := by decide

theorem witness_RetPopsThePc : twoPcCells s16.cfg = true ∧ twoPcCells s32.cfg = false := by decide

/-- A `call` on the core that takes two cells, a `calla` on the one that takes one. -/
theorem witness_RetUndoesCall :
    (s16.Legal ∧ ∃ d, Instr.call 3 = .call d) ∧
    s32.Legal ∧ (∃ lo hi, Instr.calla 1 2 = .calla lo hi) ∧ twoPcCells s32.cfg = false :=
  ⟨⟨s16_legal, 3, rfl⟩, s32_legal, ⟨1, 2, rfl⟩, rfl⟩

/-- Numbers 4, 256 and 259 on the return stack, each with a register. -/
theorem witness_FcwReadsPopsAndPushes :
    let has (k : Nat) (n : Word) : Bool :=
      n.toNat == (s16.rPush k).r.toNat % 65536 && ((s16.rPush k).extValue (extReg s16.cfg n)).isSome
    has 4 4 = true ∧ has 256 256 = true ∧ has 259 259 = true := by decide

theorem witness_ExtensionRegisterValues : s16.cfg.core = .core16 := rfl

/-- Number 256 with a register that takes a write. -/
theorem witness_StcwWritesAndPops :
    (256#16).toNat = (s16.rPush 256).r.toNat % 65536 ∧
    ∃ w, (s16.rPush 256).extWrite (s16.rPush 256).t (extReg (s16.rPush 256).cfg 256#16) = some w :=
  ⟨by decide, _, rfl⟩

theorem witness_ExtensionRegisterWrites : s16.cfg.core = .core16 := rfl

theorem witness_WritesReachOneRegister :
    (4#16 ≠ 8#16) ∧ (∃ w, s16.extWrite 1 (extReg s16.cfg 4#16) = some w) ∧
    ¬ ((4#16).toNat = 259 ∧ (8#16).toNat = 258) :=
  ⟨by decide, ⟨_, rfl⟩, by decide⟩

/-- Every clause at the ends of its range of numbers. -/
theorem witness_RefusedExtensionAccesses :
    let number (s : State) (n : Word) : Prop := n.toNat = s.r.toNat % 65536
    (number (s16.rPush 9) 9 ∧ number (s16.rPush 255) 255 ∧ number (s16.rPush 260) 260 ∧
      number (s16.rPush 511) 511 ∧ number (s16.rPush 1024) 1024 ∧ number (s16.rPush 65535) 65535) ∧
    (number (s32.rPush 0) 0 ∧ number (s32.rPush 7) 7 ∧ s32.cfg.core = .core32) ∧
    (number (s16.rPush 2) 2 ∧ number (s32.rPush 3) 3) ∧
    (number (s16.rPush 0) 0 ∧ number (s16.rPush 8) 8 ∧ number (s16.rPush 256) 256 ∧
      number (s16.rPush 259) 259 ∧ number (s16.rPush 512) 512 ∧ number (s16.rPush 1023) 1023) := by decide

theorem witness_LitPushesTheNextWord : s16.Legal := s16_legal

/-- `sta` and `stap`, whose address is `addrA`: word mode and byte mode, each with a writable word there, and a
map that has none there. -/
theorem witness_Stored_addrA :
    (s16.ce.b = false ∧ s16.placeOf s16.addrA.toNat = .ram 0) ∧
    ((withCe s16 0x3000).ce.b = true ∧ (withCe s16 0x3000).placeOf (withCe s16 0x3000).addrA.toNat = .ram 0) ∧
    ∀ n, (State.resetOf mapped).placeOf (State.resetOf mapped).addrA.toNat ≠ .ram n :=
  ⟨by decide, by decide, fun _ h => Place.noConfusion h⟩

/-- `strp`, whose address is `addrR`: the same, with 9 as the top cell of the return stack, and 0x300 on the map
that has read-only memory there. -/
theorem witness_Stored_addrR :
    (s16.ce.b = false ∧ s16.placeOf s16.addrR.toNat = .ram 4) ∧
    ((withCe s16 0x3000).ce.b = true ∧ (withCe s16 0x3000).placeOf (withCe s16 0x3000).addrR.toNat = .ram 4) ∧
    ∀ n, ((State.resetOf mapped).rPush 0x300).placeOf ((State.resetOf mapped).rPush 0x300).addrR.toNat ≠ .ram n :=
  ⟨by decide, by decide, fun _ h => Place.noConfusion h⟩

theorem witness_ComComplements :
    s16.Legal ∧ ∃ t u, exec .com s16 = .next t ∧ exec .addd (t.dPush 1) = .next u :=
  ⟨s16_legal, _, _, rfl, rfl⟩

theorem witness_RolcRotatesLeft : s16.Legal ∧ s32.Legal := ⟨s16_legal, s32_legal⟩

theorem witness_RorcRotatesRight : s16.Legal ∧ s32.Legal := ⟨s16_legal, s32_legal⟩

/-- `T` even, and `T` odd. -/
theorem witness_AddcAddsWhenOdd :
    c16.mt = false ∧ (s16.Legal ∧ s16.cfg.mt = false ∧ s16.t.toNat % 2 = 0) ∧
    (s16.dPush 7).Legal ∧ (s16.dPush 7).cfg.mt = false ∧ (s16.dPush 7).t.toNat % 2 = 1 :=
  ⟨rfl, ⟨s16_legal, rfl, by decide⟩, s16_legal.dPush 7, rfl, by decide⟩

theorem witness_MuluMultipliesExactly : c32mt.mt = true ∧ s32.Legal ∧ s32.cfg.mt = true :=
  ⟨rfl, s32_legal, rfl⟩

theorem witness_XorrAndAnddCombineBits : s16.Legal ∧ s32.Legal := ⟨s16_legal, s32_legal⟩

theorem witness_SxtAndSwabRewriteT :
    c32.core = .core32 ∧ c16.core = .core16 ∧ s32.cfg.core = .core32 := ⟨rfl, rfl, rfl⟩

theorem witness_AdddAddsExactly : s16.Legal ∧ s32.Legal := ⟨s16_legal, s32_legal⟩

/-- The word at `pc` is 1, with `T` zero and `T` not zero. -/
theorem witness_SubtractionIdiom :
    (s16.Legal ∧ s16.wordAtPc = 1#16) ∧
    (s16.dPush 7).Legal ∧ (s16.dPush 7).wordAtPc = 1#16 ∧ (s16.dPush 7).t.toNat ≠ 0 :=
  ⟨⟨s16_legal, by decide⟩, s16_legal.dPush 7, by decide, by decide⟩

theorem witness_ShiftRightIdiom : s16.Legal ∧ s32.Legal := ⟨s16_legal, s32_legal⟩

/-- The data stack is empty. -/
theorem witness_DropAndNop : (State.resetOf c16).pntt.toNat = 512 := by decide

/-- Both cores, one whose `pc` takes two cells and one whose `pc` takes one. -/
theorem witness_SwiAndIncorrectCodesEnter :
    (s16.cfg.core = .core16 ∧ twoPcCells s16.cfg = true) ∧
    s32.cfg.core = .core32 ∧ twoPcCells s32.cfg = false := by decide

theorem witness_IretRestores : s16.cfg.core = .core16 ∧ s32.cfg.core = .core32 := ⟨rfl, rfl⟩

theorem witness_IretUndoesEntry :
    (s16.Legal ∧ twoPcCells s16.cfg = true) ∧ s32.Legal ∧ twoPcCells s32.cfg = false :=
  ⟨⟨s16_legal, rfl⟩, s32_legal, rfl⟩

/-- A state for each clause: both events, the return stack's alone, a request let through, a request masked,
nothing. -/
theorem witness_EndOfLinePriority :
    (let s := { s16 with dsEvent := true, rsEvent := true }; s.dsEvent = true ∧ s.rsEvent = true) ∧
    (let s := { s16 with rsEvent := true }; s.dsEvent = false ∧ s.rsEvent = true) ∧
    (let s := { withCe s16 0 with extIrq := true }
     s.dsEvent = false ∧ s.rsEvent = false ∧ s.irq = true ∧ s.ce.m = false) ∧
    (let s := { s16 with extIrq := true }
     s.dsEvent = false ∧ s.rsEvent = false ∧ s.irq = true ∧ s.ce.m = true) ∧
    (s16.dsEvent = false ∧ s16.rsEvent = false ∧ s16.irq = false) := by decide

/-- The timer stopped, the timer running, and register number 256 on the return stack. -/
theorem witness_TimerCountsTicks :
    s16.timer.enable = false ∧ (writes s16 1 256).timer.enable = true ∧
    (s16.rPush 256).r.toNat % 65536 = 256 := by decide

theorem witness_UartReceivesAndSends : (s16.rPush 259).r.toNat % 65536 = 259 := by decide

/-- The latch is set and an instruction runs; the boot ROM shows up to 0x1FF and not at 0x200; the map has
writable memory, read-only memory and nothing; the flat map. -/
theorem witness_BootRomUntilTheFirstHighRead :
    ((∃ t, exec .ftcha { s16 with romInhibit := true } = .next t) ∧
      ({ s16 with romInhibit := true } : State).romInhibit = true) ∧
    (let rom (k : Nat) : Prop := ({ c16 with xmodem := false } : Config).xmodem = false ∧
        (State.resetOf { c16 with xmodem := false }).romInhibit = false ∧ k < 512
     rom 0 ∧ rom 511 ∧ ¬ rom 512) ∧
    (let place (w : Nat) : Place := region mapped false false w
     place 0x1000 = .ram 0x1000 ∧ place 0x180 = .rom 0x180 ∧ place 0x40000 = .absent) ∧
    (State.resetOf mapped).romShows 0x80000 = false ∧ s16.cfg.memoryMap = [] :=
  ⟨⟨⟨_, rfl⟩, rfl⟩, by decide, by decide, by decide, rfl⟩

theorem witness_ResetValues :
    (State.resetOf c16).cfg.core = .core16 ∧ (State.resetOf c16).cfg.uartMaskPolarity = .blocks := ⟨rfl, rfl⟩

end Sys2Proof.Tests
end

/-!
PROOFS. The branches `jmp` and `jnc` (40_branches.md R131, R134).
-/

namespace Sys2Proof

/-! ### Decoding a branch line (R102) -/

/-- A format B word decodes, on every core, to the branch its code names. -/
theorem decodeLine_branchWord (c : Config) {k : OpCode} (d : Movement) (hk : k.toNat < 4) :
    decodeLine c (branchWord k d) 0 = .whole (decodeBranch k d) := by
  obtain ⟨hcalla, hcode, hmovement⟩ := branchWord_fields k d
  simp [decodeLine, hcalla, hcode, hmovement, hk]

namespace Machine

/-! ### What a branch does (R131) -/

/-- A branch writes `pc` alone. -/
theorem State.branch_frame (s : State) (d : Movement) :
    s.branch d = { s with pc := (s.branch d).pc } := rfl

/-- A branch writes no memory. -/
theorem State.branch_memoryKept (s : State) (d : Movement) : MemoryKept s (s.branch d) :=
  MemoryKept.of_eq (s.branch_mem d)

/-! ### The instructions -/

theorem exec_jmp (d : Movement) (s : State) : exec (.jmp d) s = .next (s.branch d) := rfl

theorem exec_jnc_of_carry (d : Movement) {s : State} (h : s.ce.c = true) :
    exec (.jnc d) s = .next s := by
  simp [exec, execJnc, h]

theorem exec_jnc_of_noCarry (d : Movement) {s : State} (h : s.ce.c = false) :
    exec (.jnc d) s = .next (s.branch d) := by
  simp [exec, execJnc, h]

/-! ### The obligations -/

/-- Settles O19: the state after `jmp` is the branched state, and an even `pc` loses no bit when the
target is taken `mod 2^AB`. -/
theorem jmpBranches : Obligations.JmpBranches := by
  refine ⟨fun c d => decodeLine_branchWord c d (by decide), fun s d hpc => ?_⟩
  exact ⟨s.branch d, exec_jmp d s, s.branch_frame d, s.branch_memoryKept d, s.branch_pc_toNat d hpc⟩

/-- Settles O21, by the two values of the carry. -/
theorem jncBranchesOnNoCarry : Obligations.JncBranchesOnNoCarry := by
  refine ⟨fun c d => decodeLine_branchWord c d (by decide), fun s d hpc => ?_⟩
  cases hc : s.ce.c with
  | true =>
    exact ⟨s, exec_jnc_of_carry d hc, rfl, MemoryKept.of_eq rfl, fun _ => rfl, nofun⟩
  | false =>
    exact ⟨s.branch d, exec_jnc_of_noCarry d hc, s.branch_frame d, s.branch_memoryKept d, nofun,
      fun _ => s.branch_pc_toNat d hpc⟩

end Machine

end Sys2Proof

/-!
PROOFS. Arithmetic and logic (43_alu.md R160 to R167, R169).
-/

namespace Sys2Proof.Machine

/-! ### The instructions as state updates -/

theorem exec_com (s : State) : exec .com s = .next (s.setT (~~~s.t).toNat) := rfl

theorem exec_rolc (s : State) :
    exec .rolc s = .next ((s.setT (rolResult s.t s.ce.c)).setC (rolCarry s.cfg s.t)) := rfl

theorem exec_rorc (s : State) :
    exec .rorc s = .next ((s.setT (rorResult s.cfg s.t s.ce.c)).setC (rorCarry s.t)) := rfl

theorem exec_mulu {s : State} (h : s.cfg.mt = true) :
    exec .mulu s =
      .next ((s.setT (s.t.toNat * s.r.toNat)).setR ((s.t.toNat * s.r.toNat) >>> s.cfg.width)) := by
  simp [exec, execMulu, h]

theorem exec_xorr (s : State) : exec .xorr s = .next (s.replaceTwo (s.second ^^^ s.t).toNat) := rfl

theorem exec_andd (s : State) : exec .andd s = .next (s.replaceTwo (s.second &&& s.t).toNat) := rfl

theorem exec_addd (s : State) :
    exec .addd s =
      .next ((s.replaceTwo (s.second.toNat + s.t.toNat)).setC (addCarry s.cfg s.second s.t)) := rfl

theorem exec_sxt {s : State} (h : s.cfg.core = .core32) :
    exec .sxt s = .next (s.setT ((lowWord s.t).signExtend 32).toNat) := by
  simp [exec, execSxt, h]

theorem exec_swab {s : State} (h : s.cfg.core = .core32) :
    exec .swab s = .next (s.setT (lowWord s.t ++ highWord s.t : BitVec 32).toNat) := by
  simp [exec, execSwab, h]

theorem exec_dup (s : State) : exec .dup s = .next (s.dPush s.t.toNat) := rfl

/-! ### Writes of the data stack -/

/-- Only the residue of the number written matters. -/
theorem DataTopWritten.of_mod_eq {s t : State} {m n : Nat} (h : DataTopWritten s t m)
    (hmn : m % 2 ^ s.cfg.width = n % 2 ^ s.cfg.width) : DataTopWritten s t n :=
  { h with top := h.top.trans hmn }

/-- Two cells replaced by a number are replaced by the `T` this leaves. -/
theorem DataTwoReplaced.top_self {s t : State} {n : Nat} (h : DataTwoReplaced s t n) :
    DataTwoReplaced s t t.t.toNat :=
  { h with top := by rw [h.top, Nat.mod_mod] }

/-- `setT` writes `T` in place. -/
theorem State.setT_others (s : State) (n : Nat) {i : BitVec 8} (h : i ≠ s.dsp) :
    cellAt (s.setT n).ds i = cellAt s.ds i :=
  (s.setT_spec n).others i h

/-- A value that fits a cell is pushed whole. -/
theorem State.dPush_t_of_lt {s : State} {v : Cell} (hv : v.toNat < 2 ^ s.cfg.width) :
    (s.dPush v.toNat).t = v := by
  rw [State.dPush_t, cellOf_of_lt hv]

/-- A push, then an instruction of two operands, leaves the old `S` second from the top. -/
theorem State.dPush_replaceTwo_second (s : State) (m n : Nat) :
    ((s.dPush m).replaceTwo n).second = s.second := by
  have habove : ∀ x : BitVec 8, x + 1#8 ≠ x ∧ x + 1#8 ≠ x - 1#8 := by decide
  obtain ⟨hold, hnew⟩ := habove s.dsp
  simp [State.second, cellAt_setCellAt_other, hold, hnew]

/-! ### A write of `T` and the carry in place -/

/-- From `s` to `t`, only `T` and the carry changed, and `T` is `W` bits wide. -/
structure TopAndCarryWritten (s t : State) : Prop where
  memory : MemoryKept s t
  frame : t = { s with ds := t.ds, ce := { s.ce with c := t.ce.c } }
  others : ∀ i, i ≠ s.dsp → cellAt t.ds i = cellAt s.ds i
  top_lt : t.t.toNat < 2 ^ s.cfg.width

theorem State.setT_setC_spec (s : State) (n : Nat) (b : Bool) :
    TopAndCarryWritten s ((s.setT n).setC b) where
  memory := MemoryKept.of_eq rfl
  frame := rfl
  others := fun _ h => s.setT_others n h
  top_lt := by rw [State.setC_t, State.setT_t]; exact cellOf_lt s.cfg n

namespace TopAndCarryWritten

variable {s t u : State}

theorem cfg_eq (h : TopAndCarryWritten s t) : t.cfg = s.cfg := by rw [h.frame]

theorem dsp_eq (h : TopAndCarryWritten s t) : t.dsp = s.dsp := by rw [h.frame]

/-- When two writes bring `T` and the carry back, they bring the whole state back. -/
theorem restores (h : TopAndCarryWritten s t) (h' : TopAndCarryWritten t u) (htop : u.t = s.t)
    (hcarry : u.ce.c = s.ce.c) : u = s := by
  have hdsp : u.dsp = s.dsp := h'.dsp_eq.trans h.dsp_eq
  have hds : u.ds = s.ds := by
    apply Stack.ext_cellAt
    intro i
    by_cases hi : i = s.dsp
    · simpa [State.t, hdsp, hi] using htop
    · rw [h'.others i (by rwa [h.dsp_eq]), h.others i hi]
  rw [h'.frame, h.frame, hds, hcarry]

end TopAndCarryWritten

/-! ### Rotations through the carry (R161, R162) -/

theorem rolResult_eq (t : Cell) (b : Bool) : rolResult t b = 2 * t.toNat + b.toNat := by
  have := Nat.two_pow_add_eq_or_of_lt (i := 1) b.toNat_lt t.toNat
  rw [rolResult, Nat.shiftLeft_eq, Nat.mul_comm, ← this, pow_one]

theorem rolCarry_toNat (c : Config) (t : Cell) :
    (rolCarry c t).toNat = t.toNat / 2 ^ (c.width - 1) % 2 := Nat.toNat_testBit _ _

theorem rorCarry_toNat (t : Cell) : (rorCarry t).toNat = t.toNat % 2 := by
  rw [rorCarry, BitVec.getLsbD, Nat.toNat_testBit, pow_zero, Nat.div_one]

theorem rorResult_eq {c : Config} {t : Cell} (ht : t.toNat < 2 ^ c.width) (b : Bool) :
    rorResult c t b = t.toNat / 2 + b.toNat * 2 ^ (c.width - 1) := by
  have hlow : t.toNat / 2 < 2 ^ (c.width - 1) := by
    rcases c.width_cases with ⟨-, hw⟩ | ⟨-, hw⟩ <;> rw [hw] at ht ⊢ <;> omega
  have := Nat.two_pow_add_eq_or_of_lt hlow b.toNat
  rw [rorResult, Nat.shiftLeft_eq, Nat.shiftRight_eq_div_pow, pow_one, Nat.or_comm, Nat.mul_comm,
    ← this, Nat.add_comm]

/-- `rolc` doubles the number `C`, `T`, and brings its top bit round to bit 0. -/
theorem rolc_value {c : Config} {t : Cell} (ht : t.toNat < 2 ^ c.width) (b : Bool) :
    (rolCarry c t).toNat * 2 ^ c.width + (cellOf c (rolResult t b)).toNat =
      2 * t.toNat + b.toNat := by
  have hb := b.toNat_lt
  rw [rolCarry_toNat, cellOf_toNat, rolResult_eq]
  rcases c.width_cases with ⟨-, hw⟩ | ⟨-, hw⟩ <;> rw [hw] at ht ⊢ <;> omega

/-- `rorc` halves the number `C`, `T`, and brings its bit 0 round to the carry. -/
theorem rorc_value {c : Config} {t : Cell} (ht : t.toNat < 2 ^ c.width) (b : Bool) :
    2 * (cellOf c (rorResult c t b)).toNat + (rorCarry t).toNat =
      t.toNat + b.toNat * 2 ^ c.width := by
  have hb := b.toNat_lt
  rw [rorCarry_toNat, cellOf_toNat, rorResult_eq ht]
  rcases c.width_cases with ⟨-, hw⟩ | ⟨-, hw⟩ <;> rw [hw] at ht ⊢ <;> omega

theorem carry_eq_of_toNat_eq : ∀ b b' : Bool, b.toNat = b'.toNat → b = b' := by decide

/-- A carry followed by `w` bits is read off the number they write in one way only. -/
theorem carry_and_cell_unique {w : Nat} {b b' : Bool} {x x' : Cell} (hx : x.toNat < 2 ^ w)
    (hx' : x'.toNat < 2 ^ w)
    (h : b.toNat * 2 ^ w + x.toNat = b'.toNat * 2 ^ w + x'.toNat) : x = x' ∧ b = b' := by
  have hcell : x.toNat = x'.toNat := by
    have hmod := congrArg (· % 2 ^ w) h
    simpa [Nat.mod_eq_of_lt hx, Nat.mod_eq_of_lt hx'] using hmod
  have hcarry : b.toNat = b'.toNat := Nat.eq_of_mul_eq_mul_right (Nat.two_pow_pos w) (by omega)
  exact ⟨BitVec.eq_of_toNat_eq hcell, carry_eq_of_toNat_eq b b' hcarry⟩

/-! ### Rewrites of `T` -/

/-- The complement of a `W`-bit cell, truncated to `W` bits. -/
theorem complement_mod {c : Config} {t : Cell} (ht : t.toNat < 2 ^ c.width) :
    (~~~t).toNat % 2 ^ c.width = (2 ^ c.width - 1 - t.toNat) % 2 ^ c.width := by
  rw [BitVec.toNat_not]
  rcases c.width_cases with ⟨-, hw⟩ | ⟨-, hw⟩
  · rw [hw] at ht ⊢; omega
  · rw [hw]

/-- Complementing a `W`-bit number and adding 1, each truncated to `W` bits, negates it. -/
theorem complement_add_one_mod {m x : Nat} (hx : x < m) :
    ((m - 1 - x) % m + 1 % m) % m = (m - x) % m := by
  rw [← Nat.add_mod, show m - 1 - x + 1 = m - x by omega]

theorem signExtend_word_toNat (w : Word) :
    (w.signExtend 32).toNat = if w.toNat < 32768 then w.toNat else w.toNat + 0xFFFF0000 := by
  have hw := w.isLt
  rw [BitVec.toNat_signExtend, BitVec.toNat_setWidth, BitVec.msb_eq_decide]
  simp only [decide_eq_true_eq]
  split <;> split <;> omega

/-! ### Two operands and a `W`-bit result -/

/-- A result that fits a cell replaces the old `S` exactly, and nothing but the data stack changes. -/
theorem State.replaceTwo_exact {s : State} {v : Cell} (hv : v.toNat < 2 ^ s.cfg.width) :
    ∃ t, s.replaceTwo v.toNat = t ∧ DataTwoReplaced s t t.t.toNat ∧ MemoryKept s t ∧
      t = { s with ds := t.ds, dsp := t.dsp, dsEvent := t.dsEvent } ∧ t.t = v :=
  ⟨_, rfl, (s.replaceTwo_spec _).top_self, MemoryKept.of_eq rfl, rfl, by
    rw [State.replaceTwo_t, cellOf_of_lt hv]⟩

/-! ### What the rotations do -/

theorem exec_rolc_spec {s : State} (ht : s.t.toNat < 2 ^ s.cfg.width) :
    ∃ t, exec .rolc s = .next t ∧ TopAndCarryWritten s t ∧
      t.ce.c.toNat * 2 ^ s.cfg.width + t.t.toNat = 2 * s.t.toNat + s.ce.c.toNat := by
  refine ⟨_, exec_rolc s, s.setT_setC_spec _ _, ?_⟩
  rw [State.setC_t, State.setT_t, State.setC_ce]
  exact rolc_value ht s.ce.c

theorem exec_rorc_spec {s : State} (ht : s.t.toNat < 2 ^ s.cfg.width) :
    ∃ t, exec .rorc s = .next t ∧ TopAndCarryWritten s t ∧
      2 * t.t.toNat + t.ce.c.toNat = s.t.toNat + s.ce.c.toNat * 2 ^ s.cfg.width := by
  refine ⟨_, exec_rorc s, s.setT_setC_spec _ _, ?_⟩
  rw [State.setC_t, State.setT_t, State.setC_ce]
  exact rorc_value ht s.ce.c

/-- A `rolc` undoes a `rorc`. -/
theorem exec_rolc_of_rorc {s t : State} (ht : s.t.toNat < 2 ^ s.cfg.width)
    (hw : TopAndCarryWritten s t)
    (hval : 2 * t.t.toNat + t.ce.c.toNat = s.t.toNat + s.ce.c.toNat * 2 ^ s.cfg.width) :
    exec .rolc t = .next s := by
  obtain ⟨u, hu, hw', hval'⟩ := exec_rolc_spec (s := t) (by rw [hw.cfg_eq]; exact hw.top_lt)
  have hu_lt := hw'.top_lt
  rw [hw.cfg_eq] at hval' hu_lt
  obtain ⟨htop, hcarry⟩ :=
    carry_and_cell_unique hu_lt ht (hval'.trans (hval.trans (Nat.add_comm _ _)))
  rw [hu, hw.restores hw' htop hcarry]

/-! ### The obligations -/

/-- Settles O39: the complement is `2^W - 1 - T`, and one more is the negation `mod 2^W`. -/
theorem comComplements : Obligations.ComComplements := by
  refine ⟨fun _ => rfl, fun s hs => ?_⟩
  have hcom := (s.setT_spec _).of_mod_eq (complement_mod hs.t_lt)
  refine ⟨_, exec_com s, hcom, rfl, MemoryKept.of_eq rfl, fun u hu => ?_⟩
  obtain rfl := Host.Outcome.next.inj ((exec_addd _).symm.trans hu)
  rw [State.setC_t, State.replaceTwo_t, cellOf_toNat, State.dPush_second, State.dPush_t, hcom.top,
    cellOf_toNat]
  exact complement_add_one_mod hs.t_lt

/-- Settles O40: the `W + 1` bits after `rolc` are twice those before, the top bit brought round. -/
theorem rolcRotatesLeft : Obligations.RolcRotatesLeft := by
  refine ⟨fun _ => rfl, fun s hs => ?_⟩
  obtain ⟨t, ht, hw, hval⟩ := exec_rolc_spec hs.t_lt
  exact ⟨t, ht, hw.memory, hw.frame, hw.others, hw.top_lt, hval⟩

/-- Settles O41: the `W + 1` bits after `rorc` are half those before, bit 0 brought round; so doubling
them again gives the state before. -/
theorem rorcRotatesRight : Obligations.RorcRotatesRight := by
  refine ⟨fun _ => rfl, fun s hs => ?_⟩
  obtain ⟨t, ht, hw, hval⟩ := exec_rorc_spec hs.t_lt
  exact ⟨t, ht, hw.memory, hw.frame, hw.others, hw.top_lt, hval, exec_rolc_of_rorc hs.t_lt hw hval⟩

/-- Settles O43: the product of two `W`-bit numbers has `2 W` bits, so the quotient by `2^W` fits `R`. -/
theorem muluMultipliesExactly : Obligations.MuluMultipliesExactly := by
  refine ⟨fun c hc => ?_, fun s hs hmt => ?_⟩
  · simp [decodeSlot, hc]
  have hhigh : s.t.toNat * s.r.toNat / 2 ^ s.cfg.width < 2 ^ s.cfg.width :=
    Nat.div_lt_of_lt_mul (Nat.mul_lt_mul'' hs.t_lt hs.r_lt)
  refine ⟨_, exec_mulu hmt, MemoryKept.of_eq rfl, rfl, fun _ h => s.setT_others _ h,
    fun _ h => State.setR_others _ _ h, ((hs.setT _).setR _).t_lt, ((hs.setT _).setR _).r_lt, ?_⟩
  rw [State.setR_t, State.setT_t, State.setR_r, State.setT_cfg, cellOf_toNat, cellOf_toNat,
    Nat.shiftRight_eq_div_pow, Nat.mod_eq_of_lt hhigh]
  exact Nat.div_add_mod' _ _

/-- Pushing `T` twice and combining the copies by `xorr` pushes a zero on `T`. -/
theorem runSlots_dup_dup_xorr {s : State} (ht : s.t.toNat < 2 ^ s.cfg.width) :
    ∃ t, runSlots exec [.dup, .dup, .xorr] s = .next t ∧
      t.dsp = s.dsp - 1#8 ∧ t.t.toNat = 0 ∧ t.second = s.t := by
  have hone : (s.dPush s.t.toNat).t = s.t := State.dPush_t_of_lt ht
  have htwo : ((s.dPush s.t.toNat).dPush s.t.toNat).t = s.t := State.dPush_t_of_lt ht
  refine ⟨((s.dPush s.t.toNat).dPush s.t.toNat).replaceTwo (s.t ^^^ s.t).toNat, ?_, ?_, ?_, ?_⟩
  · simp only [runSlots, endsLine, exec_dup, exec_xorr, andThen_of_next, State.dPush_second, hone,
      htwo, Bool.false_eq_true, if_false]
  · rw [State.replaceTwo_dsp, State.dPush_dsp, State.dPush_dsp, BitVec.sub_add_cancel]
  · rw [State.replaceTwo_t, BitVec.xor_self]
    simp
  · rw [State.dPush_replaceTwo_second, State.dPush_second]

/-- Settles O44: the result of two `W`-bit cells is `W` bits wide, so no bit of it is lost. -/
theorem xorrAndAnddCombineBits : Obligations.XorrAndAnddCombineBits := by
  refine ⟨fun _ => ⟨rfl, rfl⟩, fun s hs => ⟨?_, ?_, runSlots_dup_dup_xorr hs.t_lt⟩⟩
  · have hlt : (s.second ^^^ s.t).toNat < 2 ^ s.cfg.width := by
      rw [BitVec.toNat_xor]; exact Nat.xor_lt_two_pow hs.second_lt hs.t_lt
    obtain ⟨t, ht, hstack, hmem, hframe, htop⟩ := State.replaceTwo_exact hlt
    refine ⟨t, by rw [exec_xorr, ht], hstack, hmem, hframe, fun j => ?_⟩
    rw [htop, BitVec.getLsbD_xor, Bool.xor_comm]
  · have hlt : (s.second &&& s.t).toNat < 2 ^ s.cfg.width := by
      rw [BitVec.toNat_and]; exact Nat.and_lt_two_pow _ hs.t_lt
    obtain ⟨t, ht, hstack, hmem, hframe, htop⟩ := State.replaceTwo_exact hlt
    refine ⟨t, by rw [exec_andd, ht], hstack, hmem, hframe, fun j => ?_⟩
    rw [htop, BitVec.getLsbD_and, Bool.and_comm]

/-- Settles O45: the two rewrites of `T` as numbers; the codes by the core. -/
theorem sxtAndSwabRewriteT : Obligations.SxtAndSwabRewriteT := by
  refine ⟨fun c hc => ?_, fun c hc => ?_, fun s hs => ⟨?_, ?_⟩⟩
  · simp [decodeSlot, hc]
  · simp [decodeSlot, hc]
  · refine ⟨_, exec_sxt hs, rfl, MemoryKept.of_eq rfl, ?_⟩
    rw [← lowWord_toNat, ← signExtend_word_toNat]
    exact s.setT_spec _
  · refine ⟨_, exec_swab hs, rfl, MemoryKept.of_eq rfl, ?_⟩
    rw [← lowWord_toNat, ← highWord_toNat, ← append16_toNat]
    exact s.setT_spec _

end Sys2Proof.Machine

/-!
PROOFS. The data-stack movement `drop` and the filler `nop` (44_stack.md R186, R187).
-/

namespace Sys2Proof.Machine

/-! ### The data-stack pointer as a number (R22) -/

theorem State.pntt_toNat (s : State) : s.pntt.toNat = 512 + s.dsp.toNat := by
  rw [State.pntt, BitVec.toNat_append, ← Nat.shiftLeft_add_eq_or_of_lt s.dsp.isLt]
  rfl

/-- On the empty stack the pointer byte is 0x00. -/
theorem State.pntt_eq_512_iff (s : State) : s.pntt.toNat = 512 ↔ s.dsp = 0#8 := by
  rw [State.pntt_toNat, BitVec.toNat_eq, BitVec.toNat_ofNat]
  omega

/-! ### A pop of the empty stack (R205, R206) -/

theorem DataPopped.pntt_of_empty {s t : State} (h : DataPopped s t) (hs : s.dsp = 0#8) :
    t.pntt.toNat = 513 := by
  rw [State.pntt_toNat, h.pointer, hs]
  rfl

theorem DataPopped.dsEvent_of_empty {s t : State} (h : DataPopped s t) (hs : s.dsp = 0#8) :
    t.dsEvent = true := by
  rw [h.event, hs]
  exact Bool.or_true _

/-- A line that leaves the data-stack event ends by taking that interruption. -/
theorem State.endOfLine_of_dsEvent {s : State} (h : s.dsEvent = true) :
    s.endOfLine = { s with dsEvent := false }.enter vectorDataStack :=
  if_pos h

theorem State.endOfLine_pc_of_dsEvent {s : State} (h : s.dsEvent = true) :
    s.endOfLine.pc.toNat = vectorDataStack := by
  rw [State.endOfLine_of_dsEvent h]
  exact (State.enter_spec _ (by decide) (by decide)).pc

/-! ### The instructions -/

theorem exec_drop (s : State) : exec .drop s = .next s.dDrop := rfl

theorem exec_nop (s : State) : exec .nop s = .next s := rfl

/-! ### The obligation -/

/-- Settles O51: `drop` is the bare pop, and a pop of the empty stack leaves the event that ends the
line at the data-stack vector. -/
theorem dropAndNop : Obligations.DropAndNop := by
  refine ⟨fun _ => ⟨rfl, rfl⟩, fun s => ⟨?_, exec_nop s⟩⟩
  have hpop : DataPopped s s.dDrop := s.dDrop_spec
  refine ⟨s.dDrop, exec_drop s, hpop, MemoryKept.of_eq rfl, rfl, fun h512 => ?_⟩
  have hempty : s.dsp = 0#8 := s.pntt_eq_512_iff.mp h512
  exact ⟨hpop.pntt_of_empty hempty,
    State.endOfLine_pc_of_dsEvent (hpop.dsEvent_of_empty hempty)⟩

end Sys2Proof.Machine

/-!
PROOFS. The encoding: every line the tables write decodes to itself, and every word is the encoding of the line
it decodes to (30_encoding.md R100 to R108).
-/

namespace Sys2Proof

/-! ### Slot codes (R105, R106, R108) -/

/-- The code of an instruction that fits a slot decodes to that instruction. -/
theorem decodeSlot_slotCode {c : Config} {i : Instr} (h : i.fitsLaterSlot c = true) :
    decodeSlot c (slotCode i) = i := by
  cases i with
  | jmp d => exact Laws.SlotCode.jmp d c h
  | jz d => exact Laws.SlotCode.jz d c h
  | call d => exact Laws.SlotCode.call d c h
  | jnc d => exact Laws.SlotCode.jnc d c h
  | calla lo hi => exact Laws.SlotCode.calla lo hi c h
  | incorrectBranchCode k => exact Laws.SlotCode.incorrectBranchCode k c h
  | swi => exact Laws.SlotCode.swi c h
  | swab => exact Laws.SlotCode.swab c h
  | addc => exact Laws.SlotCode.addc c h
  | mulu => exact Laws.SlotCode.mulu c h
  | reserved10110 => exact Laws.SlotCode.reserved10110 c h
  | sxt => exact Laws.SlotCode.sxt c h
  | _ => rfl

/-- What fits slot 1 has no branch code: it fits a later slot too, and its code is at least 4. -/
theorem Instr.fitsSlot1_iff (c : Config) (i : Instr) :
    i.fitsSlot1 c = true ↔ i.fitsLaterSlot c = true ∧ 4 ≤ (slotCode i).toNat := by
  cases i with
  | incorrectBranchCode k =>
    have hk : ∀ k : BitVec 2, ¬ 4 ≤ (slotCode (.incorrectBranchCode k)).toNat := by decide
    simp [Instr.fitsSlot1, Instr.isIncorrectBranchCode, hk k]
  | _ => simp [Instr.fitsSlot1, Instr.fitsLaterSlot, Instr.isWholeLine, Instr.isIncorrectBranchCode, slotCode]

/-- The machine that `c` is to the slot decoder, which looks at `CORE` and `MT` only. -/
def slotConfig (core : Core) (mt : Bool) : Config := { Config.standard with core := core, mt := mt }

theorem decodeSlot_slotConfig (c : Config) (k : OpCode) :
    decodeSlot c k = decodeSlot (slotConfig c.core c.mt) k := decodeSlot_congr rfl rfl k

/-- Whether a machine has an instruction depends on `CORE` and `MT` only (R106). -/
theorem Instr.existsOn_slotConfig (c : Config) (i : Instr) :
    i.existsOn c = i.existsOn (slotConfig c.core c.mt) := by cases i <;> rfl

/-- A fact about what a code decodes to is a fact about each of the 32 codes on the four machines the slot
decoder tells apart. -/
theorem decodeSlot_forall {P : Core → Bool → OpCode → Instr → Prop}
    (h : ∀ k, P .core16 false k (decodeSlot (slotConfig .core16 false) k) ∧
      P .core16 true k (decodeSlot (slotConfig .core16 true) k) ∧
      P .core32 false k (decodeSlot (slotConfig .core32 false) k) ∧
      P .core32 true k (decodeSlot (slotConfig .core32 true) k))
    (c : Config) (k : OpCode) : P c.core c.mt k (decodeSlot c k) := by
  obtain ⟨h1, h2, h3, h4⟩ := h k
  rw [decodeSlot_slotConfig]
  cases c.core <;> cases c.mt <;> assumption

/-- Every code decodes to an instruction the machine has, which fits a slot and has that code. -/
theorem decodeSlot_fits (c : Config) (k : OpCode) :
    (decodeSlot c k).fitsLaterSlot c = true ∧ slotCode (decodeSlot c k) = k := by
  rw [Instr.fitsLaterSlot, Instr.existsOn_slotConfig]
  exact decodeSlot_forall (P := fun core mt k i =>
    (i.existsOn (slotConfig core mt) && !i.isWholeLine) = true ∧ slotCode i = k) (by decide) c k

theorem slotCode_decodeSlot (c : Config) (k : OpCode) : slotCode (decodeSlot c k) = k :=
  (decodeSlot_fits c k).2

/-- An incorrect operating code (R108): code 10110 of the 16 bits core, or a branch code in a slot. -/
def Instr.IsIncorrect (i : Instr) : Prop := i = .reserved10110 ∨ ∃ k, i = .incorrectBranchCode k

theorem decodeSlot_isIncorrect_iff (c : Config) (k : OpCode) :
    (decodeSlot c k).IsIncorrect ↔ (c.core = .core16 ∧ k = 22#5) ∨ k.toNat < 4 :=
  decodeSlot_forall (P := fun core _ k i => (i = .reserved10110 ∨ ∃ j, i = .incorrectBranchCode j) ↔
    (core = .core16 ∧ k = 22#5) ∨ k.toNat < 4) (by decide) c k

/-! ### The three formats (R100 to R103) -/

theorem decodeLine_of_calla (c : Config) {w1 : Word} (w2 : Word) (h : isCallaWord w1 = true) :
    decodeLine c w1 w2 = .whole (.calla (w1.extractLsb' 1 15) w2) := by
  simp [decodeLine, h]

theorem decodeLine_of_branch (c : Config) {w1 : Word} (w2 : Word) (h : isCallaWord w1 = false)
    (hk : (code1 w1).toNat < 4) :
    decodeLine c w1 w2 = .whole (decodeBranch (code1 w1) (movementField w1)) := by
  simp [decodeLine, h, hk]

theorem decodeLine_of_slots (c : Config) {w1 : Word} (w2 : Word) (h : isCallaWord w1 = false)
    (hk : 4 ≤ (code1 w1).toNat) : decodeLine c w1 w2 =
      .slots (decodeSlot c (code1 w1)) (decodeSlot c (code2 w1)) (decodeSlot c (code3 w1)) := by
  simp [decodeLine, h, Nat.not_lt.mpr hk]

/-- Only a `calla` reads the second word. -/
theorem decodeLine_second (c : Config) {w1 : Word} (w2 w2' : Word) (h : isCallaWord w1 = false) :
    decodeLine c w1 w2 = decodeLine c w1 w2' := by
  simp [decodeLine, h]

theorem decodeLine_slotsWord (c : Config) {k1 : OpCode} (k2 k3 : OpCode) (hk : 4 ≤ k1.toNat) :
    decodeLine c (slotsWord k1 k2 k3) 0 = .slots (decodeSlot c k1) (decodeSlot c k2) (decodeSlot c k3) := by
  obtain ⟨hcalla, h1, h2, h3⟩ := slotsWord_fields k1 k2 k3
  rw [decodeLine_of_slots c 0 hcalla (by rwa [h1]), h1, h2, h3]

/-- A branch line decodes from its bytes. -/
theorem decode_branchWord (c : Config) {k : OpCode} (d : Movement) (rest : List Byte) (hk : k.toNat < 4) :
    decode c (bytesOfWords [branchWord k d] ++ rest) = .ok (.whole (decodeBranch k d), rest) := by
  rw [decode_bytesOfWord c rest (branchWord_fields k d).1, decodeLine_branchWord c d hk]

/-- The decoder on the four bytes of a `calla`. -/
theorem decode_callaWords (c : Config) (lo : BitVec 15) (hi : Word) (rest : List Byte) :
    decode c (bytesOfWords [lo ++ 1#1, hi] ++ rest) = .ok (.whole (.calla lo hi), rest) := by
  obtain ⟨hcalla, hlo⟩ := callaWord_fields lo
  simp only [bytesOfWords, List.cons_append, List.nil_append, decode, wordOfBytes_bytes, hcalla, if_pos,
    decodeLine_of_calla c hi hcalla, hlo]

theorem branchCode_cases : ∀ k : OpCode, k.toNat < 4 → k = 0 ∨ k = 1 ∨ k = 2 ∨ k = 3 := by decide

/-- A branch code decodes to a branch line, which every machine has, and encodes as that code. -/
theorem decodeBranch_spec (c : Config) {k : OpCode} (d : Movement) (hk : k.toNat < 4) :
    (Line.whole (decodeBranch k d)).wellFormed c = true ∧
    encodeLine (.whole (decodeBranch k d)) = [branchWord k d] := by
  rcases branchCode_cases k hk with rfl | rfl | rfl | rfl <;> exact ⟨rfl, rfl⟩

/-! ### A word is its fields -/

/-- A word with bit 0 at 0 is its first code, its movement and the 0. -/
theorem branchWord_of_fields {w : Word} (h : isCallaWord w = false) :
    branchWord (code1 w) (movementField w) = w := by
  apply BitVec.eq_of_getLsbD_eq
  intro i hi
  have h0 : w[0] = false := h
  simp only [branchWord, code1, movementField, BitVec.getLsbD_append, BitVec.getLsbD_extractLsb']
  interval_cases i <;> simp [h0]

/-- A word with bit 0 at 0 is its three codes and the 0. -/
theorem slotsWord_of_fields {w : Word} (h : isCallaWord w = false) :
    slotsWord (code1 w) (code2 w) (code3 w) = w := by
  apply BitVec.eq_of_getLsbD_eq
  intro i hi
  have h0 : w[0] = false := h
  simp only [slotsWord, code1, code2, code3, BitVec.getLsbD_append, BitVec.getLsbD_extractLsb']
  interval_cases i <;> simp [h0]

/-- A word with bit 0 at 1 is its bits 15..1 and the 1. -/
theorem callaWord_of_fields {w : Word} (h : isCallaWord w = true) :
    (w.extractLsb' 1 15 ++ 1#1 : BitVec 16) = w := by
  apply BitVec.eq_of_getLsbD_eq
  intro i hi
  have h0 : w[0] = true := h
  simp only [BitVec.getLsbD_append, BitVec.getLsbD_extractLsb']
  interval_cases i <;> simp [h0]

/-- Every word decodes to a line the tables can write (R108). -/
theorem decodeLine_wellFormed (c : Config) (w1 w2 : Word) : (decodeLine c w1 w2).wellFormed c = true := by
  cases hcalla : isCallaWord w1 with
  | true => rw [decodeLine_of_calla c w2 hcalla]; rfl
  | false =>
    by_cases hk : (code1 w1).toNat < 4
    · rw [decodeLine_of_branch c w2 hcalla hk]
      exact (decodeBranch_spec c _ hk).1
    · have h1 : (decodeSlot c (code1 w1)).fitsSlot1 c = true := by
        rw [Instr.fitsSlot1_iff, slotCode_decodeSlot]
        exact ⟨(decodeSlot_fits c _).1, Nat.not_lt.mp hk⟩
      rw [decodeLine_of_slots c w2 hcalla (Nat.not_lt.mp hk), Line.wellFormed, h1,
        (decodeSlot_fits c _).1, (decodeSlot_fits c _).1]
      rfl

/-- Encoding the line a word decodes to gives the word back, and of a `calla` the second word too. -/
theorem encodeLine_decodeLine (c : Config) (w1 w2 : Word) :
    encodeLine (decodeLine c w1 w2) = if isCallaWord w1 then [w1, w2] else [w1] := by
  cases hcalla : isCallaWord w1 with
  | true =>
    rw [decodeLine_of_calla c w2 hcalla, encodeLine, callaWord_of_fields hcalla]
    rfl
  | false =>
    by_cases hk : (code1 w1).toNat < 4
    · rw [decodeLine_of_branch c w2 hcalla hk, (decodeBranch_spec c _ hk).2, branchWord_of_fields hcalla]
      rfl
    · rw [decodeLine_of_slots c w2 hcalla (Nat.not_lt.mp hk), encodeLine, slotCode_decodeSlot,
        slotCode_decodeSlot, slotCode_decodeSlot, slotsWord_of_fields hcalla]
      rfl

/-! ### The obligations -/

/-- Settles O1, by the format of the line: each format's fields are read back from its word. -/
theorem decodeOfEncodeIsTheLine : Obligations.DecodeOfEncodeIsTheLine := by
  intro c l rest hwf
  cases l with
  | whole i =>
    have hwhole : i.isWholeLine = true := (Bool.and_eq_true_iff.mp hwf).2
    cases i with
    | jmp d => exact decode_branchWord c d rest (by decide)
    | jz d => exact decode_branchWord c d rest (by decide)
    | call d => exact decode_branchWord c d rest (by decide)
    | jnc d => exact decode_branchWord c d rest (by decide)
    | calla lo hi => exact decode_callaWords c lo hi rest
    | _ => cases hwhole
  | slots i1 i2 i3 =>
    obtain ⟨⟨h1, h2⟩, h3⟩ : (i1.fitsSlot1 c = true ∧ i2.fitsLaterSlot c = true) ∧
        i3.fitsLaterSlot c = true := by simpa [Line.wellFormed] using hwf
    obtain ⟨h1, hk⟩ := (i1.fitsSlot1_iff c).mp h1
    rw [encodeLine, decode_bytesOfWord c rest (slotsWord_fields _ _ _).1, decodeLine_slotsWord c _ _ hk,
      decodeSlot_slotCode h1, decodeSlot_slotCode h2, decodeSlot_slotCode h3]

/-- Settles O2, by the three formats (R100). -/
theorem encodeOfDecodeIsTheWord : Obligations.EncodeOfDecodeIsTheWord :=
  fun c w1 w2 => ⟨decodeLine_wellFormed c w1 w2, encodeLine_decodeLine c w1 w2⟩

/-- Settles O3: a slot's incorrect codes are read off the 32 codes; slot 1 of a format S line has no branch
code. -/
theorem incorrectCodesAreTheListedOnes : Obligations.IncorrectCodesAreTheListedOnes := by
  intro c w1 w2
  refine ⟨fun h => decodeLine_of_calla c w2 h, fun h hk => ⟨movementField w1, ?_⟩, fun h hk => ?_⟩
  · rw [decodeLine_of_branch c w2 h hk]
    rcases branchCode_cases _ hk with hk | hk | hk | hk <;> rw [hk] <;> simp [decodeBranch]
  · refine ⟨_, _, _, decodeLine_of_slots c w2 h hk, ?_, decodeSlot_isIncorrect_iff c _,
      decodeSlot_isIncorrect_iff c _⟩
    exact (decodeSlot_isIncorrect_iff c _).trans (or_iff_left (Nat.not_lt.mpr hk))

/-- Settles O4: each word, decoded. -/
theorem specWordsDecode : Obligations.SpecWordsDecode := by
  unfold Obligations.SpecWordsDecode
  decide

end Sys2Proof

/-!
PROOFS. What an instruction can do, said once, and a step as its parts (30_encoding.md R106, R107): which
instructions fault, which refuse, and what every step keeps.
-/

namespace Sys2Proof.Machine

/-! ### What an instruction can do -/

/-- `Executes i s t`: instruction `i` takes state `s` to `t`, one case for each way it can go on
(`exec_eq_next_iff`). -/
inductive Executes : Instr → State → State → Prop where
  | jmp (d : Movement) (s : State) : Executes (.jmp d) s (s.branch d)
  | jzTaken (d : Movement) {s : State} (h : s.t = 0) : Executes (.jz d) s (s.branch d)
  | jzPassed (d : Movement) {s : State} (h : s.t ≠ 0) : Executes (.jz d) s s
  | call (d : Movement) (s : State) : Executes (.call d) s ((s.pushPc s.pc).branch d)
  | jncTaken (d : Movement) {s : State} (h : s.ce.c = false) : Executes (.jnc d) s (s.branch d)
  | jncPassed (d : Movement) {s : State} (h : s.ce.c = true) : Executes (.jnc d) s s
  | calla (lo : BitVec 15) (hi : Word) (s : State) : Executes (.calla lo hi) s
      ((s.pushPc s.pc).setPc (hi ++ (lo ++ 0#1 : BitVec 16) : BitVec 32).toNat)
  | ret (s : State) : Executes .ret s s.popPc
  | iret (s : State) : Executes .iret s s.returnFromInterruption
  | fcw {s : State} {v : Cell} (h : s.extValue (extReg s.cfg (lowWord s.r)) = some v) :
      Executes .fcw s (((s.noteExtRead (extReg s.cfg (lowWord s.r))).rDrop).dPush v.toNat)
  | stcw {s w : State} (h : s.extWrite s.t (extReg s.cfg (lowWord s.r)) = some w) :
      Executes .stcw s w.rDrop.dDrop
  | ftchrp (s : State) :
      Executes .ftchrp s (((s.noteRead s.addrR).incR s.stride).dPush (s.fetched s.addrR).toNat)
  | ftchap (s : State) :
      Executes .ftchap s (((s.noteRead s.addrA).incA s.stride).dPush (s.fetched s.addrA).toNat)
  | lit (s : State) : Executes .lit s ((s.passWord.dPush s.wordAtPc.toNat).setC false)
  | ftcha (s : State) : Executes .ftcha s ((s.noteRead s.addrA).dPush (s.fetched s.addrA).toNat)
  | strp (s : State) : Executes .strp s (((s.store s.addrR s.t).incR s.stride).dDrop)
  | stap (s : State) : Executes .stap s (((s.store s.addrA s.t).incA s.stride).dDrop)
  | sta (s : State) : Executes .sta s ((s.store s.addrA s.t).dDrop)
  | swi {s : State} (h : s.cfg.core = .core16) : Executes .swi s (s.enter vectorSwi)
  | reserved10110 {s : State} (h : s.cfg.core = .core16) :
      Executes .reserved10110 s (s.enter vectorIncorrectCode)
  | incorrectBranchCode (k : BitVec 2) (s : State) :
      Executes (.incorrectBranchCode k) s (s.enter vectorIncorrectCode)
  | com (s : State) : Executes .com s (s.setT (~~~s.t).toNat)
  | rolc (s : State) :
      Executes .rolc s ((s.setT (rolResult s.t s.ce.c)).setC (rolCarry s.cfg s.t))
  | rorc (s : State) :
      Executes .rorc s ((s.setT (rorResult s.cfg s.t s.ce.c)).setC (rorCarry s.t))
  | addcAdds {s : State} (hmt : s.cfg.mt = false) (h : s.t.getLsbD 0 = true) :
      Executes .addc s ((s.setT (s.t.toNat + s.second.toNat)).setC (addCarry s.cfg s.t s.second))
  | addcPasses {s : State} (hmt : s.cfg.mt = false) (h : s.t.getLsbD 0 = false) :
      Executes .addc s (s.setC false)
  | mulu {s : State} (hmt : s.cfg.mt = true) : Executes .mulu s
      ((s.setT (s.t.toNat * s.r.toNat)).setR ((s.t.toNat * s.r.toNat) >>> s.cfg.width))
  | xorr (s : State) : Executes .xorr s (s.replaceTwo (s.second ^^^ s.t).toNat)
  | andd (s : State) : Executes .andd s (s.replaceTwo (s.second &&& s.t).toNat)
  | sxt {s : State} (h : s.cfg.core = .core32) :
      Executes .sxt s (s.setT ((lowWord s.t).signExtend 32).toNat)
  | swab {s : State} (h : s.cfg.core = .core32) :
      Executes .swab s (s.setT (lowWord s.t ++ highWord s.t : BitVec 32).toNat)
  | addd (s : State) : Executes .addd s
      ((s.replaceTwo (s.second.toNat + s.t.toNat)).setC (addCarry s.cfg s.second s.t))
  | pop (s : State) : Executes .pop s (s.rDrop.dPush s.r.toNat)
  | popa (s : State) : Executes .popa s (s.dPush s.a.toNat)
  | dup (s : State) : Executes .dup s (s.dPush s.t.toNat)
  | overS (s : State) : Executes .overS s (s.dPush s.second.toNat)
  | push (s : State) : Executes .push s (s.dDrop.rPush s.t.toNat)
  | pusha (s : State) : Executes .pusha s (s.dDrop.setA s.t.toNat)
  | nop (s : State) : Executes .nop s s
  | drop (s : State) : Executes .drop s s.dDrop

/-- Each case of `Executes` is a result of `exec`. -/
theorem Executes.exec_eq {i : Instr} {s t : State} (h : Executes i s t) : exec i s = .next t := by
  cases h with
  | jzTaken d h => simp [exec, execJz, h]
  | jzPassed d h => simp only [exec, execJz, if_neg h]
  | jncTaken d h => exact exec_jnc_of_noCarry d h
  | jncPassed d h => exact exec_jnc_of_carry d h
  | fcw h => simp [exec, execFcw, h]
  | stcw h => simp [exec, execStcw, h]
  | swi h => simp [exec, execSwi, h]
  | reserved10110 h => simp [exec, execReserved10110, h]
  | addcAdds hmt h => simp [exec, execAddc, hmt, h]
  | addcPasses hmt h => simp only [exec, execAddc, hmt, h, Bool.false_eq_true, if_false]
  | mulu hmt => exact exec_mulu hmt
  | sxt h => exact exec_sxt h
  | swab h => exact exec_swab h
  | _ => rfl

/-! ### Which instructions fault, and which refuse -/

/-- An instruction the machine does not have faults (R106, log 29). -/
theorem exec_of_absent {i : Instr} {s : State} (h : i.existsOn s.cfg = false) :
    exec i s = .fault .absentInstruction := by
  cases i with
  | swi | reserved10110 =>
    have hc : s.cfg.core = .core32 := by cases hc : s.cfg.core <;> simp_all [Instr.existsOn]
    simp [exec, execSwi, execReserved10110, hc]
  | swab | sxt =>
    have hc : s.cfg.core = .core16 := by cases hc : s.cfg.core <;> simp_all [Instr.existsOn]
    simp [exec, execSwab, execSxt, hc]
  | addc =>
    have hmt : s.cfg.mt = true := by simpa [Instr.existsOn] using h
    simp [exec, execAddc, hmt]
  | mulu =>
    have hmt : s.cfg.mt = false := h
    simp [exec, execMulu, hmt]
  | _ => cases h

/-- A number with no register to read is free space (R46). -/
theorem State.extValue_eq_none_iff (s : State) (r : ExtReg) : s.extValue r = none ↔ r = .freeSpace := by
  cases r <;> simp [State.extValue]

/-- A number with no register to write is free space, or a stack pointer (R46, R141). -/
theorem State.extWrite_eq_none_iff (s : State) (v : Cell) (r : ExtReg) :
    s.extWrite v r = none ↔ r = .freeSpace ∨ r = .pntt ∨ r = .pntr := by
  cases r <;> simp [State.extWrite]

theorem exec_fcw_of_none {s : State} (h : s.extValue (extReg s.cfg (lowWord s.r)) = none) :
    exec .fcw s = .refused (.freeSpaceRead (lowWord s.r)) := by
  simp [exec, execFcw, h]

theorem exec_stcw_of_none {s : State} (h : s.extWrite s.t (extReg s.cfg (lowWord s.r)) = none) :
    exec .stcw s = .refused (writeRefusal (lowWord s.r) (extReg s.cfg (lowWord s.r))) := by
  simp [exec, execStcw, h]

/-- A refused read is one the rules ask a model to refuse. -/
theorem askedFor_of_extValue {s : State} {n : Word} (h : s.extValue (extReg s.cfg n) = none) :
    Refusal.askedFor s.cfg (.freeSpaceRead n) :=
  ⟨n, .inl ⟨rfl, (s.extValue_eq_none_iff _).mp h⟩⟩

/-- A refused write is one the rules ask a model to refuse. -/
theorem askedFor_of_extWrite {s : State} {v : Cell} {n : Word} (h : s.extWrite v (extReg s.cfg n) = none) :
    Refusal.askedFor s.cfg (writeRefusal n (extReg s.cfg n)) := by
  rcases (s.extWrite_eq_none_iff v _).mp h with hr | hr | hr
  · exact ⟨n, .inr (.inl ⟨by rw [hr]; rfl, hr⟩)⟩
  · exact ⟨n, .inr (.inr ⟨by rw [hr]; rfl, .inl hr⟩)⟩
  · exact ⟨n, .inr (.inr ⟨by rw [hr]; rfl, .inr hr⟩)⟩

/-- An instruction the machine has goes on, or refuses what the rules ask a model to refuse. -/
theorem exec_of_exists {i : Instr} {s : State} (h : i.existsOn s.cfg = true) :
    (∃ t, Executes i s t) ∨ ∃ r, exec i s = .refused r ∧ Refusal.askedFor s.cfg r := by
  cases i with
  | fcw =>
    cases hv : s.extValue (extReg s.cfg (lowWord s.r)) with
    | some v => exact .inl ⟨_, .fcw hv⟩
    | none => exact .inr ⟨_, exec_fcw_of_none hv, askedFor_of_extValue hv⟩
  | stcw =>
    cases hw : s.extWrite s.t (extReg s.cfg (lowWord s.r)) with
    | some w => exact .inl ⟨_, .stcw hw⟩
    | none => exact .inr ⟨_, exec_stcw_of_none hw, askedFor_of_extWrite hw⟩
  | jz d =>
    by_cases ht : s.t = 0
    · exact .inl ⟨_, .jzTaken d ht⟩
    · exact .inl ⟨_, .jzPassed d ht⟩
  | jnc d =>
    cases hc : s.ce.c with
    | true => exact .inl ⟨_, .jncPassed d hc⟩
    | false => exact .inl ⟨_, .jncTaken d hc⟩
  | addc =>
    have hmt : s.cfg.mt = false := by simpa [Instr.existsOn] using h
    cases ht : s.t.getLsbD 0 with
    | true => exact .inl ⟨_, .addcAdds hmt ht⟩
    | false => exact .inl ⟨_, .addcPasses hmt ht⟩
  | mulu => exact .inl ⟨_, .mulu h⟩
  | swi => exact .inl ⟨_, .swi (eq_of_beq h)⟩
  | reserved10110 => exact .inl ⟨_, .reserved10110 (eq_of_beq h)⟩
  | sxt => exact .inl ⟨_, .sxt (eq_of_beq h)⟩
  | swab => exact .inl ⟨_, .swab (eq_of_beq h)⟩
  | _ => exact .inl ⟨_, by constructor⟩

/-- `Executes` says exactly how `exec` goes on. -/
theorem exec_eq_next_iff {i : Instr} {s t : State} : exec i s = .next t ↔ Executes i s t := by
  refine ⟨fun h => ?_, Executes.exec_eq⟩
  cases he : i.existsOn s.cfg with
  | false => rw [exec_of_absent he] at h; cases h
  | true =>
    rcases exec_of_exists he with ⟨u, hu⟩ | ⟨r, hr, -⟩
    · rw [hu.exec_eq] at h
      cases h
      exact hu
    · rw [hr] at h; cases h

/-- An instruction that stands as a whole line always goes on. -/
theorem exec_of_isWholeLine {i : Instr} (s : State) (h : i.isWholeLine = true) :
    ∃ t, exec i s = .next t := by
  cases i with
  | jmp d => exact ⟨_, (Executes.jmp d s).exec_eq⟩
  | call d => exact ⟨_, (Executes.call d s).exec_eq⟩
  | calla lo hi => exact ⟨_, (Executes.calla lo hi s).exec_eq⟩
  | jz d => exact ⟨_, rfl⟩
  | jnc d => exact ⟨_, rfl⟩
  | _ => cases h

/-! ### What every instruction keeps -/

/-- No instruction changes a parameter (R6). -/
theorem Executes.cfg_eq {i : Instr} {s t : State} (h : Executes i s t) : t.cfg = s.cfg := by
  cases h with
  | stcw hw => simpa using State.extWrite_cfg hw
  | _ => simp

/-- Every instruction keeps a legal state legal: each is made of operations that do (R21, R28, R29). -/
theorem Executes.legal {i : Instr} {s t : State} (h : Executes i s t) (hs : s.Legal) : t.Legal := by
  cases h with
  | jmp d | jzTaken d | jncTaken d => exact hs.branch d
  | jzPassed | jncPassed | nop => exact hs
  | call d => exact (hs.pushPc _).branch d
  | calla => exact (hs.pushPc _).setPc _
  | ret => exact hs.popPc
  | iret => exact hs.returnFromInterruption
  | fcw => exact (hs.noteExtRead _).rDrop.dPush _
  | stcw hw => exact (hs.extWrite hw).rDrop.dDrop
  | ftchrp => exact ((hs.noteRead _).incR _).dPush _
  | ftchap => exact ((hs.noteRead _).incA _).dPush _
  | ftcha => exact (hs.noteRead _).dPush _
  | lit => exact (hs.passWord.dPush _).setC _
  | strp => exact ((hs.store s.addrR_lt _).incR _).dDrop
  | stap => exact ((hs.store s.addrA_lt _).incA _).dDrop
  | sta => exact (hs.store s.addrA_lt _).dDrop
  | swi | reserved10110 | incorrectBranchCode => exact hs.enter _
  | com | sxt | swab => exact hs.setT _
  | rolc | rorc | addcAdds => exact (hs.setT _).setC _
  | addcPasses => exact hs.setC _
  | mulu => exact (hs.setT _).setR _
  | xorr | andd => exact hs.replaceTwo _
  | addd => exact (hs.replaceTwo _).setC _
  | pop => exact hs.rDrop.dPush _
  | popa | dup | overS => exact hs.dPush _
  | push => exact hs.dDrop.rPush _
  | pusha => exact hs.dDrop.setA _
  | drop => exact hs.dDrop

/-! ### A step as its parts (R107) -/

/-- A step ends where its slots do, after the end of the line. -/
theorem step_eq_next_iff {s t : State} : step s = .next t ↔
    ∃ u, runSlots exec (lineInstrs s.deliver.line) s.deliver.afterFetch = .next u ∧ u.endOfLine = t := by
  rw [step, stepWith, andThen_next]
  simp only [Host.Outcome.next.injEq]

/-- What every instruction keeps, the slots of a line keep. -/
theorem runSlots_keeps {P : State → Prop} (hP : ∀ i s t, Executes i s t → P s → P t) {is : List Instr}
    {s t : State} (h : runSlots exec is s = .next t) (hs : P s) : P t := by
  induction is generalizing s with
  | nil =>
    cases h
    exact hs
  | cons i is ih =>
    obtain ⟨u, hu, hrest⟩ := runSlots_cons_next.mp h
    have hPu : P u := hP i s u (exec_eq_next_iff.mp hu) hs
    split at hrest
    · exact hrest ▸ hPu
    · exact ih hrest hPu

/-- What the environment's events, the fetch, every instruction and the end of a line keep, a step keeps. -/
theorem step_keeps {P : State → Prop} (hdeliver : ∀ s, P s → P s.deliver) (hfetch : ∀ s, P s → P s.afterFetch)
    (hexec : ∀ i s t, Executes i s t → P s → P t) (hend : ∀ s, P s → P s.endOfLine) {s t : State}
    (h : step s = .next t) (hs : P s) : P t := by
  obtain ⟨u, hu, rfl⟩ := step_eq_next_iff.mp h
  exact hend u (runSlots_keeps hexec hu (hfetch _ (hdeliver s hs)))

/-- Settles O8: each part of a step keeps a legal state legal. -/
theorem stepKeepsLegal : Obligations.StepKeepsLegal := fun _ _ hs h =>
  step_keeps (fun _ h => h.deliver) (fun _ h => h.afterFetch) (fun _ _ _ he h => he.legal h)
    (fun _ h => h.endOfLine) h hs

/-- Settles O9: every register of the state after reset is 0 but the mask, and memory lists nothing. -/
theorem resetIsLegal : Obligations.ResetIsLegal := fun c => by
  have hcell : ∀ i : BitVec 8, (cellAt (Vector.replicate 256 0) i).toNat < 2 ^ c.width := by simp
  constructor <;> simp [State.resetOf, Mem.wf_nil, Mem.below]

/-! ### The parameters (R6, R34, R35) -/

theorem State.applyEvent_cfg (s : State) (e : EnvEvent) : (s.applyEvent e).cfg = s.cfg := by
  cases e <;> rfl

theorem State.applyEvents_cfg (s : State) (es : List EnvEvent) : (s.applyEvents es).cfg = s.cfg := by
  induction es generalizing s with
  | nil => rfl
  | cons e es ih => exact (ih _).trans (s.applyEvent_cfg e)

@[simp] theorem State.deliver_cfg (s : State) : s.deliver.cfg = s.cfg := by
  unfold State.deliver
  split
  · rfl
  · exact State.applyEvents_cfg _ _

@[simp] theorem State.afterFetch_cfg (s : State) : s.afterFetch.cfg = s.cfg := by
  unfold State.afterFetch
  split <;> simp

@[simp] theorem State.endOfLine_cfg (s : State) : s.endOfLine.cfg = s.cfg := by
  unfold State.endOfLine
  split
  · simp
  · split
    · simp
    · split <;> simp

theorem step_cfg {s t : State} (h : step s = .next t) : t.cfg = s.cfg :=
  step_keeps (P := fun u => u.cfg = s.cfg) (fun u hu => u.deliver_cfg.trans hu)
    (fun u hu => u.afterFetch_cfg.trans hu) (fun _ _ _ he hu => he.cfg_eq.trans hu)
    (fun u hu => u.endOfLine_cfg.trans hu) h rfl

/-- Bits 0 and 1 of `CE` are the parameters `MT` and `EMU` (R34, R35). -/
theorem State.ceWord_parameters (s : State) :
    s.ceWord.getLsbD 0 = s.cfg.mt ∧ s.ceWord.getLsbD 1 = s.cfg.emu := by
  simp only [State.ceWord, BitVec.getLsbD_append]
  simp

/-- Settles O10: every part of a step keeps the parameters, and `CE` shows two of them. -/
theorem stepKeepsTheParameters : Obligations.StepKeepsTheParameters := by
  intro s t h
  have hcfg := step_cfg h
  obtain ⟨hmt, hemu⟩ := s.ceWord_parameters
  obtain ⟨hmt', hemu'⟩ := t.ceWord_parameters
  exact ⟨hcfg, by rw [hmt', hmt, hcfg], by rw [hemu', hemu, hcfg]⟩

/-! ### The stops (R46, R141, R200) -/

/-- The instructions of a well-formed line are instructions the machine has. -/
theorem existsOn_of_wellFormed {c : Config} {l : Line} (h : l.wellFormed c = true) :
    ∀ i ∈ lineInstrs l, i.existsOn c = true := by
  cases l with
  | whole i => simp_all [lineInstrs, Line.wellFormed]
  | slots i1 i2 i3 => simp_all [lineInstrs, Line.wellFormed, Instr.fitsSlot1, Instr.fitsLaterSlot]

/-- Slots the machine has go on to the end, or stop at a refusal the rules ask for. -/
theorem runSlots_of_exists {is : List Instr} {s : State} (h : ∀ i ∈ is, i.existsOn s.cfg = true) :
    (∃ t, runSlots exec is s = .next t) ∨
      ∃ r, runSlots exec is s = .refused r ∧ Refusal.askedFor s.cfg r := by
  induction is generalizing s with
  | nil => exact .inl ⟨s, rfl⟩
  | cons i is ih =>
    rcases exec_of_exists (h i (List.mem_cons_self ..)) with ⟨u, hu⟩ | ⟨r, hr, hasked⟩
    · have hrest := ih (s := u) fun j hj => hu.cfg_eq ▸ h j (List.mem_cons_of_mem i hj)
      rw [runSlots, hu.exec_eq, andThen_of_next]
      split
      · exact .inl ⟨u, rfl⟩
      · rwa [hu.cfg_eq] at hrest
    · exact .inr ⟨r, by rw [runSlots, hr]; rfl, hasked⟩

/-- Settles O11: the decoder yields only instructions the machine has, so only a refusal stops a step. -/
theorem stepStopsOnlyWhereTheRulesRefuse : Obligations.StepStopsOnlyWhereTheRulesRefuse := by
  intro s
  have hcfg : s.deliver.afterFetch.cfg = s.deliver.cfg := s.deliver.afterFetch_cfg
  have hexists : ∀ i ∈ lineInstrs s.deliver.line, i.existsOn s.deliver.afterFetch.cfg = true := by
    rw [hcfg]
    exact existsOn_of_wellFormed (decodeLine_wellFormed _ _ _)
  rcases runSlots_of_exists hexists with ⟨t, ht⟩ | ⟨r, hr, hasked⟩
  · exact .inl ⟨_, step_eq_next_iff.mpr ⟨t, ht, rfl⟩⟩
  · rw [hcfg, s.deliver_cfg] at hasked
    exact .inr ⟨r, by rw [step, stepWith, hr]; rfl, hasked⟩

/-- Settles O12: an instruction the machine has goes on or refuses. -/
theorem execFaultsExactlyOnAbsentInstructions : Obligations.ExecFaultsExactlyOnAbsentInstructions := by
  intro i s
  refine ⟨exec_of_absent, fun hfault => ?_⟩
  cases he : i.existsOn s.cfg with
  | false => rfl
  | true =>
    rcases exec_of_exists he with ⟨t, ht⟩ | ⟨r, hr, -⟩
    · rw [ht.exec_eq] at hfault; cases hfault
    · rw [hr] at hfault; cases hfault

end Sys2Proof.Machine

/-!
PROOFS. How a step runs the line at `pc` (30_encoding.md R107), and which instructions write the bits of `CE`,
memory and `A` (10_state.md R27, R31 to R33).
-/

namespace Sys2Proof.Machine

/-! ### The line at `pc` (R107) -/

/-- The bytes at `pc` decode to the line there. -/
theorem State.line_of_decode {s : State} {l : Line} {rest : List Byte}
    (h : decode s.cfg s.lineBytes = .ok (l, rest)) : s.line = l := by
  simp only [State.lineBytes, bytesOfWords, decode, wordOfBytes_bytes] at h
  cases hcalla : isCallaWord s.wordAtPc with
  | true =>
    simp only [hcalla, if_pos, Except.ok.injEq, Prod.mk.injEq] at h
    exact h.1
  | false =>
    simp only [hcalla, Bool.false_eq_true, if_false, Except.ok.injEq, Prod.mk.injEq] at h
    exact (decodeLine_second s.cfg _ 0 hcalla).trans h.1

theorem State.applyEvents_eq_foldl (s : State) (es : List EnvEvent) :
    s.applyEvents es = es.foldl State.applyEvent s := by
  induction es generalizing s with
  | nil => rfl
  | cons e es ih => exact ih _

/-! ### Running slots (R107) -/

theorem runSlots_of_refused {i : Instr} (is : List Instr) {s : State} {r : Refusal}
    (h : exec i s = .refused r) : runSlots exec (i :: is) s = .refused r := by
  rw [runSlots, h]; rfl

theorem runSlots_of_ends {i : Instr} (is : List Instr) {s t : State} (h : exec i s = .next t)
    (hi : endsLine i = true) : runSlots exec (i :: is) s = .next t := by
  rw [runSlots, h, andThen_of_next, if_pos hi]

theorem runSlots_of_next {i : Instr} (is : List Instr) {s t : State} (h : exec i s = .next t)
    (hi : endsLine i = false) : runSlots exec (i :: is) s = runSlots exec is t := by
  rw [runSlots, h, andThen_of_next, if_neg (by simp [hi])]

/-- The last slot ends the line, whatever it is. -/
theorem runSlots_singleton (i : Instr) (s : State) : runSlots exec [i] s = exec i s := by
  rw [runSlots]
  cases exec i s <;> simp [andThen, runSlots]

theorem step_of_next {s t : State} {l : Line} (hl : s.deliver.line = l)
    (h : runSlots exec (lineInstrs l) s.deliver.afterFetch = .next t) : step s = .next t.endOfLine := by
  rw [step, stepWith, hl, h]; rfl

theorem step_of_refused {s : State} {l : Line} {r : Refusal} (hl : s.deliver.line = l)
    (h : runSlots exec (lineInstrs l) s.deliver.afterFetch = .refused r) : step s = .refused r := by
  rw [step, stepWith, hl, h]; rfl

/-- `ret`, `iret`, `swi` and the incorrect codes end their line. -/
theorem endsLine_iff (i : Instr) : endsLine i = true ↔
    i = .ret ∨ i = .iret ∨ i = .swi ∨ i = .reserved10110 ∨ ∃ k, i = .incorrectBranchCode k := by
  cases i <;> simp [endsLine]

/-- Settles O5: a whole line is one instruction, which goes on. -/
theorem stepRunsTheWholeLine : Obligations.StepRunsTheWholeLine := by
  refine ⟨fun s h => by simp [State.deliver, h],
    fun s batch later h => by simp [State.deliver, h, State.applyEvents_eq_foldl], fun s i rest h => ?_⟩
  have hline := State.line_of_decode h
  have hwf : (Line.whole i).wellFormed s.deliver.cfg = true := hline ▸ decodeLine_wellFormed _ _ _
  obtain ⟨t, ht⟩ := exec_of_isWholeLine s.deliver.afterFetch (Bool.and_eq_true_iff.mp hwf).2
  exact ⟨t, ht, step_of_next hline ((runSlots_singleton i _).trans ht)⟩

/-- Settles O6, slot by slot: each refuses, ends the line, or hands its state to the next. -/
theorem stepRunsTheSlots : Obligations.StepRunsTheSlots := by
  intro s i1 i2 i3 rest h ends stops
  have hline := State.line_of_decode h
  have hends : ∀ i, ends i → endsLine i = true := fun i => (endsLine_iff i).mpr
  have hgoes : ∀ i, ¬ ends i → endsLine i = false := fun i hi =>
    Bool.eq_false_iff.mpr fun hi' => hi ((endsLine_iff i).mp hi')
  refine ⟨fun r hr => step_of_refused hline (runSlots_of_refused _ hr), fun t1 h1 =>
    ⟨fun he => step_of_next hline (runSlots_of_ends _ h1 (hends _ he)), fun hn1 => ?_⟩⟩
  have run2 := runSlots_of_next [i2, i3] h1 (hgoes _ hn1)
  refine ⟨fun r hr => step_of_refused hline (run2.trans (runSlots_of_refused _ hr)), fun t2 h2 =>
    ⟨fun he => step_of_next hline (run2.trans (runSlots_of_ends _ h2 (hends _ he))), fun hn2 => ?_⟩⟩
  have run3 := run2.trans (runSlots_of_next [i3] h2 (hgoes _ hn2))
  exact ⟨fun r hr => step_of_refused hline (run3.trans (runSlots_of_refused _ hr)), fun t3 h3 =>
    step_of_next hline (run3.trans ((runSlots_singleton i3 t2).trans h3))⟩

/-! ### The fetch -/

theorem State.passWord_pc_toNat {s : State} (h : s.pc.toNat % 2 = 0) :
    s.passWord.pc.toNat = (s.pc.toNat + 2) % 2 ^ s.cfg.addrBits := by
  rw [State.passWord_pc, evenAddrOf_toNat_of_even _ (by omega)]

/-- Passing a word reads it, which sets `rom_inhibit` at 0xFFFXXXXX (R254). -/
theorem State.passWord_romInhibit_iff (s : State) : s.passWord.romInhibit = true ↔
    s.romInhibit = true ∨ s.pc.toNat / 2 ^ 20 = 2 ^ (s.cfg.addrBits - 20) - 1 := by
  rw [State.passWord_romInhibit, Bool.or_eq_true, inTopMegabyte_iff]

/-- Settles O7, by whether the line is a `calla`: one word is passed, or two. -/
theorem fetchMovesPastTheLine : Obligations.FetchMovesPastTheLine := by
  intro s hs high next t
  have hpc : s.passWord.pc.toNat = next := State.passWord_pc_toNat hs.pc_even
  have hinhibit := s.passWord_romInhibit_iff
  cases hcalla : s.wordAtPc.getLsbD 0 with
  | false =>
    have ht : t = s.passWord := if_neg (by rw [isCallaWord, hcalla]; exact Bool.false_ne_true)
    rw [ht]
    exact ⟨rfl, fun _ => ⟨hpc, hinhibit⟩, nofun⟩
  | true =>
    have ht : t = s.passWord.passWord := if_pos hcalla
    rw [ht]
    refine ⟨rfl, nofun, fun _ => ⟨?_, ?_⟩⟩
    · rw [State.passWord_pc_toNat hs.passWord.pc_even, hpc, State.passWord_cfg, Nat.mod_add_mod]
    · rw [State.passWord_romInhibit_iff, hinhibit, hpc, State.passWord_cfg, or_assoc]

/-! ### The bits of `CE` (R31 to R33) -/

/-- Only number 4 reaches `CE`. -/
theorem extReg_ne_ce {c : Config} {v : Cell} (h : v.toNat % 65536 ≠ 4) : extReg c (lowWord v) ≠ .ce := by
  intro hce
  have hn := extReg_number (c := c) (n := lowWord v) (by rw [hce]; nofun)
  rw [hce, lowWord_toNat] at hn
  exact h hn.symm

/-- A `stcw` to another number than 4 keeps `CE`. -/
theorem State.extWrite_ce_of_number {s w : State} {v n : Cell} (h : s.extWrite v (extReg s.cfg (lowWord n)) = some w)
    (hn : n.toNat % 65536 ≠ 4) : w.ce = s.ce := State.extWrite_ce h (extReg_ne_ce hn)

theorem Executes.carry_eq {i : Instr} {s t : State} (h : Executes i s t) (hlit : i ≠ .lit) (hrolc : i ≠ .rolc)
    (hrorc : i ≠ .rorc) (haddc : i ≠ .addc) (haddd : i ≠ .addd) (hiret : i ≠ .iret)
    (hstcw : ¬ (i = .stcw ∧ s.r.toNat % 65536 = 4)) : t.ce.c = s.ce.c := by
  cases h with
  | lit => exact absurd rfl hlit
  | rolc => exact absurd rfl hrolc
  | rorc => exact absurd rfl hrorc
  | addcAdds | addcPasses => exact absurd rfl haddc
  | addd => exact absurd rfl haddd
  | iret => exact absurd rfl hiret
  | stcw hw => simp [State.extWrite_ce_of_number hw fun h4 => hstcw ⟨rfl, h4⟩]
  | _ => simp

/-- Settles O13: every instruction but the named ones leaves the carry. -/
theorem carryWriters : Obligations.CarryWriters := by
  intro i s t h
  have hx := exec_eq_next_iff.mp h
  refine ⟨?_, hx.carry_eq⟩
  rintro rfl
  cases hx
  simp

/-- An instruction that takes an interruption sets `I` and `M` and clears `B` (R201). -/
theorem Executes.ce_of_entry {i : Instr} {s t : State} (h : Executes i s t)
    (hi : i = .swi ∨ i = .reserved10110 ∨ ∃ k, i = .incorrectBranchCode k) :
    t.ce = { s.ce with i := true, m := true, b := false } := by
  rcases hi with rfl | rfl | ⟨k, rfl⟩ <;> cases h <;> exact State.enter_ce ..

/-- Every other instruction but `iret` and a `stcw` to register 4 leaves `I`, `M`, `B` and `CE.S`. -/
theorem Executes.control_eq {i : Instr} {s t : State} (h : Executes i s t) (hiret : i ≠ .iret)
    (hstcw : ¬ (i = .stcw ∧ s.r.toNat % 65536 = 4))
    (hentry : i ≠ .swi ∧ i ≠ .reserved10110 ∧ ∀ k, i ≠ .incorrectBranchCode k) :
    t.ce = { s.ce with c := t.ce.c } := by
  obtain ⟨hswi, hreserved, hbranch⟩ := hentry
  cases h with
  | iret => exact absurd rfl hiret
  | swi => exact absurd rfl hswi
  | reserved10110 => exact absurd rfl hreserved
  | incorrectBranchCode k => exact absurd rfl (hbranch k)
  | stcw hw => simp [State.extWrite_ce_of_number hw fun h4 => hstcw ⟨rfl, h4⟩]
  | _ => simp

/-- Settles O14: what an entry leaves in `CE`, and what every other instruction leaves. -/
theorem controlBitWriters : Obligations.ControlBitWriters := fun _ _ _ h =>
  have hx := exec_eq_next_iff.mp h
  ⟨hx.ce_of_entry, hx.control_eq⟩

/-! ### Memory and `A` (R27, R70) -/

/-- Only `strp`, `stap` and `sta` write memory. -/
theorem Executes.mem_eq {i : Instr} {s t : State} (h : Executes i s t) (hstrp : i ≠ .strp) (hstap : i ≠ .stap)
    (hsta : i ≠ .sta) : t.mem = s.mem := by
  cases h with
  | strp => exact absurd rfl hstrp
  | stap => exact absurd rfl hstap
  | sta => exact absurd rfl hsta
  | stcw hw =>
    obtain ⟨-, -, -, -, -, -, -, -, hmem, -⟩ := State.extWrite_frame hw
    simpa using hmem
  | _ => simp

/-- Only `pusha`, `ftchap`, `stap` and `iret` write `A`. -/
theorem Executes.a_eq {i : Instr} {s t : State} (h : Executes i s t) (hpusha : i ≠ .pusha)
    (hftchap : i ≠ .ftchap) (hstap : i ≠ .stap) (hiret : i ≠ .iret) : t.a = s.a := by
  cases h with
  | pusha => exact absurd rfl hpusha
  | ftchap => exact absurd rfl hftchap
  | stap => exact absurd rfl hstap
  | iret => exact absurd rfl hiret
  | stcw hw =>
    obtain ⟨-, ha, -⟩ := State.extWrite_frame hw
    simpa using ha
  | _ => simp

/-- Settles O15: memory that is the same list reads the same. -/
theorem memoryAndAddressRegisterWriters : Obligations.MemoryAndAddressRegisterWriters := fun _ _ _ h =>
  have hx := exec_eq_next_iff.mp h
  ⟨fun h1 h2 h3 => MemoryKept.of_eq (hx.mem_eq h1 h2 h3), hx.a_eq⟩

end Sys2Proof.Machine

/-!
PROOFS. Memory, addresses and the stack pointers (20_memory.md R72 to R84, 10_state.md R22 to R25).
-/

namespace Sys2Proof.Machine

/-! ### Words and their bytes (R72, R73) -/

theorem evenByte_append (h l : Byte) : evenByte (h ++ l : BitVec 16) = h := by
  apply BitVec.eq_of_getLsbD_eq
  intro i hi
  simp only [evenByte, BitVec.getLsbD_extractLsb', BitVec.getLsbD_append]
  simp [hi]

theorem oddByte_append (h l : Byte) : oddByte (h ++ l : BitVec 16) = l := by
  apply BitVec.eq_of_getLsbD_eq
  intro i hi
  simp only [oddByte, BitVec.getLsbD_extractLsb', BitVec.getLsbD_append]
  simp [hi]

/-- Where the boot ROM does not show and writable memory answers, a word is its two bytes there. -/
theorem State.wordAt_of_ram {s : State} {a : Addr} {n : Nat} (hrom : s.romShows a.toNat = false)
    (hplace : s.placeOf a.toNat = .ram n) :
    s.wordAt a = Mem.read s.mem (n * 2) ++ Mem.read s.mem (n * 2 + 1) := by
  have byte : ∀ k, k / 2 = a.toNat / 2 → s.byteAt k = Mem.read s.mem (n * 2 + k % 2) := fun k hk =>
    State.byteAt_of_place ((s.romShows_of_half hk).trans hrom) (.inl ((s.placeOf_of_half hk).trans hplace))
  have heven : n * 2 + a.toNat / 2 * 2 % 2 = n * 2 := by omega
  have hodd : n * 2 + (a.toNat / 2 * 2 + 1) % 2 = n * 2 + 1 := by omega
  rw [State.wordAt, evenAddress, byte _ (by omega), byte _ (by omega), heven, hodd]

/-- A word stored is the word read back. -/
theorem State.storeWord_wordAt {s : State} {a : Addr} {n : Nat} (hrom : s.romShows a.toNat = false)
    (hplace : s.placeOf a.toNat = .ram n) (w : Word) : (s.storeWord a w).wordAt a = w := by
  rw [State.wordAt_of_ram (s := s.storeWord a w) hrom hplace, State.storeWord_read hplace,
    State.storeWord_read hplace, if_neg (by omega), if_pos rfl, if_pos rfl]
  exact wordOfBytes_bytes w

/-- A byte stored replaces the byte of its address and leaves the other one of the word (D14). -/
theorem State.storeByte_wordAt {s : State} {a : Addr} {n : Nat} (hrom : s.romShows a.toNat = false)
    (hplace : s.placeOf a.toNat = .ram n) (b : Byte) : (s.storeByte a b).wordAt a =
      if a.toNat % 2 = 0 then b ++ oddByte (s.wordAt a) else evenByte (s.wordAt a) ++ b := by
  rw [State.wordAt_of_ram (s := s.storeByte a b) hrom hplace, State.wordAt_of_ram hrom hplace,
    State.storeByte_read hplace, State.storeByte_read hplace, evenByte_append, oddByte_append]
  rcases Nat.mod_two_eq_zero_or_one a.toNat with hbit | hbit <;> rw [hbit]
  · rw [if_pos (by omega), if_neg (by omega), if_pos rfl]
  · rw [if_neg (by omega), if_pos rfl, if_neg (by omega)]

/-- Settles O16: what memory reads as after a store, and the word made of it. -/
theorem storesAndTheByteOrder : Obligations.StoresAndTheByteOrder := by
  intro s a w b
  refine ⟨⟨rfl, fun n hn => ⟨?_, ?_, fun k hk => ?_, fun hrom => State.storeWord_wordAt hrom hn w⟩,
      fun h => State.storeWord_lost h w⟩,
    ⟨rfl, fun n hn => ⟨?_, fun k hk => ?_, fun hrom => State.storeByte_wordAt hrom hn b⟩,
      fun h => State.storeByte_lost h b⟩, fun h k => State.placeOf_flat h k⟩
  · rw [State.storeWord_read hn, if_neg (by omega), if_pos rfl]; rfl
  · rw [State.storeWord_read hn, if_pos rfl]; rfl
  · rw [State.storeWord_read hn, if_neg (by omega), if_neg (by omega)]
  · rw [State.storeByte_read hn, if_pos rfl]
  · rw [State.storeByte_read hn, if_neg hk]

/-! ### Addresses and their post-increment (R77, R84) -/

theorem Config.width_of_core16 {c : Config} (h : c.core = .core16) : c.width = 16 := by
  simp [Config.width, h]

theorem Config.width_of_core32 {c : Config} (h : c.core = .core32) : c.width = 32 := by
  simp [Config.width, h]

/-- A page and a register, each as wide as the 16 bits core has it, are an address as they stand. -/
theorem addrOf_page_toNat {c : Config} {p : Word} {v : Cell} (hc : c.core = .core16)
    (hp : p.toNat < 2 ^ c.pageBits) (hv : v.toNat < 2 ^ c.width) :
    (addrOf c (p ++ lowWord v : BitVec 32).toNat).toNat = p.toNat * 65536 + v.toNat := by
  rw [Config.width_of_core16 hc] at hv
  have hpage : p.toNat * 65536 + v.toNat < 2 ^ c.addrBits := by
    rw [c.pow_addrBits_eq]; omega
  have hword : v.toNat % 65536 = v.toNat := Nat.mod_eq_of_lt hv
  rw [addrOf_toNat, append16_toNat, lowWord_toNat, hword, Nat.mod_eq_of_lt hpage]

/-- The two halves of an address, the low one in a cell, are the address. -/
theorem halves_toNat (c : Config) (v : Addr) :
    (highWord v).toNat * 65536 + (cellOf c (lowWord v).toNat).toNat = v.toNat := by
  rw [cellOf_word, highWord_toNat, lowWord_toNat]; omega

/-- The low half of an address in a cell is 16 bits wide. -/
theorem lowHalf_lt (c : Config) (v : Addr) : (cellOf c (lowWord v).toNat).toNat < 65536 := by
  rw [cellOf_word]; exact (lowWord v).isLt

theorem State.addrA_of_core16 {s : State} (hs : s.Legal) (hc : s.cfg.core = .core16) :
    s.addrA.toNat = s.pa.toNat * 65536 + s.a.toNat := by
  simp only [State.addrA, hc]
  exact addrOf_page_toNat hc hs.pa_lt hs.a_lt

theorem State.addrR_of_core16 {s : State} (hs : s.Legal) (hc : s.cfg.core = .core16) :
    s.addrR.toNat = s.pr.toNat * 65536 + s.r.toNat := by
  simp only [State.addrR, hc]
  exact addrOf_page_toNat hc hs.pr_lt hs.r_lt

theorem State.addrA_of_core32 {s : State} (hc : s.cfg.core = .core32) :
    s.addrA.toNat = s.a.toNat % 2 ^ s.cfg.addrBits := by
  simp only [State.addrA, hc, addrOf_toNat]

theorem State.addrR_of_core32 {s : State} (hc : s.cfg.core = .core32) :
    s.addrR.toNat = s.r.toNat % 2 ^ s.cfg.addrBits := by
  simp only [State.addrR, hc, addrOf_toNat]

theorem State.incA_of_core16 {s : State} (k : Nat) (hc : s.cfg.core = .core16) : s.incA k =
    { s.setA (lowWord (s.nextAddr s.addrA k)).toNat with pa := highWord (s.nextAddr s.addrA k) } := by
  simp only [State.incA, hc]

theorem State.incR_of_core16 {s : State} (k : Nat) (hc : s.cfg.core = .core16) : s.incR k =
    { s.setR (lowWord (s.nextAddr s.addrR k)).toNat with pr := highWord (s.nextAddr s.addrR k) } := by
  simp only [State.incR, hc]

/-- `R` after the increment on the 16 bits core: the low half of the next address. -/
theorem State.incR_r_of_core16 {s : State} (k : Nat) (hc : s.cfg.core = .core16) :
    (s.incR k).r = cellOf s.cfg (lowWord (s.nextAddr s.addrR k)).toNat := by
  rw [State.incR_of_core16 k hc]
  exact State.setR_r s _

theorem State.incA_of_core32 {s : State} (k : Nat) (hc : s.cfg.core = .core32) :
    s.incA k = s.setA (s.a.toNat + k) := by
  simp only [State.incA, hc]

theorem State.incR_of_core32 {s : State} (k : Nat) (hc : s.cfg.core = .core32) :
    s.incR k = s.setR (s.r.toNat + k) := by
  simp only [State.incR, hc]

/-- `IncA` writes `A` and its page alone. -/
theorem State.incA_frame (s : State) (k : Nat) : s.incA k = { s with a := (s.incA k).a, pa := (s.incA k).pa } := by
  apply State.ext_fields <;> simp

/-- `IncR` writes the return stack and the page of `R` alone. -/
theorem State.incR_frame (s : State) (k : Nat) :
    s.incR k = { s with rs := (s.incR k).rs, pr := (s.incR k).pr } := by
  apply State.ext_fields <;> simp

/-- Settles O17, by the core: the two halves of one number, or one register. -/
theorem addressesAndPostIncrement : Obligations.AddressesAndPostIncrement := by
  intro s k hs
  refine ⟨fun hc => ?_, fun hc => ?_, s.incA_frame k, s.incR_frame k, fun _ => s.incR_others k⟩
  · have haddrA := State.addrA_of_core16 hs hc
    have haddrR := State.addrR_of_core16 hs hc
    rw [State.incR_r_of_core16 k hc, State.incA_of_core16 k hc, State.incR_of_core16 k hc, ← haddrA, ← haddrR,
      ← addrOf_toNat, ← addrOf_toNat]
    exact ⟨rfl, rfl, halves_toNat _ _, lowHalf_lt _ _, halves_toNat _ _, lowHalf_lt _ _⟩
  · rw [State.incA_of_core32 k hc, State.incR_of_core32 k hc, State.setA_a, State.setR_r, cellOf_toNat,
      cellOf_toNat, Config.width_of_core32 hc]
    exact ⟨State.addrA_of_core32 hc, State.addrR_of_core32 hc, rfl, rfl⟩

/-! ### The stack pointers and their crossings (R22 to R25, R205) -/

theorem State.pntr_toNat (s : State) : s.pntr.toNat = 768 + s.rsp.toNat := by
  rw [State.pntr, BitVec.toNat_append, ← Nat.shiftLeft_add_eq_or_of_lt s.rsp.isLt]
  rfl

/-- A pointer byte `x` above its base `b`: it goes round within its 256 numbers, and it is at the base, or one
above it, exactly when the byte is 0 or 1. -/
theorem pointer_moves (b : Nat) (x : BitVec 8) :
    (b + (x - 1#8).toNat = if b + x.toNat = b then b + 255 else b + x.toNat - 1) ∧
    (b + (x + 1#8).toNat = if b + x.toNat = b + 255 then b else b + x.toNat + 1) ∧
    ((x == 1#8) = true ↔ b + x.toNat = b + 1) ∧ ((x == 0#8) = true ↔ b + x.toNat = b) := by
  have hx := x.isLt
  refine ⟨?_, ?_, ?_, ?_⟩
  · rw [BitVec.toNat_sub]; split <;> simp <;> omega
  · rw [BitVec.toNat_add]; split <;> simp <;> omega
  · rw [beq_iff_eq, BitVec.toNat_eq, BitVec.toNat_ofNat]; omega
  · rw [beq_iff_eq, BitVec.toNat_eq, BitVec.toNat_ofNat]; omega

/-- Settles O18: both pointers are a byte above their base, and an event is the byte that crosses. -/
theorem stackCrossings : Obligations.StackCrossings := by
  intro s n
  obtain ⟨hddown, hdup, hdone, hdzero⟩ := pointer_moves 512 s.dsp
  obtain ⟨hrdown, hrup, hrone, hrzero⟩ := pointer_moves 768 s.rsp
  have hd := s.dsp.isLt
  have hr := s.rsp.isLt
  simp only [State.pntt_toNat, State.pntr_toNat]
  refine ⟨⟨by omega, by omega, by omega, by omega⟩, fun he => ⟨?_, ?_⟩, fun he => ⟨?_, ?_⟩, hddown, hdup,
    hrdown, hrup⟩
  · rw [State.dPush_dsEvent, he, Bool.false_or]; exact hdone
  · rw [State.dDrop_dsEvent, he, Bool.false_or]; exact hdzero
  · rw [State.rPush_rsEvent, he, Bool.false_or]; exact hrone
  · rw [State.rDrop_rsEvent, he, Bool.false_or]; exact hrzero

end Sys2Proof.Machine

/-!
PROOFS. Branches, calls and returns (40_branches.md R130 to R136), and taking an interruption and returning from one
(60_exceptions.md R201, R206, 45_system.md R190 to R192).
-/

namespace Sys2Proof.Machine

/-! ### `PushPC` and a jump -/

/-- A call writes the return stack and `pc` alone. -/
theorem State.pushPc_setPc_spec (s : State) (v : Addr) (n : Nat) :
    let t := (s.pushPc v).setPc n
    PcPushed s t v ∧ t = { s with pc := t.pc, rs := t.rs, rsp := t.rsp, rsEvent := t.rsEvent } ∧
      MemoryKept s t := by
  refine ⟨(s.pushPc_spec v).congr rfl rfl rfl rfl rfl rfl rfl, ?_, MemoryKept.of_eq (by simp)⟩
  apply State.ext_fields <;> simp

/-- A return writes the return-stack pointer and `pc` alone. -/
theorem State.popPc_frame (s : State) : s.popPc =
    { s with pc := s.popPc.pc, rs := s.popPc.rs, rsp := s.popPc.rsp, rsEvent := s.popPc.rsEvent } := by
  apply State.ext_fields <;> simp

theorem State.returnPc_of_two {s : State} (h : twoPcCells s.cfg = true) : s.returnPc =
    (cellAt s.rs (s.rsp + 1#8)).toNat % 65536 * 65536 + s.r.toNat % 65536 := by
  rw [State.returnPc, if_pos h, append16_toNat, lowWord_toNat, lowWord_toNat]
  rfl

theorem State.returnPc_of_one {s : State} (h : twoPcCells s.cfg = false) : s.returnPc = s.r.toNat := by
  rw [State.returnPc, if_neg (by simp [h])]

/-! ### `PopPC` after `PushPC` -/

/-- `PopPC` reads the return stack alone. -/
theorem State.returnPc_congr {s t : State} (hc : t.cfg = s.cfg) (hrs : t.rs = s.rs) (hrsp : t.rsp = s.rsp) :
    t.returnPc = s.returnPc := by
  have hlow : t.r = s.r := by rw [State.r, State.r, hrs, hrsp]
  have hhigh : t.rDrop.r = s.rDrop.r := by
    rw [State.r, State.r, State.rDrop_rs, State.rDrop_rs, State.rDrop_rsp, State.rDrop_rsp, hrs, hrsp]
  rw [State.returnPc, State.returnPc, hc, hlow, hhigh]

/-- In a state whose return stack is the one `PushPC` left, `PopPC` brings `pc` and the pointer back. -/
theorem State.popPc_of_pushed {s t : State} (hs : s.Legal) (hc : t.cfg = s.cfg)
    (hrs : t.rs = (s.pushPc s.pc).rs) (hrsp : t.rsp = (s.pushPc s.pc).rsp) :
    evenAddrOf t.cfg t.returnPc = s.pc ∧ t.dropPc.rsp = s.rsp := by
  have hpc : t.returnPc = s.pc.toNat := by
    rw [State.returnPc_congr (s := s.pushPc s.pc) (by rw [hc, State.pushPc_cfg]) hrs hrsp, State.pushPc_returnPc]
  refine ⟨by rw [hpc, hc, evenAddrOf_of_legal hs.pc_even hs.pc_lt], ?_⟩
  rw [State.dropPc_rsp, hrsp, hc, ← State.pushPc_cfg s s.pc, ← State.dropPc_rsp, State.pushPc_dropPc_rsp]

/-- A saved `pc` of one cell changes one cell. -/
theorem State.pushPc_others_of_one (s : State) (v : Addr) (h : twoPcCells s.cfg = false) {j : BitVec 8}
    (hj : j ≠ s.rsp - 1#8) : cellAt (s.pushPc v).rs j = cellAt s.rs j := by
  obtain ⟨hrsp, -, hothers, -⟩ := (s.pushPc_spec v).one h
  exact hothers j (hrsp ▸ hj)

/-! ### The branch obligations -/

/-- Settles O20, by whether `T` is 0. -/
theorem jzBranchesOnZero : Obligations.JzBranchesOnZero := by
  refine ⟨fun c d => decodeLine_branchWord c d (by decide), fun s d hpc => ?_⟩
  by_cases ht : s.t = 0
  · exact ⟨_, (Executes.jzTaken d ht).exec_eq, s.branch_frame d, s.branch_memoryKept d,
      fun h => absurd (congrArg BitVec.toNat ht) h, fun _ => s.branch_pc_toNat d hpc⟩
  · exact ⟨s, (Executes.jzPassed d ht).exec_eq, rfl, MemoryKept.of_eq rfl, fun _ => rfl,
      fun h => absurd (BitVec.eq_of_toNat_eq h) ht⟩

/-- Settles O22: a branch from the state whose return stack holds `pc`. -/
theorem callPushesAndBranches : Obligations.CallPushesAndBranches := by
  refine ⟨fun c d => decodeLine_branchWord c d (by decide), fun s d hpc => ?_⟩
  obtain ⟨hpushed, hframe, hmem⟩ := s.pushPc_setPc_spec s.pc ((s.pushPc s.pc).pc + displacement d).toNat
  have htarget := (s.pushPc s.pc).branch_pc_toNat d (by rwa [State.pushPc_pc])
  rw [State.pushPc_pc, State.pushPc_cfg] at htarget
  exact ⟨_, (Executes.call d s).exec_eq, hpushed, hframe, hmem, htarget⟩

/-- The target of a `calla`, as a number (R103). -/
theorem callaTarget_toNat (lo : BitVec 15) (hi : Word) :
    (hi ++ (lo ++ 0#1 : BitVec 16) : BitVec 32).toNat = hi.toNat * 65536 + lo.toNat * 2 := by
  rw [append16_toNat, BitVec.toNat_append, Nat.shiftLeft_eq, BitVec.toNat_ofNat, Nat.zero_mod, Nat.or_zero,
    pow_one]

/-- Settles O23: the target is even, so only the bits above `AB` are dropped. -/
theorem callaPushesAndJumps : Obligations.CallaPushesAndJumps := by
  intro s lo hi
  obtain ⟨hpushed, hframe, hmem⟩ := s.pushPc_setPc_spec s.pc (hi ++ (lo ++ 0#1 : BitVec 16) : BitVec 32).toNat
  refine ⟨_, (Executes.calla lo hi s).exec_eq, hpushed, hframe, hmem, ?_⟩
  rw [State.setPc_pc, State.pushPc_cfg, callaTarget_toNat, evenAddrOf_toNat_of_even _ (by omega)]

/-- Settles O24: `pc` takes what `PopPC` reads, from two cells or from one. -/
theorem retPopsThePc : Obligations.RetPopsThePc := by
  refine ⟨fun _ => rfl, fun s => ⟨_, (Executes.ret s).exec_eq, s.popPc_spec, s.popPc_frame,
    MemoryKept.of_eq (by simp), fun h => ?_, fun h => ?_⟩⟩
  · rw [State.popPc_pc, evenAddrOf_toNat, State.returnPc_of_two h]
  · rw [State.popPc_pc, evenAddrOf_toNat, State.returnPc_of_one h]

/-- Both calls push `pc` and go somewhere. -/
theorem exec_of_call {i : Instr} (s : State) (h : (∃ d, i = .call d) ∨ ∃ lo hi, i = .calla lo hi) :
    ∃ n, exec i s = .next ((s.pushPc s.pc).setPc n) := by
  rcases h with ⟨d, rfl⟩ | ⟨lo, hi, rfl⟩
  · exact ⟨_, (Executes.call d s).exec_eq⟩
  · exact ⟨_, (Executes.calla lo hi s).exec_eq⟩

/-- Settles O25: wherever the call went, the return stack is the one `PushPC` left. -/
theorem retUndoesCall : Obligations.RetUndoesCall := by
  intro s i hs hi
  obtain ⟨n, hcall⟩ := exec_of_call s hi
  obtain ⟨hpc, hrsp⟩ := State.popPc_of_pushed (t := (s.pushPc s.pc).setPc n) hs (by simp) rfl rfl
  refine ⟨_, _, hcall, (Executes.ret _).exec_eq, ?_, MemoryKept.of_eq (by simp), fun j h1 h2 => ?_,
    fun hone j h1 => ?_⟩
  · apply State.ext_fields
    case pc => rw [State.popPc_pc, hpc]
    case rsp => rw [State.popPc_rsp, hrsp]
    all_goals simp
  · rw [State.popPc_rs]
    exact s.pushPc_others s.pc h1 h2
  · rw [State.popPc_rs]
    exact s.pushPc_others_of_one s.pc hone h1

/-! ### Interruptions -/

/-- Settles O52: each enters with its own vector. -/
theorem swiAndIncorrectCodesEnter : Obligations.SwiAndIncorrectCodesEnter := fun s =>
  ⟨fun h => ⟨_, (Executes.swi h).exec_eq, s.enter_spec (by decide) (by decide)⟩,
    fun h => ⟨_, (Executes.reserved10110 h).exec_eq, s.enter_spec (by decide) (by decide)⟩,
    fun k => ⟨_, (Executes.incorrectBranchCode k s).exec_eq, s.enter_spec (by decide) (by decide)⟩⟩

/-- The pages come back on the 16 bits core, which alone has them (R191). -/
theorem State.returnFromInterruption_pages16 {s : State} (h : s.cfg.core = .core16) :
    s.returnFromInterruption.pa = s.spa ∧ s.returnFromInterruption.pr = s.spr := by
  simp [State.returnFromInterruption, State.restoreRegisters, h]

theorem State.returnFromInterruption_pages32 {s : State} (h : s.cfg.core = .core32) :
    s.returnFromInterruption.pa = s.pa ∧ s.returnFromInterruption.pr = s.pr := by
  simp [State.returnFromInterruption, State.restoreRegisters, h]

/-- Settles O53: the return pops `pc` as `ret` does, and copies the save registers back. -/
theorem iretRestores : Obligations.IretRestores := by
  refine ⟨fun _ => rfl, fun s => ⟨_, (Executes.iret s).exec_eq, ?_, MemoryKept.of_eq (by simp), by simp,
    State.returnFromInterruption_pages16, State.returnFromInterruption_pages32, ?_, ?_, ?_, ?_, ?_,
    ⟨_, (Executes.ret s).exec_eq, by simp⟩, ?_⟩⟩
  · exact s.popPc_spec.congr rfl rfl rfl rfl (by simp) (by simp) (by simp)
  · rw [State.returnFromInterruption_ce]; rfl
  · rw [State.returnFromInterruption_ce]; rfl
  · rw [State.returnFromInterruption_ce]; rfl
  · rw [State.returnFromInterruption_ce]; rfl
  · rw [State.returnFromInterruption_ce]; rfl
  · apply State.ext_fields <;> simp

/-- The pages after an entry and the return from it: saved and brought back, or never touched. -/
theorem State.enter_returnFromInterruption_pages (s : State) (v : Nat) :
    (s.enter v).returnFromInterruption.pa = s.pa ∧ (s.enter v).returnFromInterruption.pr = s.pr := by
  cases hc : s.cfg.core with
  | core16 =>
    obtain ⟨hpa, hpr⟩ := State.returnFromInterruption_pages16 (s := s.enter v) (by simpa using hc)
    rw [hpa, hpr]
    constructor <;> simp [State.enter, State.saveRegisters, hc]
  | core32 =>
    obtain ⟨hpa, hpr⟩ := State.returnFromInterruption_pages32 (s := s.enter v) (by simpa using hc)
    rw [hpa, hpr, State.enter_pa, State.enter_pr]
    exact ⟨rfl, rfl⟩

/-- Settles O54: `CE` and `A` come back from where the entry saved them, `pc` from the return stack. -/
theorem iretUndoesEntry : Obligations.IretUndoesEntry := by
  intro s v hs
  obtain ⟨hpc, hrsp⟩ := State.popPc_of_pushed (t := s.enter v) hs (by simp) (by simp) (by simp)
  obtain ⟨hpa, hpr⟩ := s.enter_returnFromInterruption_pages v
  have hce : (s.enter v).returnFromInterruption.ce = s.ce := by
    rw [State.returnFromInterruption_ce, State.enter_sce, controlOf_ceWord]
  refine ⟨_, (Executes.iret _).exec_eq, ?_, MemoryKept.of_eq (by simp), fun j h1 h2 => ?_,
    fun hone j h1 => ?_⟩
  · apply State.ext_fields
    case pc => rw [State.returnFromInterruption_pc, hpc]
    case rsp => rw [State.returnFromInterruption_rsp, hrsp]
    case pa => exact hpa
    case pr => exact hpr
    case ce => exact hce
    all_goals simp
  · rw [State.returnFromInterruption_rs, State.enter_rs]
    exact s.pushPc_others s.pc h1 h2
  · rw [State.returnFromInterruption_rs, State.enter_rs]
    exact s.pushPc_others_of_one s.pc hone h1

/-! ### The end of a line (R206) -/

theorem State.endOfLine_of_rsEvent {s : State} (hd : s.dsEvent = false) (hr : s.rsEvent = true) :
    s.endOfLine = { s with rsEvent := false }.enter vectorReturnStack := by
  simp [State.endOfLine, hd, hr]

theorem State.endOfLine_of_noEvent {s : State} (hd : s.dsEvent = false) (hr : s.rsEvent = false) :
    s.endOfLine = if s.irq && !s.ce.m then s.enter vectorPeripheral else s := by
  simp [State.endOfLine, hd, hr]

/-- `PushPC` keeps a return-stack event that waits. -/
theorem State.pushPc_keeps_rsEvent {s : State} (v : Addr) (h : s.rsEvent = true) :
    (s.pushPc v).rsEvent = true := by
  unfold State.pushPc
  split <;> simp [h]

/-- Settles O55, in the order of the priorities. -/
theorem endOfLinePriority : Obligations.EndOfLinePriority := by
  intro s
  refine ⟨fun hd => ?_, fun hd hr => ?_, fun hd hr hirq hm => ?_, fun hd hr hno => ?_⟩
  · rw [State.endOfLine_of_dsEvent hd]
    refine ⟨State.enter_spec _ (by decide) (by decide), by simp, fun hr => ?_⟩
    rw [State.enter_rsEvent]
    exact State.pushPc_keeps_rsEvent _ hr
  · rw [State.endOfLine_of_rsEvent hd hr]
    exact State.enter_spec _ (by decide) (by decide)
  · rw [State.endOfLine_of_noEvent hd hr, hirq, hm]
    exact s.enter_spec (by decide) (by decide)
  · rw [State.endOfLine_of_noEvent hd hr, if_neg]
    rcases hno with h | h <;> simp [h]

end Sys2Proof.Machine

/-!
PROOFS. The extension-register space (10_state.md R38 to R46, 41_extension_access.md R140, R141).
-/

namespace Sys2Proof.Machine

/-! ### Numbers of registers (R38) -/

/-- The number an access takes is the low word of `R`. -/
theorem eq_lowWord {n : Word} {v : Cell} (h : n.toNat = v.toNat % 65536) : n = lowWord v := by
  apply BitVec.eq_of_toNat_eq
  rw [h, lowWord_toNat]

/-- No other number than its own names a register. -/
theorem extReg_eq_iff {c : Config} {k : Word} {r : ExtReg} (hk : extReg c k = r) (hr : r ≠ .freeSpace)
    (n : Word) : extReg c n = r ↔ n.toNat = k.toNat := by
  rw [← BitVec.toNat_eq]
  refine ⟨fun h => extReg_injective (h.trans hk.symm) (h ▸ hr), ?_⟩
  rintro rfl
  exact hk

theorem extReg_eq_timer_iff (c : Config) (n : Word) : extReg c n = .timer ↔ n.toNat = 256 :=
  extReg_eq_iff (k := 256#16) rfl nofun n

theorem extReg_eq_uartData_iff (c : Config) (n : Word) : extReg c n = .uartData ↔ n.toNat = 259 :=
  extReg_eq_iff (k := 259#16) rfl nofun n

/-- A number has a register unless the map leaves it out, or its register is the 16 bits core's alone (R46). -/
theorem extReg_eq_freeSpace_iff (c : Config) (n : Word) : extReg c n = .freeSpace ↔
    (9 ≤ n.toNat ∧ n.toNat ≤ 255) ∨ (260 ≤ n.toNat ∧ n.toNat ≤ 511) ∨ 1024 ≤ n.toNat ∨
      (c.core = .core32 ∧ (n.toNat = 0 ∨ n.toNat = 1 ∨ n.toNat = 6 ∨ n.toNat = 7)) := by
  rcases extReg_cases c n with h | ⟨h1, h2, h3⟩ | ⟨h1, h2, h3⟩ | ⟨h1, h2⟩
  · unfold extReg onlyCore16
    rcases h with h | h | h | h | h | h | h | h | h | h | h | h | h <;> cases c.core <;> simp [h]
  · rw [h3]
    exact ⟨nofun, fun h => by omega⟩
  · rw [h3]
    exact ⟨nofun, fun h => by omega⟩
  · exact iff_of_true h2 (by omega)

theorem extReg_of_core16 {c : Config} (h : c.core = .core16) :
    extReg c 0 = .pa ∧ extReg c 1 = .pr ∧ extReg c 6 = .spa ∧ extReg c 7 = .spr := by
  simp [extReg, onlyCore16, h]

/-! ### What a read does (R39, R140) -/

/-- Reading another register than `TIMER` leaves the timer. -/
theorem State.noteExtRead_timer_of_ne (s : State) {r : ExtReg} (h : r ≠ .timer) :
    (s.noteExtRead r).timer = s.timer := by
  cases r <;> first | rfl | exact absurd rfl h

/-- Reading another register than `UART_DATA` leaves the UART. -/
theorem State.noteExtRead_uart_of_ne (s : State) {r : ExtReg} (h : r ≠ .uartData) :
    (s.noteExtRead r).uart = s.uart := by
  cases r <;> first | rfl | exact absurd rfl h

/-- Reading `UART_DATA` clears every status bit but txrdy (R215, D28). -/
theorem Uart.afterRead_status (u : Uart) : u.afterRead.rxrdy = false ∧ u.afterRead.txrdy = u.txrdy ∧
    u.afterRead.parityerr = false ∧ u.afterRead.framingerr = false ∧ u.afterRead.overrun = false := by
  simp [Uart.afterRead, Uart.rxrdy, Uart.txrdy, Uart.parityerr, Uart.framingerr, Uart.overrun]

/-- Settles O26: a read, a pop and a push, each on its own part of the state. -/
theorem fcwReadsPopsAndPushes : Obligations.FcwReadsPopsAndPushes := by
  refine ⟨fun _ => rfl, fun s n v hn hv => ?_⟩
  obtain rfl := eq_lowWord hn
  refine ⟨_, (Executes.fcw hv).exec_eq,
    (State.dPush_spec _ _).congr (by simp) (by simp) (by simp) (by simp) rfl rfl rfl,
    (State.rDrop_spec _).congr (by simp) (by simp) (by simp) rfl rfl rfl, ?_, MemoryKept.of_eq (by simp),
    fun h => ?_, fun h => ?_, fun h => ?_, fun h => ?_⟩
  · apply State.ext_fields <;> simp
  · exact s.noteExtRead_timer_of_ne fun hr => h ((extReg_eq_timer_iff _ _).mp hr)
  · rw [(extReg_eq_timer_iff _ _).mpr h]
    rfl
  · exact s.noteExtRead_uart_of_ne fun hr => h ((extReg_eq_uartData_iff _ _).mp hr)
  · rw [(extReg_eq_uartData_iff _ _).mpr h]
    exact ⟨rfl, s.uart.afterRead_status⟩

/-! ### What a register reads as (R39, R41 to R45) -/

/-- A 16-bit register in a cell: its sign goes upward on the 32 bits core. -/
theorem sextCell_word_toNat (c : Config) (w : Word) : (sextCell c w).toNat =
    if c.core = .core32 ∧ 0x8000 ≤ w.toNat then w.toNat + 0xFFFF0000 else w.toNat := by
  have hw := w.isLt
  rw [sextCell, cellOf_toNat, signExtend_word_toNat]
  rcases c.width_cases with ⟨hc, hwidth⟩ | ⟨hc, hwidth⟩ <;> rw [hwidth, hc]
  · simp only [reduceCtorEq, false_and, if_false]
    split <;> omega
  · simp only [true_and]
    split <;> split <;> omega

theorem signExtend_byte32_toNat (b : Byte) :
    (b.signExtend 32).toNat = if b.toNat < 128 then b.toNat else b.toNat + 0xFFFFFF00 := by
  have hb := b.isLt
  rw [BitVec.toNat_signExtend, BitVec.toNat_setWidth, BitVec.msb_eq_decide]
  simp only [decide_eq_true_eq]
  split <;> split <;> omega

/-- The received byte in a cell, its sign copied upward. -/
theorem sextCell_byte_toNat (c : Config) (b : Byte) : (sextCell c b).toNat =
    if b.toNat < 128 then b.toNat else b.toNat + (2 ^ c.width - 256) := by
  have hb := b.isLt
  rw [sextCell, cellOf_toNat, signExtend_byte32_toNat]
  rcases c.width_cases with ⟨-, hwidth⟩ | ⟨-, hwidth⟩ <;> rw [hwidth] <;> split <;> omega

/-- A register of at most 16 bits in a cell, zero-extended. -/
theorem zextCell_toNat (c : Config) {k : Nat} (hk : k ≤ 16) (v : BitVec k) : (zextCell c v).toNat = v.toNat := by
  have hv := v.isLt
  have h16 : 2 ^ k ≤ 2 ^ 16 := Nat.pow_le_pow_right (by decide) hk
  have := Config.sixteen_le_width c
  rw [zextCell, cellOf_toNat, Nat.mod_eq_of_lt (by omega)]

/-- `CE` as a number: its five bits, nine zeros, `EMU` and `MT` (R30). -/
theorem State.ceWord_toNat (s : State) : s.ceWord.toNat =
    s.ce.c.toNat * 2 ^ 15 + s.ce.i.toNat * 2 ^ 14 + s.ce.m.toNat * 2 ^ 13 + s.ce.b.toNat * 2 ^ 12 +
      s.ce.s.toNat * 2 ^ 11 + s.cfg.emu.toNat * 2 + s.cfg.mt.toNat := by
  have hbits : ∀ c i m b e emu mt : Bool,
      (BitVec.ofBool c ++ BitVec.ofBool i ++ BitVec.ofBool m ++ BitVec.ofBool b ++ BitVec.ofBool e ++ 0#9 ++
        BitVec.ofBool emu ++ BitVec.ofBool mt).toNat = c.toNat * 2 ^ 15 + i.toNat * 2 ^ 14 +
        m.toNat * 2 ^ 13 + b.toNat * 2 ^ 12 + e.toNat * 2 ^ 11 + emu.toNat * 2 + mt.toNat := by decide
  exact hbits ..

/-- The status stands in bits 15..11 of `UART_CTRL` (R214). -/
theorem Uart.statusWord_toNat (u : Uart) : u.statusWord.toNat = u.status.toNat * 2048 := by
  rw [Uart.statusWord, BitVec.toNat_append, Nat.shiftLeft_eq, BitVec.toNat_ofNat, Nat.zero_mod, Nat.or_zero]

/-- Settles O27, register by register: what stands behind the number, and its width. -/
theorem extensionRegisterValues : Obligations.ExtensionRegisterValues := by
  intro s read sign16 control
  have hd := s.dsp.isLt
  have hr := s.rsp.isLt
  have hce : s.ceWord.toNat = control := s.ceWord_toNat
  have value : ∀ {n : Word} {v : Cell}, s.extValue (extReg s.cfg n) = some v → read n = some v.toNat :=
    fun h => by simp only [read, h, Option.map_some]
  have signed : ∀ w : Word, (sextCell s.cfg w).toNat = sign16 w.toNat := sextCell_word_toNat s.cfg
  have small : ∀ w : Word, w.toNat < 0x8000 → sign16 w.toNat = w.toNat := fun w hw =>
    if_neg fun h => by omega
  refine ⟨fun hc => ?_, ?_, ?_, hce, ?_, value rfl, ?_, ?_, ?_, ?_, ?_, fun i => ?_, fun i => ?_⟩
  · obtain ⟨hpa, hpr, hspa, hspr⟩ := extReg_of_core16 hc
    have page : ∀ p : Word, (zextCell s.cfg p).toNat = p.toNat := zextCell_toNat s.cfg le_rfl
    rw [← page s.pa, ← page s.pr, ← page s.spa, ← page s.spr]
    exact ⟨value (by rw [hpa]; rfl), value (by rw [hpr]; rfl), value (by rw [hspa]; rfl),
      value (by rw [hspr]; rfl)⟩
  · rw [← s.pntt_toNat, ← small s.pntt (by rw [s.pntt_toNat]; omega), ← signed]
    exact value rfl
  · rw [← s.pntr_toNat, ← small s.pntr (by rw [s.pntr_toNat]; omega), ← signed]
    exact value rfl
  · rw [← hce, ← signed]
    exact value rfl
  · rw [← signed]
    exact value rfl
  · rw [← zextCell_toNat s.cfg (by decide) s.timer.count]
    exact value rfl
  · rw [← zextCell_toNat s.cfg (by decide) s.uart.baud]
    exact value rfl
  · rw [← Uart.statusWord_toNat, ← signed]
    exact value rfl
  · rw [← sextCell_byte_toNat]
    exact value rfl
  · exact value (by rw [extReg_dataCell]; rfl)
  · exact value (by rw [extReg_returnCell]; rfl)

/-! ### What a write does (R40, R141) -/

/-- Settles O28: a write leaves the pointers, so the two pops start from where they were. -/
theorem stcwWritesAndPops : Obligations.StcwWritesAndPops := by
  refine ⟨fun _ => rfl, fun s n w hn hw => ?_⟩
  obtain rfl := eq_lowWord hn
  obtain ⟨-, -, hdsp, hrsp, hdsEvent, hrsEvent, -, -, hmem, -⟩ := State.extWrite_frame hw
  refine ⟨_, (Executes.stcw hw).exec_eq, MemoryKept.of_eq (by simpa using hmem), ?_⟩
  rw [← hdsp, ← hrsp, ← hdsEvent, ← hrsEvent]
  rfl

/-- The stored bits of `CE` are bits 15..11 of the value written. -/
theorem controlOf_lowWord (v : Cell) : controlOf (lowWord v) =
    { c := v.getLsbD 15, i := v.getLsbD 14, m := v.getLsbD 13, b := v.getLsbD 12, s := v.getLsbD 11 } := by
  simp [controlOf, lowWord]

/-- Any value whose low word is not 0 enables the timer (D24). -/
theorem timer_afterWrite_lowWord (v : Cell) : Timer.afterWrite (lowWord v) =
    { enable := v.toNat % 65536 ≠ 0, count := 0, irq := false } := by
  rw [Timer.afterWrite, ← lowWord_toNat]
  congr 1
  rw [Bool.eq_iff_iff, bne_iff_ne, decide_eq_true_iff]
  exact not_congr BitVec.toNat_eq

/-- Writing `UART_DATA` clears txrdy and keeps the other status bits (R215). -/
theorem Uart.afterWrite_status (u : Uart) (b : Byte) : (u.afterWrite b).status.getLsbD 3 = false ∧
    ∀ j, j ≠ 3 → (u.afterWrite b).status.getLsbD j = u.status.getLsbD j := by
  refine ⟨by simp [Uart.afterWrite], fun j hj => ?_⟩
  by_cases h5 : j < 5
  · simp only [Uart.afterWrite, BitVec.getLsbD_and]
    interval_cases j <;> simp at hj ⊢
  · rw [BitVec.getLsbD_of_ge _ _ (Nat.not_lt.mp h5), BitVec.getLsbD_of_ge _ _ (Nat.not_lt.mp h5)]

/-- Settles O29, register by register. -/
theorem extensionRegisterWrites : Obligations.ExtensionRegisterWrites := by
  intro s v write page cell
  refine ⟨fun hc => ?_, ?_, rfl, rfl, ?_, ?_, rfl, ⟨_, rfl, s.uart.afterWrite_status (lowByte v)⟩,
    fun i => ?_, fun i => ?_⟩
  · obtain ⟨hpa, hpr, hspa, hspr⟩ := extReg_of_core16 hc
    simp only [write, hpa, hpr, hspa, hspr]
    exact ⟨rfl, rfl, rfl, rfl⟩
  · rw [← controlOf_lowWord]
    rfl
  · rw [← timer_afterWrite_lowWord]
    rfl
  · rw [show v.extractLsb' 0 4 = v.setWidth 4 from BitVec.eq_of_toNat_eq (by simp)]
    rfl
  · refine ⟨setCellAt s.ds i cell, ?_, cellAt_setCellAt_same _ _ _, fun j hj => cellAt_setCellAt_other _ _ hj⟩
    simp only [write, extReg_dataCell]
    rfl
  · refine ⟨setCellAt s.rs i cell, ?_, cellAt_setCellAt_same _ _ _, fun j hj => cellAt_setCellAt_other _ _ hj⟩
    simp only [write, extReg_returnCell]
    rfl

/-- A write of one register leaves what every other reads as, but for the status that a write of `UART_DATA`
changes. -/
theorem State.extWrite_extValue {s w : State} {v : Cell} {r q : ExtReg} (h : s.extWrite v r = some w)
    (hne : q ≠ r) (huart : ¬ (r = .uartData ∧ q = .uartCtrl)) : w.extValue q = s.extValue q := by
  cases r <;> simp only [State.extWrite, Option.some.injEq, reduceCtorEq] at h <;> subst h
  case dataCell i =>
    cases q
    case dataCell j => simp [State.extValue, cellAt_setCellAt_other _ _ fun e => hne (congrArg _ e)]
    all_goals rfl
  case returnCell i =>
    cases q
    case returnCell j => simp [State.extValue, cellAt_setCellAt_other _ _ fun e => hne (congrArg _ e)]
    all_goals rfl
  case uartData =>
    cases q
    case uartData => exact absurd rfl hne
    case uartCtrl => exact absurd ⟨rfl, rfl⟩ huart
    all_goals rfl
  all_goals cases q <;> first | rfl | exact absurd rfl hne

/-- Settles O30: two numbers have two registers. -/
theorem writesReachOneRegister : Obligations.WritesReachOneRegister := by
  intro s w v n k hne hw huart
  have hfree := State.extWrite_ne_free hw
  rw [State.extWrite_cfg hw]
  refine State.extWrite_extValue hw (fun h => hne (extReg_injective h.symm hfree)) fun ⟨hn, hk⟩ => ?_
  have hknum := extReg_number (c := s.cfg) (n := k) (by rw [hk]; nofun)
  rw [hk, numberOf] at hknum
  exact huart ⟨(extReg_eq_uartData_iff _ _).mp hn, hknum.symm⟩

/-! ### Refusals (R46, R141) -/

/-- Settles O31: a read is refused in free space alone, a write also at the two pointers. -/
theorem refusedExtensionAccesses : Obligations.RefusedExtensionAccesses := by
  intro s n hn free
  obtain rfl := eq_lowWord hn
  have hfree : extReg s.cfg (lowWord s.r) = .freeSpace ↔ free := extReg_eq_freeSpace_iff _ _
  have pointer : ∀ {r}, extReg s.cfg (lowWord s.r) = r → (r = .pntt ∨ r = .pntr) →
      exec .stcw s = .refused (.pointerWrite (lowWord s.r)) := by
    rintro r hr (rfl | rfl) <;> rw [exec_stcw_of_none (by rw [hr]; rfl), hr] <;> rfl
  refine ⟨fun h => ?_, fun h => ?_, ?_, fun h h2 h3 => ?_⟩
  · have hr := hfree.mpr h
    exact ⟨exec_fcw_of_none (by rw [hr]; rfl), by rw [exec_stcw_of_none (by rw [hr]; rfl), hr]; rfl⟩
  · obtain ⟨v, hv⟩ := Option.ne_none_iff_exists'.mp fun hnone =>
      h (hfree.mp ((s.extValue_eq_none_iff _).mp hnone))
    exact ⟨_, (Executes.fcw hv).exec_eq⟩
  · rintro (h2 | h3)
    · exact pointer (by rw [show lowWord s.r = 2#16 from BitVec.eq_of_toNat_eq h2]; rfl) (.inl rfl)
    · exact pointer (by rw [show lowWord s.r = 3#16 from BitVec.eq_of_toNat_eq h3]; rfl) (.inr rfl)
  · have hwritable : s.extWrite s.t (extReg s.cfg (lowWord s.r)) ≠ none := by
      intro hnone
      have number : ∀ {r}, extReg s.cfg (lowWord s.r) = r → r ≠ .freeSpace →
          numberOf r = (lowWord s.r).toNat := fun hr hne => hr ▸ extReg_number (hr ▸ hne)
      rcases (s.extWrite_eq_none_iff _ _).mp hnone with hr | hr | hr
      · exact h (hfree.mp hr)
      · exact h2 (number hr nofun).symm
      · exact h3 (number hr nofun).symm
    obtain ⟨w, hw⟩ := Option.ne_none_iff_exists'.mp hwritable
    exact ⟨_, (Executes.stcw hw).exec_eq⟩

end Sys2Proof.Machine

/-!
PROOFS. Memory access (42_memory_access.md R150 to R157).
-/

namespace Sys2Proof.Machine

/-! ### Reads -/

/-- A read at 0xFFFXXXXX, and no other, sets `rom_inhibit` (R254). -/
theorem State.noteRead_romInhibit_iff (s : State) (a : Addr) : (s.noteRead a).romInhibit = true ↔
    s.romInhibit = true ∨ a.toNat / 2 ^ 20 = 2 ^ (s.cfg.addrBits - 20) - 1 := by
  rw [State.noteRead_romInhibit, Bool.or_eq_true, inTopMegabyte_iff]

/-- Settles O32: the read leaves the data stack, and the push takes the value fetched whole. -/
theorem ftchaPushesTheFetchedValue : Obligations.FtchaPushesTheFetchedValue := by
  refine ⟨fun _ => rfl, fun s => ?_⟩
  intro a value
  have hvalue : (s.fetched s.addrA).toNat = value := s.fetched_toNat _
  refine ⟨_, (Executes.ftcha s).exec_eq, ?_, MemoryKept.of_eq rfl, rfl, s.noteRead_romInhibit_iff _⟩
  rw [← hvalue]
  exact (State.dPush_spec _ _).congr rfl rfl rfl rfl rfl rfl rfl

/-- Settles O33: the read touches neither `A` nor its page, so both are incremented as they stood. -/
theorem ftchapPushesAndIncrementsA : Obligations.FtchapPushesAndIncrementsA := by
  refine ⟨fun _ => rfl, fun s => ?_⟩
  intro a value moved
  have hvalue : (s.fetched s.addrA).toNat = value := s.fetched_toNat _
  obtain ⟨ha, hpa⟩ : ((s.noteRead s.addrA).incA s.stride).a = moved.a ∧
      ((s.noteRead s.addrA).incA s.stride).pa = moved.pa := State.incA_congr _ rfl rfl rfl
  refine ⟨_, (Executes.ftchap s).exec_eq, ?_, MemoryKept.of_eq (by simp), ?_, ?_⟩
  · rw [← hvalue]
    exact (State.dPush_spec _ _).congr (by simp) (by simp) (by simp) (by simp) rfl rfl rfl
  · rw [← ha, ← hpa]
    apply State.ext_fields <;> simp
  · rw [State.dPush_romInhibit, State.incA_romInhibit, State.noteRead_romInhibit_iff]

/-- Settles O34: as for `A`, with `R` written in its cell. -/
theorem ftchrpPushesAndIncrementsR : Obligations.FtchrpPushesAndIncrementsR := by
  refine ⟨fun _ => rfl, fun s => ?_⟩
  intro a value moved
  have hvalue : (s.fetched s.addrR).toNat = value := s.fetched_toNat _
  obtain ⟨hrs, hpr⟩ : ((s.noteRead s.addrR).incR s.stride).rs = moved.rs ∧
      ((s.noteRead s.addrR).incR s.stride).pr = moved.pr := State.incR_congr _ rfl rfl rfl rfl
  refine ⟨_, (Executes.ftchrp s).exec_eq, ?_, MemoryKept.of_eq (by simp), ?_,
    fun i hi => State.incR_others (s.noteRead s.addrR) _ hi, ?_⟩
  · rw [← hvalue]
    exact (State.dPush_spec _ _).congr (by simp) (by simp) (by simp) (by simp) rfl rfl rfl
  · rw [← hrs, ← hpr]
    apply State.ext_fields <;> simp
  · rw [State.dPush_romInhibit, State.incR_romInhibit, State.noteRead_romInhibit_iff]

/-- The word at an even address is the byte there and the next one (R72). -/
theorem State.wordAtPc_toNat {s : State} (h : s.pc.toNat % 2 = 0) : s.wordAtPc.toNat =
    (s.byteAt s.pc.toNat).toNat * 256 + (s.byteAt (s.pc.toNat + 1)).toNat := by
  rw [State.wordAtPc, State.wordAt_toNat, Nat.div_mul_cancel (Nat.dvd_of_mod_eq_zero h)]

/-- Settles O35: `pc` is even, so the word there is two bytes from `pc` on. -/
theorem litPushesTheNextWord : Obligations.LitPushesTheNextWord := by
  refine ⟨fun _ => rfl, fun s hs => ⟨_, (Executes.lit s).exec_eq, MemoryKept.of_eq rfl, ?_,
    State.passWord_pc_toNat hs.pc_even, rfl, s.passWord_romInhibit_iff⟩⟩
  rw [← State.wordAtPc_toNat hs.pc_even]
  exact (State.dPush_spec _ _).congr rfl rfl rfl rfl rfl rfl rfl

/-! ### Stores -/

/-- Settles O36: the store leaves the data stack, and the pop leaves memory. -/
theorem staStores : Obligations.StaStores := by
  refine ⟨fun _ => rfl, fun s => ⟨_, (Executes.sta s).exec_eq,
    (s.store_spec _ _).congr rfl rfl rfl rfl rfl, ?_, ?_⟩⟩
  · exact (State.dDrop_spec _).congr (by simp) (by simp) (by simp) rfl rfl rfl
  · apply State.ext_fields <;> simp

/-- Settles O37: the store touches neither `A` nor its page. -/
theorem stapStoresAndIncrementsA : Obligations.StapStoresAndIncrementsA := by
  refine ⟨fun _ => rfl, fun s => ?_⟩
  intro moved
  obtain ⟨ha, hpa⟩ : ((s.store s.addrA s.t).incA s.stride).a = moved.a ∧
      ((s.store s.addrA s.t).incA s.stride).pa = moved.pa :=
    State.incA_congr _ (by simp) (by simp) (by simp)
  refine ⟨_, (Executes.stap s).exec_eq, (s.store_spec _ _).congr rfl rfl rfl rfl (by simp), ?_, ?_⟩
  · exact (State.dDrop_spec _).congr (by simp) (by simp) (by simp) rfl rfl rfl
  · rw [← ha, ← hpa]
    apply State.ext_fields <;> simp

/-- Settles O38: the store touches neither the return stack nor the page of `R`. -/
theorem strpStoresAndIncrementsR : Obligations.StrpStoresAndIncrementsR := by
  refine ⟨fun _ => rfl, fun s => ?_⟩
  intro moved
  obtain ⟨hrs, hpr⟩ : ((s.store s.addrR s.t).incR s.stride).rs = moved.rs ∧
      ((s.store s.addrR s.t).incR s.stride).pr = moved.pr :=
    State.incR_congr _ (by simp) (by simp) (by simp) (by simp)
  refine ⟨_, (Executes.strp s).exec_eq, (s.store_spec _ _).congr rfl rfl rfl rfl (by simp), ?_, ?_,
    fun i hi => ?_⟩
  · exact (State.dDrop_spec _).congr (by simp) (by simp) (by simp) rfl rfl rfl
  · rw [← hrs, ← hpr]
    apply State.ext_fields <;> simp
  · rw [State.dDrop_rs, hrs]
    exact s.incR_others _ hi

/-! ### The boot ROM and the memory map (R78, R79, R254) -/

/-- The boot ROM shows while `XMODEM` and `rom_inhibit` are 0, at 0x000 to 0x1FF. -/
theorem State.romShows_iff (s : State) (k : Nat) :
    s.romShows k = true ↔ s.cfg.xmodem = false ∧ s.romInhibit = false ∧ k < 512 := by
  simp [State.romShows, and_assoc]

/-- No instruction clears `rom_inhibit`. -/
theorem Executes.romInhibit_keeps {i : Instr} {s t : State} (h : Executes i s t) (hs : s.romInhibit = true) :
    t.romInhibit = true := by
  cases h with
  | stcw hw =>
    obtain ⟨-, -, -, -, -, -, hrom, -⟩ := State.extWrite_frame hw
    simpa [hrom] using hs
  | _ => simp [hs]

/-- Settles O59: what a read finds, by whether the boot ROM shows; what it does; and what keeps the latch. -/
theorem bootRomUntilTheFirstHighRead : Obligations.BootRomUntilTheFirstHighRead := by
  intro s
  refine ⟨fun k => ?_, fun a => ⟨s.noteRead_romInhibit_iff a, fun hplace hrom => ?_⟩,
    fun i t h => (exec_eq_next_iff.mp h).romInhibit_keeps, rfl⟩
  · intro rom
    have hrom : s.romShows k = true ↔ rom := s.romShows_iff k
    have hidden : ¬ rom → s.romShows k = false := fun h => Bool.eq_false_iff.mpr fun h' => h (hrom.mp h')
    refine ⟨fun h => if_pos (hrom.mpr h), fun h n hplace => State.byteAt_of_place (hidden h) hplace,
      fun hflat h => ?_⟩
    rw [State.byteAt_of_place (hidden h) (.inl (State.placeOf_flat hflat k)), Nat.div_add_mod']
  · have hnothing : s.findsNothing a.toNat = true := by
      rw [State.findsNothing, State.placeOf, hplace, hrom]; rfl
    exact if_pos hnothing

end Sys2Proof.Machine

/-!
PROOFS. Additions and the two arithmetic idioms (43_alu.md R163, R168, 30_encoding.md R112), and the stack moves
(44_stack.md R180 to R185).
-/

namespace Sys2Proof.Machine

/-! ### Exact sums (R163, R168) -/

/-- The carry out and the truncated sum of two `W`-bit numbers are their exact sum. -/
theorem sum_value {c : Config} {x y : Cell} (hx : x.toNat < 2 ^ c.width) (hy : y.toNat < 2 ^ c.width) :
    (addCarry c x y).toNat * 2 ^ c.width + (cellOf c (x.toNat + y.toNat)).toNat = x.toNat + y.toNat := by
  have hquot : (x.toNat + y.toNat) / 2 ^ c.width < 2 := Nat.div_lt_of_lt_mul (by omega)
  rw [addCarry, Nat.toNat_testBit, Nat.mod_eq_of_lt hquot, cellOf_toNat, Nat.div_add_mod']

/-- Bit 0 of a cell says whether it is odd. -/
theorem getLsbD_zero_iff (v : Cell) : v.getLsbD 0 = true ↔ v.toNat % 2 = 1 := by
  rw [← rorCarry_toNat, Bool.toNat_eq_one]
  rfl

/-- Settles O42, by bit 0 of `T`. -/
theorem addcAddsWhenOdd : Obligations.AddcAddsWhenOdd := by
  refine ⟨fun c hc => by simp [decodeSlot, hc], fun s hs hmt => ?_⟩
  have hbit := getLsbD_zero_iff s.t
  cases hodd : s.t.getLsbD 0 with
  | true =>
    have hw := s.setT_setC_spec (s.t.toNat + s.second.toNat) (addCarry s.cfg s.t s.second)
    refine ⟨_, (Executes.addcAdds hmt hodd).exec_eq, hw.memory, hw.frame, hw.others, hw.top_lt, fun _ => ?_,
      fun heven => ?_⟩
    · rw [State.setC_t, State.setT_t, State.setC_ce]
      exact sum_value hs.t_lt hs.second_lt
    · have := hbit.mp hodd
      omega
  | false =>
    have hne : ¬ s.t.toNat % 2 = 1 := fun h => Bool.false_ne_true (hodd.symm.trans (hbit.mpr h))
    exact ⟨_, (Executes.addcPasses hmt hodd).exec_eq, MemoryKept.of_eq rfl, rfl, fun _ _ => rfl, hs.t_lt,
      fun h => absurd h hne, fun _ => ⟨rfl, rfl⟩⟩

/-- Settles O46: no bit of the sum of two `W`-bit cells is lost beside the carry. -/
theorem adddAddsExactly : Obligations.AdddAddsExactly := by
  refine ⟨fun _ => rfl, fun s hs => ⟨_, (Executes.addd s).exec_eq, ?_, MemoryKept.of_eq rfl, rfl, ?_⟩⟩
  · rw [Nat.add_comm]
    exact (s.replaceTwo_spec _).congr rfl rfl rfl rfl rfl rfl rfl
  · rw [State.setC_t, State.replaceTwo_t, State.setC_ce, sum_value hs.second_lt hs.t_lt, Nat.add_comm]

/-! ### Subtraction (R168) -/

/-- `com / lit #1 / addd` negates `T`, and leaves the cell below it and the pointer. -/
theorem runSlots_negation {s : State} (hs : s.Legal) (hone : s.wordAtPc = 1#16) (is : List Instr) :
    ∃ u, runSlots exec (.com :: .lit :: .addd :: is) s = runSlots exec is u ∧ u.Legal ∧ u.cfg = s.cfg ∧
      u.dsp = s.dsp ∧ u.second = s.second ∧
      u.t.toNat = (2 ^ s.cfg.width - s.t.toNat) % 2 ^ s.cfg.width := by
  have hcom := Executes.com s
  have hlit := Executes.lit (s.setT (~~~s.t).toNat)
  have hword : (s.setT (~~~s.t).toNat).wordAtPc = 1#16 := hone
  rw [hword] at hlit
  have haddd := Executes.addd (((s.setT (~~~s.t).toNat).passWord.dPush (1#16).toNat).setC false)
  refine ⟨_, ((runSlots_of_next _ hcom.exec_eq rfl).trans (runSlots_of_next _ hlit.exec_eq rfl)).trans
    (runSlots_of_next _ haddd.exec_eq rfl), haddd.legal (hlit.legal (hcom.legal hs)), rfl, ?_, ?_, ?_⟩
  · exact BitVec.sub_add_cancel s.dsp 1#8
  · exact (State.dPush_replaceTwo_second (s.setT (~~~s.t).toNat).passWord _ _).trans (s.setT_second _)
  · rw [State.setC_t, State.replaceTwo_t, cellOf_toNat, State.setC_t, State.setC_second, State.dPush_second,
      State.dPush_t, State.passWord_t, State.setT_t, cellOf_toNat, cellOf_toNat]
    simp only [State.setC_cfg, State.dPush_cfg, State.passWord_cfg, State.setT_cfg]
    rw [complement_mod hs.t_lt]
    exact complement_add_one_mod hs.t_lt

/-- Adding the negation of `b` to `a` subtracts, and carries out exactly when there is no borrow. -/
theorem subtraction_value {m a b r : Nat} {c : Bool} (ha : a < m) (hb : b < m) (hr : r < m)
    (h : c.toNat * m + r = (m - b) % m + a) :
    (r : Int) = ((a : Int) - b) % m ∧ (b ≠ 0 → (c = true ↔ b ≤ a)) := by
  have hwrap : (r : Int) = a - b ∨ (r : Int) = a - b + m := by
    rcases Nat.eq_zero_or_pos b with rfl | hpos
    · rw [Nat.sub_zero, Nat.mod_self] at h
      cases c <;> simp at h <;> omega
    · rw [Nat.mod_eq_of_lt (by omega)] at h
      cases c <;> simp at h <;> omega
  constructor
  · rcases hwrap with hwrap | hwrap
    · rw [← hwrap, Int.emod_eq_of_lt (by omega) (by omega)]
    · rw [← Int.add_emod_right, ← hwrap, Int.emod_eq_of_lt (by omega) (by omega)]
  · intro hne
    rw [Nat.mod_eq_of_lt (by omega)] at h
    cases c <;> simp at h ⊢ <;> omega

/-- Settles O47: the three first slots negate `T`, and the last adds it to `S`. -/
theorem subtractionIdiom : Obligations.SubtractionIdiom := by
  intro s hs hone
  obtain ⟨u, hrun, hlegal, hcfg, hdsp, hsecond, htop⟩ := runSlots_negation hs hone [.addd]
  obtain ⟨t, hadd, hstack, -, hframe, hsum⟩ := adddAddsExactly.2 u hlegal
  have hlt : t.t.toNat < 2 ^ u.cfg.width := by rw [hstack.top]; exact Nat.mod_lt _ (by positivity)
  rw [hcfg] at hsum hlt
  rw [htop, hsecond] at hsum
  obtain ⟨hvalue, hcarry⟩ := subtraction_value hs.second_lt hs.t_lt hlt hsum
  push_cast at hvalue
  exact ⟨t, hrun.trans ((runSlots_singleton _ _).trans hadd), by rw [hstack.pointer, hdsp], hvalue, hcarry⟩

/-! ### The arithmetic shift (R112) -/

/-- A write of `T` and the carry in place leaves `S`. -/
theorem TopAndCarryWritten.second_eq {s t : State} (h : TopAndCarryWritten s t) : t.second = s.second := by
  have hne : ∀ x : BitVec 8, x + 1#8 ≠ x := by decide
  rw [State.second, h.dsp_eq]
  exact h.others _ (hne _)

/-- The top bit of `x`, rotated into the carry and then in on the left of `x` shifted right, keeps the sign
of `x`. -/
theorem shift_value {c : Config} {x r top : Nat} {old sign out : Bool} (hx : x < 2 ^ c.width)
    (hr : r < 2 ^ c.width) (hrol : sign.toNat * 2 ^ c.width + r = 2 * x + old.toNat)
    (hror : 2 * top + out.toNat = x + sign.toNat * 2 ^ c.width) :
    top = x / 2 + (if 2 ^ (c.width - 1) ≤ x then 2 ^ (c.width - 1) else 0) ∧ (out = true ↔ x % 2 = 1) := by
  have hold := old.toNat_lt
  have hout := out.toNat_lt
  have hsign := sign.toNat_lt
  rw [← Bool.toNat_eq_one]
  rcases c.width_cases with ⟨-, hw⟩ | ⟨-, hw⟩ <;> rw [hw] at hx hr hrol hror ⊢ <;>
    exact ⟨by split <;> omega, by omega⟩

/-- Settles O48: the `rolc` on the copy puts the sign in the carry, and the `rorc` brings it in. -/
theorem shiftRightIdiom : Obligations.ShiftRightIdiom := by
  intro s hs
  have hdup := Executes.dup s
  have hcopy : (s.dPush s.t.toNat).t = s.t := State.dPush_t_of_lt hs.t_lt
  have hlegal := hdup.legal hs
  obtain ⟨u, hrolc, hu, hrol⟩ := exec_rolc_spec hlegal.t_lt
  have hdrop := Executes.drop u
  have htop : u.dDrop.t = s.t := by rw [State.dDrop_t, hu.second_eq, State.dPush_second]
  have hcfg : u.dDrop.cfg = s.cfg := by rw [State.dDrop_cfg, hu.cfg_eq, State.dPush_cfg]
  obtain ⟨t, hrorc, ht, hror⟩ := exec_rorc_spec (s := u.dDrop) (by rw [htop, hcfg]; exact hs.t_lt)
  have hrun : runSlots exec [.dup, .rolc, .drop, .rorc] s = .next t :=
    ((runSlots_of_next _ hdup.exec_eq rfl).trans (runSlots_of_next _ hrolc rfl)).trans
      ((runSlots_of_next _ hdrop.exec_eq rfl).trans ((runSlots_singleton _ _).trans hrorc))
  have hlt := hu.top_lt
  rw [State.dPush_cfg] at hrol hlt
  rw [hcopy] at hrol
  rw [htop, hcfg] at hror
  refine ⟨t, hrun, ?_, shift_value hs.t_lt hlt hrol hror⟩
  rw [ht.dsp_eq, State.dDrop_dsp, hu.dsp_eq, State.dPush_dsp, BitVec.sub_add_cancel]

/-! ### Stack moves (R180 to R185) -/

/-- A push writes the data stack alone. -/
theorem State.dPush_frame (s : State) (n : Nat) : DataPushed s (s.dPush n) n ∧ MemoryKept s (s.dPush n) ∧
    s.dPush n = { s with ds := (s.dPush n).ds, dsp := (s.dPush n).dsp, dsEvent := (s.dPush n).dsEvent } :=
  ⟨s.dPush_spec n, MemoryKept.of_eq rfl, rfl⟩

/-- Settles O49: each is one push, of a value read before it. -/
theorem dupOverPopaPush : Obligations.DupOverPopaPush :=
  ⟨fun _ => ⟨rfl, rfl, rfl⟩, fun s => ⟨⟨_, (Executes.dup s).exec_eq, s.dPush_frame _⟩,
    ⟨_, (Executes.overS s).exec_eq, s.dPush_frame _⟩, ⟨_, (Executes.popa s).exec_eq, s.dPush_frame _⟩⟩⟩

/-- Settles O50: each is a pop of one stack and a write elsewhere. -/
theorem popPushAndPushaMoveACell : Obligations.PopPushAndPushaMoveACell := by
  refine ⟨fun _ => ⟨rfl, rfl, rfl⟩, fun s => ⟨
    ⟨_, (Executes.pop s).exec_eq, ?_, ?_, MemoryKept.of_eq rfl, rfl⟩,
    ⟨_, (Executes.push s).exec_eq, ?_, ?_, MemoryKept.of_eq rfl, rfl⟩,
    ⟨_, (Executes.pusha s).exec_eq, ?_, MemoryKept.of_eq rfl, cellOf_toNat _ _, rfl⟩⟩⟩
  · exact s.rDrop_spec.congr rfl rfl rfl rfl rfl rfl
  · exact (State.dPush_spec _ _).congr rfl rfl rfl rfl rfl rfl rfl
  · exact s.dDrop_spec.congr rfl rfl rfl rfl rfl rfl
  · exact (State.rPush_spec _ _).congr rfl rfl rfl rfl rfl rfl rfl
  · exact s.dDrop_spec.congr rfl rfl rfl rfl rfl rfl

end Sys2Proof.Machine

/-!
PROOFS. The timer, the UART, the interruption input and RESET (60_exceptions.md R212 to R216, 70_reset_and_hazards.md
R250).
-/

namespace Sys2Proof.Machine

/-! ### The timer (R212) -/

theorem Timer.tick_of_disabled {t : Timer} (h : t.enable = false) : t.tick = t := by
  simp [Timer.tick, h]

theorem Timer.tick_of_enabled {t : Timer} (h : t.enable = true) :
    t.tick = { enable := true, count := t.count + 1, irq := true } := by
  simp [Timer.tick, h]

/-- An `fcw` pushes what its register reads as, truncated to a cell. -/
theorem exec_fcw_of_value {s : State} {n : Word} {v : Cell} (hn : n.toNat = s.r.toNat % 65536)
    (hv : s.extValue (extReg s.cfg n) = some v) (hlt : v.toNat < 2 ^ s.cfg.width) :
    ∃ t, exec .fcw s = .next t ∧ t.t = v ∧ (n.toNat = 256 → t.timer = s.timer.afterRead) ∧
      (n.toNat = 259 → t.uart.rxrdy = false ∧ t.uart.txrdy = s.uart.txrdy ∧ t.uart.parityerr = false ∧
        t.uart.framingerr = false ∧ t.uart.overrun = false) := by
  obtain ⟨t, ht, hpushed, -, -, -, -, htimer, -, huart⟩ := fcwReadsPopsAndPushes.2 s n v hn hv
  refine ⟨t, ht, ?_, htimer, fun h => (huart h).2⟩
  apply BitVec.eq_of_toNat_eq
  rw [hpushed.top, Nat.mod_eq_of_lt hlt]

/-- Settles O56: a tick by whether the timer is enabled, then the read of its register. -/
theorem timerCountsTicks : Obligations.TimerCountsTicks := by
  intro s
  refine ⟨⟨rfl, fun h => ?_, fun h => ?_⟩, fun hr => ?_⟩
  · simp only [State.applyEvent, Timer.tick_of_disabled h]
  · simp only [State.applyEvent, State.irq, Timer.tick_of_enabled h, BitVec.toNat_add, Bool.true_or]
    exact ⟨trivial, trivial, trivial, rfl⟩
  · have hreg : extReg s.cfg 256#16 = .timer := (extReg_eq_timer_iff _ _).mpr rfl
    obtain ⟨t, ht, htop, htimer, -⟩ := exec_fcw_of_value (n := 256#16) hr.symm (by rw [hreg]; rfl)
      (cellOf_lt s.cfg _)
    refine ⟨t, ht, ?_, ?_⟩
    · rw [htop]
      exact zextCell_toNat s.cfg (by decide) s.timer.count
    · rw [htimer rfl]
      exact ⟨rfl, rfl, rfl⟩

/-! ### The UART (R215) -/

/-- A received byte sets rxrdy, keeps txrdy, and adds to the error bits what it came with. -/
theorem Uart.receive_status (u : Uart) (b : Byte) (pe fe : Bool) :
    (u.receive b pe fe).rxrdy = true ∧ (u.receive b pe fe).txrdy = u.txrdy ∧
    (u.receive b pe fe).overrun = (u.overrun || u.rxrdy) ∧
    (u.receive b pe fe).parityerr = (u.parityerr || pe) ∧
    (u.receive b pe fe).framingerr = (u.framingerr || fe) := by
  simp [Uart.receive, Uart.rxrdy, Uart.txrdy, Uart.overrun, Uart.parityerr, Uart.framingerr]

/-- The transmitter's event sets txrdy and keeps the other status bits. -/
theorem Uart.txDone_status (u : Uart) : u.txDone.txrdy = true ∧ u.txDone.rxrdy = u.rxrdy ∧
    u.txDone.parityerr = u.parityerr ∧ u.txDone.framingerr = u.framingerr ∧
    u.txDone.overrun = u.overrun := by
  simp [Uart.txDone, Uart.rxrdy, Uart.txrdy, Uart.overrun, Uart.parityerr, Uart.framingerr]

/-- Settles O57: the two events, then the read and the write of register 259. -/
theorem uartReceivesAndSends : Obligations.UartReceivesAndSends := by
  intro s b pe fe
  obtain ⟨hrxrdy, htxrdy, hoverrun, hparity, hframing⟩ := s.uart.receive_status b pe fe
  refine ⟨⟨rfl, rfl, hrxrdy, htxrdy, hoverrun, hparity, hframing, rfl, rfl, rfl⟩,
    ⟨rfl, rfl, s.uart.txDone_status⟩, fun hr => ?_⟩
  have hreg : extReg s.cfg 259#16 = .uartData := (extReg_eq_uartData_iff _ _).mpr rfl
  constructor
  · obtain ⟨t, ht, htop, -, huart⟩ := exec_fcw_of_value (n := 259#16) hr.symm (by rw [hreg]; rfl)
      (cellOf_lt s.cfg _)
    obtain ⟨hrxrdy, htxrdy, hparity, hframing, hoverrun⟩ := huart rfl
    refine ⟨t, ht, hrxrdy, hparity, hframing, hoverrun, htxrdy, ?_⟩
    rw [htop]
    exact sextCell_byte_toNat s.cfg s.uart.rxByte
  · obtain ⟨t, ht, -, hframe⟩ := stcwWritesAndPops.2 s 259#16 _ hr.symm (by rw [hreg]; rfl)
    refine ⟨t, ht, ?_, ?_⟩
    · rw [hframe]
      exact (s.uart.afterWrite_status _).1
    · rw [hframe]
      rfl

/-! ### The interruption input (R216) -/

/-- A value is not 0 when one of its bits is 1. -/
theorem ne_zero_iff_exists_bit {w : Nat} (v : BitVec w) :
    (v != 0#w) = true ↔ ∃ i, i < w ∧ v.getLsbD i = true := by
  rw [bne_iff_ne, ne_eq, ← not_iff_not, not_not]
  constructor
  · rintro rfl ⟨i, -, hi⟩
    simp at hi
  · intro h
    apply BitVec.eq_of_getLsbD_eq
    intro i hi
    rw [BitVec.getLsbD_zero]
    exact Bool.eq_false_iff.mpr fun hbit => h ⟨i, hi, hbit⟩

/-- A status bit at 1 asks for the interruption where its mask bit has the sense that lets it through (D25). -/
theorem Uart.requests_iff (u : Uart) (p : MaskPolarity) : u.requests p = true ↔
    ∃ i, i < 5 ∧ u.status.getLsbD i = true ∧ u.mask.getLsbD i = (p == .enables) := by
  cases p with
  | enables =>
    refine (ne_zero_iff_exists_bit _).trans (exists_congr fun i => and_congr_right fun _ => ?_)
    rw [BitVec.getLsbD_and, Bool.and_eq_true]
    rfl
  | blocks =>
    refine (ne_zero_iff_exists_bit _).trans (exists_congr fun i => and_congr_right fun hi => ?_)
    rw [BitVec.getLsbD_and, Bool.and_eq_true, BitVec.getLsbD_not, decide_eq_true hi, Bool.true_and,
      Bool.not_eq_true']
    rfl

/-- Settles O58: the UART's request is a bit of its status that the mask lets through. -/
theorem irqIsTheOrOfItsSources : Obligations.IrqIsTheOrOfItsSources := by
  intro s
  refine ⟨?_, fun _ => rfl⟩
  rw [State.irq, Bool.or_eq_true, Bool.or_eq_true, Uart.requests_iff, or_assoc]

/-! ### RESET (R250) -/

/-- After RESET every source of the UART is masked, in either sense of the mask (R48, D25). -/
theorem Uart.requests_of_resetMask {u : Uart} {p : MaskPolarity} (h : u.mask = resetUartMask p) :
    u.requests p = false := by
  cases p with
  | blocks =>
    have hones : u.status &&& ~~~(0b11111#5) = 0#5 := BitVec.and_zero
    simp only [Uart.requests, h, resetUartMask]
    exact bne_eq_false_iff_eq.mpr hones
  | enables =>
    simp only [Uart.requests, h, resetUartMask]
    exact bne_eq_false_iff_eq.mpr BitVec.and_zero

/-- The pages RESET clears are those of the 16 bits core. -/
theorem State.applyReset_pages {s : State} (h : s.cfg.core = .core16) :
    s.applyReset.pa.toNat = 0 ∧ s.applyReset.pr.toNat = 0 := by
  simp [State.applyReset, h]

theorem resetUartMask_of_blocks {p : MaskPolarity} (h : p = .blocks) : (resetUartMask p).toNat = 31 := by
  rw [h]; rfl

/-- Settles O60, register by register, after power-up and after a later RESET. -/
theorem resetValues : Obligations.ResetValues := by
  unfold Obligations.ResetValues
  intro afterReset
  refine ⟨fun c => ⟨⟨rfl, State.pntt_toNat _, State.pntr_toNat _, rfl, fun _ => ⟨rfl, rfl⟩, rfl, rfl, rfl,
    rfl, rfl, rfl, resetUartMask_of_blocks⟩, rfl⟩, fun s => ?_⟩
  have hirq : s.applyReset.irq = s.extIrq := by
    have huart : s.applyReset.uart.requests s.cfg.uartMaskPolarity = false :=
      Uart.requests_of_resetMask rfl
    rw [State.irq, State.applyReset_cfg, huart]
    rfl
  exact ⟨⟨rfl, State.pntt_toNat _, State.pntr_toNat _, rfl, State.applyReset_pages (s := s), rfl, rfl, rfl,
    rfl, rfl, rfl, resetUartMask_of_blocks⟩, hirq, rfl, rfl, rfl, rfl, rfl, rfl, rfl, rfl, rfl, rfl, rfl,
    rfl, rfl, rfl, MemoryKept.of_eq rfl⟩

end Sys2Proof.Machine
